-- ==== Sys2Proof/Word.lean ====
section
/-! DEFINITION. The word types of the core and the values of its floating-point format. -/

namespace Sys2Proof

/-- One byte of an external format (20_memory.md R65, R66). -/
abbrev Byte := BitVec 8

/-- A 16-bit word: an opcode (`uint16`) or a sample, register or scratch word (`int16`, read with
`BitVec.toInt`) (00_scope.md R8). -/
abbrev Word := BitVec 16

/-- The scratch pointer and the opcode's `delta`: `uint14` (10_state.md R23, 30_encoding.md R82). -/
abbrev ScratchAddr := BitVec 14

/-- The step index of an invocation: `uint7` (10_state.md R24). -/
abbrev StepIndex := BitVec 7

/-- A normalised program index: `uint6` (10_state.md R26). -/
abbrev ProgIndex := BitVec 6

/-- A ROM word address: `uint13` (20_memory.md R60). -/
abbrev RomAddr := BitVec 13

/-- An IEEE 754 binary format with at least 17 significand bits and its subnormal handling: the
parameter `SVF_FP` with `SVF_FTZ` (00_scope.md R7, 92_eei_decisions.md D4, D25).  Both bounds hold
by construction: the significand has `17 + extraPrecision` bits and the exponent field
`8 + extraExponent` bits (log 9).  binary32 is `⟨7, 0, _⟩`, binary64 is `⟨36, 3, _⟩`. -/
structure FpFormat where
  extraPrecision : Nat
  extraExponent : Nat
  /-- `SVF_FTZ`: subnormal operands and results become zeros of their sign (log 11). -/
  flushSubnormals : Bool
  deriving DecidableEq, Repr, Inhabited

/-- A floating-point datum.  `finite neg m e` is `m · 2^e`, negated when `neg`; a zero is written
`finite neg 0 0`, so that +0 and -0 are two data (40_svf.md R100, R102).  A NaN has no payload
(log 10). -/
inductive Fp where
  | nan
  | infinite (neg : Bool)
  | finite (neg : Bool) (mant : Nat) (exp : Int)
  deriving DecidableEq, Repr, Inhabited

/-- A program name: a non-empty ASCII string with no NUL in it (41_program_selector.md R133,
92_eei_decisions.md D16).  Both hold by construction: there is a first character, and the number
`k` stands for the ASCII code `k + 1`, which is in 1..127. -/
structure ProgramName where
  first : Fin 127
  rest : List (Fin 127)
  deriving DecidableEq, Repr, Inhabited

end Sys2Proof
end

