-- ==== Sys2Proof/Syntax.lean ====
section
/-! DEFINITION. The instructions of BarrVerb microcode, one constructor per row of
spec/opcode_table.json (30_encoding.md R84). -/

namespace Sys2Proof

/-- An instruction: an operation class with its 14-bit pointer increment `delta`
(30_encoding.md R80, R84). -/
inductive Instr where
  /-- opclass 00, read and accumulate (42_dsp_engine.md R143) -/
  | rda (delta : ScratchAddr)
  /-- opclass 01, read and load (42_dsp_engine.md R144) -/
  | rdl (delta : ScratchAddr)
  /-- opclass 10, write accumulator and accumulate (42_dsp_engine.md R145) -/
  | wra (delta : ScratchAddr)
  /-- opclass 11, write negated (42_dsp_engine.md R146) -/
  | wrn (delta : ScratchAddr)
  deriving DecidableEq, Repr

end Sys2Proof
end

