-- ==== Sys2Proof/Decode.lean ====
section
/-! DEFINITION. The decoder and the encoder of the one 16-bit format (30_encoding.md R80 to R92). -/

namespace Sys2Proof

/-- `op[15:14]` (30_encoding.md R81). -/
def opclass (op : Word) : BitVec 2 := op.extractLsb' 14 2

/-- `op[13:0]`, zero-extended, never sign-extended and never scaled (30_encoding.md R82). -/
def delta (op : Word) : ScratchAddr := op.extractLsb' 0 14

/-- Decoding, total on any 16-bit word (30_encoding.md R85, R92). -/
def decodeWord (op : Word) : Instr :=
  if opclass op = 0b00#2 then .rda (delta op)
  else if opclass op = 0b01#2 then .rdl (delta op)
  else if opclass op = 0b10#2 then .wra (delta op)
  else .wrn (delta op)

/-- Why a byte sequence decodes to no instruction. -/
inductive DecodeError where
  /-- fewer than the two bytes of a word are left; every whole word decodes (30_encoding.md R85) -/
  | truncated
  deriving DecidableEq, Repr

/-- A ROM word from its two bytes in the image, least significant first (20_memory.md R66). -/
def wordOfBytes (lo hi : Byte) : Word := hi ++ lo

/-- The first instruction of a byte sequence in the ROM image's order, and the bytes after it. -/
def decode : List Byte → Except DecodeError (Instr × List Byte)
  | lo :: hi :: rest => .ok (decodeWord (wordOfBytes lo hi), rest)
  | _ => .error .truncated

/-- The class bits of an instruction (30_encoding.md R84). -/
def Instr.opclassBits : Instr → BitVec 2
  | .rda _ => 0b00#2
  | .rdl _ => 0b01#2
  | .wra _ => 0b10#2
  | .wrn _ => 0b11#2

/-- The pointer increment of an instruction (30_encoding.md R82). -/
def Instr.deltaBits : Instr → ScratchAddr
  | .rda d => d
  | .rdl d => d
  | .wra d => d
  | .wrn d => d

/-- `op = (opclass << 14) | delta` (30_encoding.md R87). -/
def encode (i : Instr) : Word := i.opclassBits ++ i.deltaBits

/-- The two bytes of an instruction in the ROM image (20_memory.md R66). -/
def encodeBytes (i : Instr) : List Byte :=
  [(encode i).extractLsb' 0 8, (encode i).extractLsb' 8 8]

/-- The bytes of a number as the ROM image stores its words: little-endian, `n` bytes
(20_memory.md R66). -/
def imageBytes : Nat → Nat → List Byte
  | 0, _ => []
  | n + 1, w => BitVec.ofNat 8 (w % 256) :: imageBytes n (w / 256)

/-- The instruction that the decoder reads from the table's word `w` of `nbits` bits, bits above
`nbits` being 0: laid out as the ROM image stores it and given to `decode`. -/
def decodeTableWord (nbits w : Nat) : Option Instr :=
  match decode (imageBytes 2 (w % 2 ^ nbits)) with
  | .ok (i, _) => some i
  | .error _ => none

end Sys2Proof
end

