-- ==== Sys2Proof/Machine/Memory.lean ====
section
/-! DEFINITION. Memories as plain data: lists of (address, cell) pairs in one canonical form, with
one definition for every cell width.  The ROM and the scratch RAM have 16-bit cells, the unit of
every access inside the core (20_memory.md R67; log 25); host memory has bytes (`Host.Cell`). -/

namespace Sys2Proof.Machine

/-- A memory of `w`-bit cells. -/
abbrev Memory (w : Nat) := List (Nat × BitVec w)

/-- The value of a cell: what the memory lists for it, and 0 where it lists nothing. -/
def Memory.read {w : Nat} : Memory w → Nat → BitVec w
  | [], _ => 0
  | (k, v) :: rest, a => if a = k then v else Memory.read rest a

/-- The memory with nothing listed at `a`. -/
def Memory.forget {w : Nat} (m : Memory w) (a : Nat) : Memory w :=
  m.filter fun c => c.1 != a

/-- The memory with one more entry, put before the first larger address. -/
def Memory.place {w : Nat} : Memory w → Nat → BitVec w → Memory w
  | [], a, v => [(a, v)]
  | (k, x) :: rest, a, v => if a < k then (a, v) :: (k, x) :: rest else (k, x) :: Memory.place rest a v

/-- Store `v` at `a`, keeping the canonical form: storing the value that an unlisted cell reads as
removes the entry. -/
def Memory.write {w : Nat} (m : Memory w) (a : Nat) (v : BitVec w) : Memory w :=
  if v = 0 then m.forget a else Memory.place (m.forget a) a v

/-- The canonical form: addresses strictly rising, no entry equal to what an unlisted cell reads
as. -/
abbrev Memory.wf {w : Nat} (m : Memory w) : Prop :=
  m.Pairwise (fun c d => c.1 < d.1) ∧ ∀ c ∈ m, c.2 ≠ 0

/-- Every listed address is below `n`. -/
abbrev Memory.below {w : Nat} (n : Nat) (m : Memory w) : Prop := ∀ c ∈ m, c.1 < n

/-- The memory that holds a list of cells from address `a` on. -/
def Memory.ofCells {w : Nat} : Nat → List (BitVec w) → Memory w
  | _, [] => []
  | a, v :: rest => if v = 0 then Memory.ofCells (a + 1) rest else (a, v) :: Memory.ofCells (a + 1) rest

end Sys2Proof.Machine
end

