-- ==== Sys2Proof/Config.lean ====
section
/-! DEFINITION. The open parameters of the core that are functions, and the values no state
determines: constants with no body, so that nothing in Lean can evaluate them. -/

namespace Sys2Proof

/-- The parameter `SVF_FP` (with `SVF_FTZ`) of the instance that `State.reset` is
(00_scope.md R7; log 9).  Every other state names its own format in its field `fp`. -/
opaque Config.svfFormat : FpFormat

/-- The parameter `svf_tan`: the tangent used in filter configuration, assumed only to be a
function of its argument (00_scope.md R7, 92_eei_decisions.md D6; log 13). -/
opaque Config.svfTan : FpFormat → Fp → Fp

/-- The parameter `NAMES`: the 64 program names (00_scope.md R7, 92_eei_decisions.md D16; log 18). -/
opaque Config.programNames : ProgIndex → ProgramName

/-- The draw of 60_exceptions.md R251: whether the `n`-th construction fails (log 14). -/
opaque Config.constructionFails : Nat → Bool

end Sys2Proof
end

