-- ==== Sys2Proof/Machine/Constants.lean ====
section
/-! DEFINITION. The fixed parameters of the core, one named constant each (00_scope.md R6).  The
spec marks their values as unaudited (91_not_in_source.md N17; log 23). -/

namespace Sys2Proof.Machine

/-- Steps per program and per invocation. -/
def programLength : Nat := 128

/-- Words of the program ROM. -/
def romWords : Nat := 8192

/-- Words of the scratch RAM. -/
def scratchWords : Nat := 16384

/-- `ai` is clamped to `[-aiLimit, aiLimit]`. -/
def aiLimit : Int := 2047

/-- The input hook's step. -/
def inputStep : StepIndex := 0

/-- The right-output hook's step, 0x60. -/
def rightStep : StepIndex := 96

/-- The left-output hook's step, 0x70. -/
def leftStep : StepIndex := 112

/-- The last step of an invocation. -/
def lastStep : StepIndex := 127

/-- Default sample rate in Hz. -/
def defaultRate : Nat := 44100

/-- PCM input scale: the divisor of a PCM sample. -/
def pcmScale : Nat := 32768

/-- Engine input scale. -/
def engineInScale : Nat := 2048

/-- Engine output scale. -/
def engineOutScale : Int := 16

/-- `dsp_in` is defined in `[-dspInLimit, dspInLimit]` (43_fixed_point_scaler.md R182). -/
def dspInLimit : Int := 32767

/-- A program index is coerced with `& 0x3F`. -/
def indexMask : BitVec 8 := 0x3F

/-- A sample rate is in the domain when it is above this many Hz, twice the larger cutoff
(45_host_interface.md R234). -/
def minRate : Nat := 18916

/-- The constants of a filter stage: the cutoff in Hz and `Q = qNum / qDen` (40_svf.md R105). -/
structure StageConst where
  cutoff : Nat
  qNum : Nat
  qDen : Nat
  deriving DecidableEq, Repr

/-- Stage 1: 5916 Hz, Q 0.6572. -/
def stage1 : StageConst := ⟨5916, 6572, 10000⟩

/-- Stage 2: 9458 Hz, Q 2.536. -/
def stage2 : StageConst := ⟨9458, 2536, 1000⟩

end Sys2Proof.Machine
end

