-- ==== Sys2Proof/Machine/Float.lean ====
section
/-! DEFINITION. IEEE 754 binary arithmetic in any admitted format, rounded to nearest, ties to
even, by exact integer arithmetic (40_svf.md R102, 92_eei_decisions.md D4, D5, D7, D25; logs 9 to
12). -/

namespace Sys2Proof

/-- Significand bits. -/
def FpFormat.precision (f : FpFormat) : Nat := 17 + f.extraPrecision

/-- The largest exponent of a finite value of the form `1.x · 2^e`. -/
def FpFormat.emax (f : FpFormat) : Int := 2 ^ (7 + f.extraExponent) - 1

/-- The smallest exponent of a normal value. -/
def FpFormat.emin (f : FpFormat) : Int := 1 - f.emax

/-- The exponent of the last place of a subnormal value. -/
def FpFormat.qMin (f : FpFormat) : Int := f.emin - (f.precision - 1)

/-- The exponent of the last place of the largest finite value. -/
def FpFormat.qMax (f : FpFormat) : Int := f.emax - (f.precision - 1)

/-- `floor (log2 (num / den))` for positive `num` and `den`. -/
def floorLog2 (num den : Nat) : Int :=
  let l : Int := (num.log2 : Int) - (den.log2 : Int)
  if den * 2 ^ l.toNat ≤ num * 2 ^ (-l).toNat then l else l - 1

/-- The integer nearest to `num / den`, the even one of two equally near. -/
def divNearestEven (num den : Nat) : Nat :=
  if 2 * (num % den) > den ∨ (2 * (num % den) = den ∧ num / den % 2 = 1) then num / den + 1
  else num / den

/-- A rounded significand `m` at the exponent `q` of its last place as a datum of the format: a
carry out of the significand moves to the next exponent, a value beyond the largest exponent
becomes an infinity, and a subnormal one is flushed where the format says so. -/
def FpFormat.normalise (f : FpFormat) (neg : Bool) (m : Nat) (q : Int) : Fp :=
  let carry := m = 2 ^ f.precision
  let m' := if carry then 2 ^ (f.precision - 1) else m
  let q' := if carry then q + 1 else q
  if m' = 0 then .finite neg 0 0
  else if f.qMax < q' then .infinite neg
  else if f.flushSubnormals = true ∧ m' < 2 ^ (f.precision - 1) then .finite neg 0 0
  else .finite neg m' q'

/-- The exponent of the last place that a positive value `num / den · 2^e` is rounded to. -/
def FpFormat.lastPlace (f : FpFormat) (num den : Nat) (e : Int) : Int :=
  max f.qMin (floorLog2 num den + e - (f.precision - 1))

/-- The value `num / den · 2^e` (`den > 0`), negated when `neg`, rounded to nearest, ties to even. -/
def FpFormat.round (f : FpFormat) (neg : Bool) (num den : Nat) (e : Int) : Fp :=
  if num = 0 then .finite neg 0 0
  else
    let q := f.lastPlace num den e
    f.normalise neg (divNearestEven (num * 2 ^ (e - q).toNat) (den * 2 ^ (q - e).toNat)) q

/-- The datum of the format nearest to a given one. -/
def FpFormat.canon (f : FpFormat) : Fp → Fp
  | .nan => .nan
  | .infinite neg => .infinite neg
  | .finite neg m e => f.round neg m 1 e

/-- An operand as the operations see it: where the format flushes subnormals, a non-zero operand
below the smallest normal value is a zero of its sign. -/
def FpFormat.operand (f : FpFormat) : Fp → Fp
  | .finite neg m e =>
    if f.flushSubnormals = true ∧ m ≠ 0 ∧ (m.log2 : Int) + e < f.emin then .finite neg 0 0
    else .finite neg m e
  | x => x

/-- The datum with its sign reversed. -/
def Fp.neg : Fp → Fp
  | .nan => .nan
  | .infinite n => .infinite (!n)
  | .finite n m e => .finite (!n) m e

/-- `±m` as an integer. -/
def signedMant (neg : Bool) (m : Nat) : Int := if neg then -(m : Int) else m

/-- The sum of two operands.  An exact zero sum is -0 only when both operands are zeros of sign -. -/
def FpFormat.addCore (f : FpFormat) : Fp → Fp → Fp
  | .nan, _ => .nan
  | .infinite _, .nan => .nan
  | .finite _ _ _, .nan => .nan
  | .infinite a, .infinite b => if a = b then .infinite a else .nan
  | .infinite a, .finite _ _ _ => .infinite a
  | .finite _ _ _, .infinite b => .infinite b
  | .finite na ma ea, .finite nb mb eb =>
    let e := min ea eb
    let sum := signedMant na ma * 2 ^ (ea - e).toNat + signedMant nb mb * 2 ^ (eb - e).toNat
    if sum = 0 then .finite (na && nb) 0 0 else f.round (sum < 0) sum.natAbs 1 e

/-- The product of two operands. -/
def FpFormat.mulCore (f : FpFormat) : Fp → Fp → Fp
  | .nan, _ => .nan
  | .infinite _, .nan => .nan
  | .finite _ _ _, .nan => .nan
  | .infinite a, .infinite b => .infinite (a != b)
  | .infinite a, .finite b m _ => if m = 0 then .nan else .infinite (a != b)
  | .finite a m _, .infinite b => if m = 0 then .nan else .infinite (a != b)
  | .finite na ma ea, .finite nb mb eb => f.round (na != nb) (ma * mb) 1 (ea + eb)

/-- The quotient of two operands. -/
def FpFormat.divCore (f : FpFormat) : Fp → Fp → Fp
  | .nan, _ => .nan
  | .infinite _, .nan => .nan
  | .finite _ _ _, .nan => .nan
  | .infinite _, .infinite _ => .nan
  | .infinite a, .finite b _ _ => .infinite (a != b)
  | .finite a _ _, .infinite b => .finite (a != b) 0 0
  | .finite na ma ea, .finite nb mb eb =>
    if mb = 0 then (if ma = 0 then .nan else .infinite (na != nb))
    else f.round (na != nb) ma mb (ea - eb)

/-- `x + y` in the format. -/
def FpFormat.add (f : FpFormat) (x y : Fp) : Fp := f.addCore (f.operand x) (f.operand y)

/-- `x - y` in the format. -/
def FpFormat.sub (f : FpFormat) (x y : Fp) : Fp := f.addCore (f.operand x) (f.operand y).neg

/-- `x * y` in the format. -/
def FpFormat.mul (f : FpFormat) (x y : Fp) : Fp := f.mulCore (f.operand x) (f.operand y)

/-- `x / y` in the format. -/
def FpFormat.div (f : FpFormat) (x y : Fp) : Fp := f.divCore (f.operand x) (f.operand y)

/-- Positive zero. -/
def Fp.zero : Fp := .finite false 0 0

/-- The format's value nearest to an integer. -/
def FpFormat.ofInt (f : FpFormat) (n : Int) : Fp := f.round (n < 0) n.natAbs 1 0

/-- The format's value nearest to a natural number. -/
def FpFormat.ofNat (f : FpFormat) (n : Nat) : Fp := f.round false n 1 0

/-- The first `n` terms of `π = 2 (1 + 1/3 (1 + 2/5 (1 + 3/7 (…))))` (Euler), nested from the
innermost `x` out, in units of `1 / one`. -/
def eulerNest (one : Nat) : Nat → Nat → Nat
  | 0, x => x
  | k + 1, x => eulerNest one k (2 * one + x * (k + 1) / (2 * k + 3))

/-- `π · 2^n`, at most 4 too small. -/
def piScaled (n : Nat) : Nat := eulerNest (2 ^ n) n (2 * 2 ^ n)

/-- Fractional bits of π that decide which value of the format is nearest to it, for every
precision: Mahler's `|π - m / 2^j| > 2^(-42 j)` keeps π that far from every tie (log 12). -/
def FpFormat.piBits (f : FpFormat) : Nat := 42 * f.precision

/-- The format's value nearest to π (40_svf.md R102; log 12). -/
def FpFormat.pi (f : FpFormat) : Fp := f.round false (piScaled f.piBits) 1 (-(f.piBits : Int))

/-- The integer nearest to the value in the direction of zero (00_scope.md R9); none for a NaN or
an infinity. -/
def Fp.trunc : Fp → Option Int
  | .nan => none
  | .infinite _ => none
  | .finite neg m e => some (signedMant neg (m * 2 ^ e.toNat / 2 ^ (-e).toNat))

/-- Whether the datum is finite and its exact value is above the natural number `n`. -/
def Fp.exceeds : Fp → Nat → Bool
  | .finite false m e, n => n * 2 ^ (-e).toNat < m * 2 ^ e.toNat
  | _, _ => false

/-- Whether the datum is neither a NaN nor an infinity. -/
def Fp.isFinite : Fp → Bool
  | .finite _ _ _ => true
  | _ => false

/-- The values of the format: NaN, the infinities, the zeros and, in the one form `round` gives
them, the normal and (where they are kept) the subnormal values. -/
def FpFormat.isValue (f : FpFormat) : Fp → Prop
  | .nan => True
  | .infinite _ => True
  | .finite _ m e =>
    (m = 0 ∧ e = 0) ∨
      (0 < m ∧ m < 2 ^ f.precision ∧ f.qMin ≤ e ∧ e ≤ f.qMax ∧
        (2 ^ (f.precision - 1) ≤ m ∨ (e = f.qMin ∧ f.flushSubnormals = false)))

end Sys2Proof
end

