-- ==== Sys2Proof/Machine/Svf.lean ====
section
/-! DEFINITION. The state-variable filter stages and their cascade (40_svf.md R100 to R107). -/

namespace Sys2Proof.Machine

/-- One filter stage: its coefficients (10_state.md R27) and its delays (R28). -/
structure SvfStage where
  c1 : Fp
  c2 : Fp
  d0 : Fp
  z1 : Fp
  z2 : Fp
  deriving DecidableEq, Repr, Inhabited

/-- The tangent, a function from values of the format to values of the format
(00_scope.md R7; log 13). -/
def tangent (f : FpFormat) (x : Fp) : Fp := f.canon (Config.svfTan f x)

/-- `w = 2 · tan(π · cutoff / sample_rate)` (40_svf.md R100). -/
def svfWarp (f : FpFormat) (k : StageConst) (sr : Fp) : Fp :=
  f.mul (f.ofNat 2) (tangent f (f.div (f.mul f.pi (f.ofNat k.cutoff)) sr))

/-- The stage that 40_svf.md R100 configures from `w`: coefficients by its formulas, delays +0. -/
def svfFromWarp (f : FpFormat) (k : StageConst) (w : Fp) : SvfStage :=
  let q := f.round false k.qNum k.qDen 0
  let a := f.div w q
  let b := f.mul w w
  let c1 := f.div (f.add a b)
    (f.add (f.add (f.ofNat 1) (f.div a (f.ofNat 2))) (f.div b (f.ofNat 4)))
  let c2 := f.div b (f.add a b)
  let d0 := f.div (f.mul c1 c2) (f.ofNat 4)
  { c1 := c1, c2 := c2, d0 := d0, z1 := .zero, z2 := .zero }

/-- The stage configured for a sample rate in the domain (40_svf.md R100). -/
def svfConfigured (f : FpFormat) (k : StageConst) (sr : Fp) : SvfStage :=
  svfFromWarp f k (svfWarp f k sr)

/-- The configuration's domain, on exact values: `cutoff > 0`, `q > 0` and `cutoff < sr / 2`
(40_svf.md R101).  A NaN or an infinity is outside it. -/
def svfInDomain (k : StageConst) (sr : Fp) : Bool :=
  decide (0 < k.cutoff) && decide (0 < k.qNum) && decide (0 < k.qDen) && sr.exceeds (2 * k.cutoff)

/-- `SvfSet_k`: the configured stage, or the offending rate, decided before anything is written
(40_svf.md R100, R101). -/
def svfSet (f : FpFormat) (k : StageConst) (sr : Fp) : Except Fp SvfStage :=
  if svfInDomain k sr then .ok (svfConfigured f k sr) else .error sr

/-- `SvfStep_k`: the output and the stage after it.  `z2` uses the `z1` from before the step, the
output uses the `z2` from after it (40_svf.md R103, 70_reset_and_hazards.md R289). -/
def svfStep (f : FpFormat) (st : SvfStage) (x : Fp) : Fp × SvfStage :=
  let t := f.sub (f.sub x st.z1) st.z2
  let z2 := f.add st.z2 (f.mul st.c2 st.z1)
  let z1 := f.add st.z1 (f.mul st.c1 t)
  (f.add (f.mul st.d0 t) z2, { st with z1 := z1, z2 := z2 })

/-- `Cascade(x) = SvfStep_2(SvfStep_1(x))`: the output and both stages after it (40_svf.md R105). -/
def cascade (f : FpFormat) (s1 s2 : SvfStage) (x : Fp) : Fp × SvfStage × SvfStage :=
  let r1 := svfStep f s1 x
  let r2 := svfStep f s2 r1.1
  (r2.1, r1.2, r2.2)

end Sys2Proof.Machine
end

