-- ==== Sys2Proof/Machine/State.lean ====
section
/-! DEFINITION. The state of one engine instance and its host side, the reasons a step can stop,
and the state after `new()` (10_state.md, 70_reset_and_hazards.md R280). -/

namespace Sys2Proof.Machine

/-- A host PCM buffer: where it starts in host memory and its size, both in bytes
(20_memory.md R65; log 8). -/
structure PcmBuffer where
  base : Nat
  bytes : Nat
  deriving DecidableEq, Repr, Inhabited

/-- A call of the host (45_host_interface.md R230). -/
inductive HostOp where
  /-- `new()` (70_reset_and_hazards.md R280) -/
  | new
  /-- `set_sample_rate(sr_hz)` (45_host_interface.md R233; log 27) -/
  | setSampleRate (sr : Fp)
  /-- `set_program(index)` (41_program_selector.md R130) -/
  | setProgram (index : BitVec 8)
  /-- `program_name(index)` (41_program_selector.md R133) -/
  | programName (index : BitVec 8)
  /-- `run(input, output, frames)` (44_run_loop.md R200) -/
  | run (input output : PcmBuffer) (frames : Nat)
  /-- the release of the instance, "destruction frees it" (45_host_interface.md R230) -/
  | release
  deriving DecidableEq, Repr

/-- A call in the host's queue.  `overlaps` says that the host makes it without waiting for the
call before it to finish (45_host_interface.md R232; logs 6 and 29). -/
structure HostCall where
  op : HostOp
  overlaps : Bool
  deriving DecidableEq, Repr

/-- What a finished call returned (45_host_interface.md R230). -/
inductive HostResult where
  /-- `new` gave an instance -/
  | constructed
  /-- `new` gave `ConstructionFailed` (60_exceptions.md R251) -/
  | constructionFailed
  /-- a call with no result -/
  | returned
  /-- the string of `program_name` -/
  | name (n : ProgramName)
  deriving DecidableEq, Repr

/-- Whether there is an instance for a call to apply to. -/
inductive Status where
  | live
  /-- the last `new` failed: "the engine is not usable" (60_exceptions.md R251) -/
  | constructionFailed
  /-- the host released it: "no operation applies" (45_host_interface.md R230) -/
  | released
  deriving DecidableEq, Repr

/-- The `run` call in progress: its operands and the index `i` of the first frame of the pair in
progress (44_run_loop.md R201). -/
structure RunCall where
  input : PcmBuffer
  output : PcmBuffer
  frames : Nat
  i : Nat
  deriving DecidableEq, Repr, Inhabited

/-- Where the machine is between two steps (44_run_loop.md R201, 92_eei_decisions.md D1). -/
inductive Phase where
  /-- no call in progress -/
  | idle
  /-- at the head of the pair that starts at frame `c.i` -/
  | pairStart (c : RunCall)
  /-- in the pair's invocation, before the opcode that `State.stepIdx` names -/
  | engine (c : RunCall)
  /-- after the pair's invocation, before its output is written -/
  | pairEnd (c : RunCall)
  deriving DecidableEq, Repr

/-- Why the machine stops with a fault: where the spec calls the behaviour undefined
(60_exceptions.md R253, R254).  No instruction raises one. -/
inductive Fault where
  /-- A filter configuration outside its bounds, with the offending rate; raised by
  `set_sample_rate` (45_host_interface.md R233).  Safe: the hardware goes on, the model stops. -/
  | svfDomain (sr : Fp)
  /-- A filter output that does not fit `dsp_in`, with the frame index and the output; raised at a
  pair of `run` (43_fixed_point_scaler.md R182).  Safe: the hardware goes on, the model stops. -/
  | dspInRange (frame : Nat) (lp1 : Fp)
  deriving DecidableEq, Repr

/-- Why the machine has no meaning for a request (60_exceptions.md R253, R255).  No instruction
raises one. -/
inductive Refusal where
  /-- An instruction with no meaning yet, by its mnemonic; raised by no arm of `exec`, since all four
  instructions are modelled.  Safe. -/
  | notModelled (mnemonic : String)
  /-- `run` with buffers that overlap, are too short or are no int16 arrays; raised where the call
  begins (44_run_loop.md R200).  Safe: the model stops. -/
  | hostContract (op : HostOp)
  /-- A second call while one is in progress; raised at any step of the one in progress, its first
  one included (45_host_interface.md R232; log 29).  Safe: the model stops. -/
  | concurrency (op : HostOp)
  /-- A call other than `new` where there is no instance; raised where the call begins
  (60_exceptions.md R251, 45_host_interface.md R230; log 16).  Safe: the model stops. -/
  | noInstance (op : HostOp)
  deriving DecidableEq, Repr

/-- The sticky fault or refusal mark of an instance (10_state.md R31, 60_exceptions.md R254, R255;
log 20). -/
inductive Mark where
  | clear
  | faulted (f : Fault)
  | refused (r : Refusal)
  deriving DecidableEq, Repr

/-- One engine instance and the host side that drives it.  INVENTORY.md lists each field with the
rule that names it and its reset value. -/
structure State where
  /-- the ROM, a parameter: no step writes it (20_memory.md R61, R62) -/
  rom : Memory 16
  /-- `SVF_FP`, a parameter: no step writes it (00_scope.md R7) -/
  fp : FpFormat
  /-- `scratch_ok` (10_state.md R30) -/
  scratchOk : Bool
  /-- `acc` (10_state.md R20) -/
  acc : Word
  /-- `li` (10_state.md R21) -/
  li : Word
  /-- `ai` (10_state.md R22) -/
  ai : Word
  /-- `ptr` (10_state.md R23) -/
  ptr : ScratchAddr
  /-- the step index `s`, the engine's program counter (10_state.md R24; log 4) -/
  stepIdx : StepIndex
  /-- the operand `dsp_in` of the last invocation begun (42_dsp_engine.md R140; log 4) -/
  dspIn : Word
  /-- `out_L` (10_state.md R25; log 3) -/
  outL : Word
  /-- `out_R` (10_state.md R25; log 3) -/
  outR : Word
  /-- `prog_index` (10_state.md R26) -/
  progIndex : ProgIndex
  /-- `base_offset` (10_state.md R26) -/
  baseOffset : RomAddr
  /-- filter stage 1 (10_state.md R27, R28) -/
  svf1 : SvfStage
  /-- filter stage 2 (10_state.md R27, R28) -/
  svf2 : SvfStage
  /-- the scratch RAM (10_state.md R29) -/
  ram : Memory 16
  /-- the sticky mark (10_state.md R31) -/
  mark : Mark
  /-- whether the instance exists (60_exceptions.md R251) -/
  status : Status
  /-- where the run loop is (44_run_loop.md R201) -/
  phase : Phase
  /-- the host's calls not yet begun, in call order (45_host_interface.md R231; log 6) -/
  calls : List HostCall
  /-- what the last finished call returned (log 6) -/
  result : HostResult
  /-- the host memory that holds the PCM buffers (20_memory.md R65; log 7) -/
  host : Memory 8
  /-- the model's own: how many constructions were drawn (60_exceptions.md R251; log 14) -/
  draws : Nat
  deriving DecidableEq, Repr

/-- The instance that a successful `new()` gives under the parameters `ROM`, `SVF_FP` and
`SCRATCH_OK` (70_reset_and_hazards.md R280). -/
def State.boot (rom : Memory 16) (fp : FpFormat) (scratchOk : Bool) : State where
  rom := rom
  fp := fp
  scratchOk := scratchOk
  acc := 0
  li := 0
  ai := 0
  ptr := 0
  stepIdx := 0
  dspIn := 0
  outL := 0
  outR := 0
  progIndex := 0
  baseOffset := 0
  svf1 := svfConfigured fp stage1 (fp.ofNat defaultRate)
  svf2 := svfConfigured fp stage2 (fp.ofNat defaultRate)
  ram := []
  mark := .clear
  status := .live
  phase := .idle
  calls := []
  result := .constructed
  host := []
  draws := 0

/-- The machine right after reset: `new()` succeeded and no call is made yet.  The ROM lists nothing
(log 1), the format is the opaque parameter (log 9) and the scratch RAM exists (log 17). -/
def State.reset : State := State.boot [] Config.svfFormat true

end Sys2Proof.Machine
end

