-- ==== Sys2Proof/Machine/Ops.lean ====
section
/-! DEFINITION. The shared operations: integer arithmetic of the engine, the named updates of State,
and the common tail of every instruction (42_dsp_engine.md R147 to R157).  The hardware has no
exception entry and no return from one (60_exceptions.md R258, R259), so there is none here. -/

namespace Sys2Proof.Machine

/-- The outcome of a step. -/
abbrev StepOutcome := Host.Outcome State Fault Refusal

/-- Go on with the next state; a fault or a refusal ends. -/
def andThen (o : StepOutcome) (k : State → StepOutcome) : StepOutcome :=
  match o with
  | .next t => k t
  | .fault r => .fault r
  | .refused r => .refused r

/-! ### Integer arithmetic -/

/-- The `int16` congruent to `n` modulo 2^16 (42_dsp_engine.md R156; log 19). -/
def wrap16 (n : Int) : Word := BitVec.ofInt 16 n

/-- Arithmetic shift right by one, bit 15 replicated (42_dsp_engine.md R155). -/
def asr1 (v : Word) : Word := v.sshiftRight 1

/-- `lo` if `v < lo`, `hi` if `v > hi`, otherwise `v` (00_scope.md R9). -/
def clamp (v lo hi : Int) : Int := if v < lo then lo else if hi < v then hi else v

/-- `ai` after the clamp (42_dsp_engine.md R147). -/
def clampWord (v : Word) : Word := wrap16 (clamp v.toInt (-aiLimit) aiLimit)

/-! ### Named updates of State -/

/-- Write `ai` and `li`. -/
def State.setLatches (s : State) (ai li : Word) : State := { s with ai := ai, li := li }

/-- Write `ai`. -/
def State.setAi (s : State) (ai : Word) : State := { s with ai := ai }

/-- Write `acc`. -/
def State.setAcc (s : State) (acc : Word) : State := { s with acc := acc }

/-- Write `out_L`. -/
def State.setOutL (s : State) (v : Word) : State := { s with outL := v }

/-- Write `out_R`. -/
def State.setOutR (s : State) (v : Word) : State := { s with outR := v }

/-- `RamRead(a)`: no side effect (20_memory.md R63). -/
def State.ramRead (s : State) (a : ScratchAddr) : Word := s.ram.read a.toNat

/-- `RamWrite(a, v)`: changes no other word (20_memory.md R63). -/
def State.ramWrite (s : State) (a : ScratchAddr) (v : Word) : State :=
  { s with ram := s.ram.write a.toNat v }

/-- The invocation ends after step 127; until then it goes on (42_dsp_engine.md R140). -/
def Phase.afterStep (p : Phase) (k : StepIndex) : Phase :=
  if k = lastStep then
    match p with
    | .engine c => .pairEnd c
    | other => other
  else p

/-- The end of a step: `ptr <- (ptr + delta) & 0x3FFF` (42_dsp_engine.md R152), and the step index
moves on by one, from 127 to 0 (10_state.md R24; log 4). -/
def State.advance (s : State) (delta : ScratchAddr) : State :=
  { s with
    ptr := s.ptr + delta
    stepIdx := s.stepIdx + 1
    phase := s.phase.afterStep s.stepIdx }

/-- Write the program selection (10_state.md R26). -/
def State.setSelection (s : State) (index : ProgIndex) (base : RomAddr) : State :=
  { s with progIndex := index, baseOffset := base }

/-- Write both filter stages. -/
def State.setFilters (s : State) (a b : SvfStage) : State := { s with svf1 := a, svf2 := b }

/-- Begin an invocation with operand `dsp_in`: step 0 is next (42_dsp_engine.md R140). -/
def State.beginInvocation (s : State) (d : Word) (c : RunCall) : State :=
  { s with dspIn := d, stepIdx := 0, phase := .engine c }

/-- Move the run loop. -/
def State.setPhase (s : State) (p : Phase) : State := { s with phase := p }

/-- A call has finished with a result; none is in progress. -/
def State.finishCall (s : State) (r : HostResult) : State := { s with phase := .idle, result := r }

/-- Host memory changes. -/
def State.setHost (s : State) (m : Memory 8) : State := { s with host := m }

/-! ### The common tail of every instruction -/

/-- The clamp of `ai`, after the class action (42_dsp_engine.md R147). -/
def State.clampAi (s : State) : State := s.setAi (clampWord s.ai)

/-- The step-indexed effect (42_dsp_engine.md R148 to R151): exactly one of the four. -/
def State.hook (s : State) : State :=
  if s.stepIdx = inputStep then s.ramWrite s.ptr s.dspIn
  else if s.stepIdx = rightStep then s.setOutR s.ai
  else if s.stepIdx = leftStep then s.setOutL s.ai
  else s.setAcc s.li

/-- Clamp, hook, pointer advance: the same for every class (30_encoding.md R84, 20_memory.md R70). -/
def State.finishStep (s : State) (delta : ScratchAddr) : State := (s.clampAi.hook).advance delta

/-! ### Host PCM buffers (20_memory.md R65) -/

/-- `PcmRead(buf, j)`: the sample at byte offsets `2j` and `2j + 1`, least significant byte first. -/
def pcmRead (m : Memory 8) (b : PcmBuffer) (j : Nat) : Word :=
  m.read (b.base + 2 * j + 1) ++ m.read (b.base + 2 * j)

/-- `PcmWrite(buf, j, v)`. -/
def pcmWrite (m : Memory 8) (b : PcmBuffer) (j : Nat) (v : Word) : Memory 8 :=
  (m.write (b.base + 2 * j) (v.extractLsb' 0 8)).write (b.base + 2 * j + 1) (v.extractLsb' 8 8)

end Sys2Proof.Machine
end

