-- ==== Sys2Proof/Machine/Operands.lean ====
section
/-! DEFINITION. The operands: the one addressing mode of the scratch RAM (42_dsp_engine.md R142)
and the instruction fetch (R141). -/

namespace Sys2Proof.Machine

/-- `mem`: the scratch word at `ptr`, read at the start of the step (42_dsp_engine.md R142,
20_memory.md R64). -/
def State.mem (s : State) : Word := s.ramRead s.ptr

/-- The fetch address `base_offset + s` (42_dsp_engine.md R141).  Where `base_offset` is a program's
base the sum is below 8192 and no wrap occurs (log 21). -/
def State.fetchAddr (s : State) : RomAddr := s.baseOffset + s.stepIdx.setWidth 13

/-- `op <- RomRead(base_offset + s)`: one 16-bit word, no side effect (42_dsp_engine.md R141,
20_memory.md R62). -/
def State.fetchWord (s : State) : Word := s.rom.read s.fetchAddr.toNat

/-- The instruction of the current step. -/
def State.fetchInstr (s : State) : Instr := decodeWord s.fetchWord

end Sys2Proof.Machine
end

