-- ==== Sys2Proof/Machine/Engine.lean ====
section
/-! DEFINITION. The meanings of the four instructions (42_dsp_engine.md R143 to R146): the class
action, then the common tail of R147 to R152.  No instruction faults or refuses (R158). -/

namespace Sys2Proof.Machine

/-- `RDA delta` (42_dsp_engine.md R143): `ai <- mem; li <- wrap16(acc + asr1(ai))`, with `ai` not yet
clamped. -/
def execRda (delta : ScratchAddr) (s : State) : StepOutcome :=
  let ai := s.mem
  let li := wrap16 (s.acc.toInt + (asr1 ai).toInt)
  .next ((s.setLatches ai li).finishStep delta)

/-- `RDL delta` (42_dsp_engine.md R144): `ai <- mem; li <- asr1(ai)`. -/
def execRdl (delta : ScratchAddr) (s : State) : StepOutcome :=
  let ai := s.mem
  let li := asr1 ai
  .next ((s.setLatches ai li).finishStep delta)

/-- `WRA delta` (42_dsp_engine.md R145): `ai <- acc; RAM[ptr] <- ai; li <- wrap16(acc + asr1(ai))`,
the unclamped `acc` being stored. -/
def execWra (delta : ScratchAddr) (s : State) : StepOutcome :=
  let ai := s.acc
  let li := wrap16 (s.acc.toInt + (asr1 ai).toInt)
  .next (((s.setLatches ai li).ramWrite s.ptr ai).finishStep delta)

/-- `WRN delta` (42_dsp_engine.md R146): `ai <- acc; RAM[ptr] <- wrap16(-ai); li <- -asr1(ai)`. -/
def execWrn (delta : ScratchAddr) (s : State) : StepOutcome :=
  let ai := s.acc
  let li := wrap16 (-(asr1 ai).toInt)
  .next (((s.setLatches ai li).ramWrite s.ptr (wrap16 (-ai.toInt))).finishStep delta)

end Sys2Proof.Machine
end

