-- ==== Sys2Proof/Machine/Dispatch.lean ====
section
/-! DEFINITION. The meaning of an instruction: one arm per constructor. -/

namespace Sys2Proof.Machine

def exec (i : Instr) (s : State) : Host.Outcome State Fault Refusal :=
  match i with
  | .rda delta => Sys2Proof.Machine.execRda delta s
  | .rdl delta => Sys2Proof.Machine.execRdl delta s
  | .wra delta => Sys2Proof.Machine.execWra delta s
  | .wrn delta => Sys2Proof.Machine.execWrn delta s

end Sys2Proof.Machine
end

