-- ==== Sys2Proof/Machine/Scaler.lean ====
section
/-! DEFINITION. The four conversions of the fixed-point scaler (43_fixed_point_scaler.md R180 to
R183). -/

namespace Sys2Proof.Machine

/-- PCM to float: `fp(v / 32768)` (43_fixed_point_scaler.md R180). -/
def pcmToFp (f : FpFormat) (v : Word) : Fp := f.div (f.ofInt v.toInt) (f.ofNat pcmScale)

/-- Mono sum: `fp((inL + inR) / 2)` (43_fixed_point_scaler.md R181). -/
def monoSum (f : FpFormat) (inL inR : Fp) : Fp := f.div (f.add inL inR) (f.ofNat 2)

/-- Float to engine input: `trunc(fp(lp1 * 2048))` where it is within ±32767; none where it is not
or the product is not finite (43_fixed_point_scaler.md R182). -/
def toDspIn (f : FpFormat) (lp1 : Fp) : Option Word :=
  match (f.mul lp1 (f.ofNat engineInScale)).trunc with
  | some n => if -dspInLimit ≤ n ∧ n ≤ dspInLimit then some (wrap16 n) else none
  | none => none

/-- Engine output to PCM: `out · 16` (43_fixed_point_scaler.md R183).  It wraps only for an output
outside ±2047, which no invocation gives (log 21). -/
def toPcm (out : Word) : Word := wrap16 (out.toInt * engineOutScale)

end Sys2Proof.Machine
end

