-- ==== Sys2Proof/Machine/RunLoop.lean ====
section
/-! DEFINITION. The run loop, as micro-steps: the beginning of a call, the head of a pair, the end of
a pair (44_run_loop.md R200 to R205, 92_eei_decisions.md D1; log 5). -/

namespace Sys2Proof.Machine

/-- A whole array of `int16` samples that holds at least `2 · frames` of them
(44_run_loop.md R200, 20_memory.md R68; log 8). -/
def PcmBuffer.holds (b : PcmBuffer) (frames : Nat) : Bool :=
  decide (b.base % 2 = 0) && decide (b.bytes % 2 = 0) && decide (2 * frames ≤ b.bytes / 2)

/-- No byte belongs to both buffers.  DESIGN CHOICE (log 8): a buffer of no bytes overlaps nothing,
wherever it starts. -/
def PcmBuffer.disjoint (a b : PcmBuffer) : Bool :=
  decide (a.bytes = 0) || decide (b.bytes = 0) || decide (a.base + a.bytes ≤ b.base)
    || decide (b.base + b.bytes ≤ a.base)

/-- The host contract of `run`: distinct, non-overlapping, long enough buffers of whole samples
(44_run_loop.md R200; log 8). -/
def RunCall.contract (c : RunCall) : Bool :=
  c.input.holds c.frames && c.output.holds c.frames && decide (c.input ≠ c.output)
    && c.input.disjoint c.output

/-- The beginning of `run(input, output, frames)`: the refusal is decided first, then a missing
scratch RAM ends the call with nothing changed (44_run_loop.md R200, 60_exceptions.md R257), then a
call of no frames ends (R206); otherwise the pair of frame 0 is next. -/
def beginRun (input output : PcmBuffer) (frames : Nat) (s : State) : StepOutcome :=
  if RunCall.contract ⟨input, output, frames, 0⟩ then
    if s.scratchOk then
      if frames = 0 then .next (s.finishCall .returned)
      else .next (s.setPhase (.pairStart ⟨input, output, frames, 0⟩))
    else .next (s.finishCall .returned)
  else .refused (.hostContract (.run input output frames))

/-- The mono float sample of frame `k` (44_run_loop.md R202). -/
def monoFrame (s : State) (b : PcmBuffer) (k : Nat) : Fp :=
  monoSum s.fp (pcmToFp s.fp (pcmRead s.host b (2 * k))) (pcmToFp s.fp (pcmRead s.host b (2 * k + 1)))

/-- Frame `k` through the cascade: its output and the state with both stages advanced
(44_run_loop.md R202, 40_svf.md R105). -/
def filterFrame (s : State) (b : PcmBuffer) (k : Nat) : Fp × State :=
  let r := cascade s.fp s.svf1 s.svf2 (monoFrame s b k)
  (r.1, s.setFilters r.2.1 r.2.2)

/-- The second frame of the pair, where there is one, advances the filters and its output is
discarded (44_run_loop.md R203, 10_state.md R37). -/
def filterSecond (s : State) (c : RunCall) : State :=
  if c.i + 1 < c.frames then (filterFrame s c.input (c.i + 1)).2 else s

/-- The head of a pair: both frames are filtered, the first one's output becomes `dsp_in`, and the
invocation begins (44_run_loop.md R202 to R204).  A `dsp_in` out of range faults with the frame
index and the output (43_fixed_point_scaler.md R182, 60_exceptions.md R253). -/
def startPair (c : RunCall) (s : State) : StepOutcome :=
  let first := filterFrame s c.input c.i
  let t := filterSecond first.2 c
  match toDspIn s.fp first.1 with
  | some d => .next (t.beginInvocation d c)
  | none => .fault (.dspInRange c.i first.1)

/-- Output frame `k` of the buffer: left sample first (44_run_loop.md R205). -/
def writeFrame (m : Memory 8) (b : PcmBuffer) (k : Nat) (left right : Word) : Memory 8 :=
  pcmWrite (pcmWrite m b (2 * k) left) b (2 * k + 1) right

/-- Host memory after the pair's output: frame `i`, and frame `i + 1` where it exists
(44_run_loop.md R205). -/
def pairOutput (c : RunCall) (s : State) : Memory 8 :=
  let m := writeFrame s.host c.output c.i (toPcm s.outL) (toPcm s.outR)
  if c.i + 1 < c.frames then writeFrame m c.output (c.i + 1) (toPcm s.outL) (toPcm s.outR) else m

/-- The end of a pair: the output is written and held, and the next pair or the end of the call
follows (44_run_loop.md R201, R205). -/
def endPair (c : RunCall) (s : State) : StepOutcome :=
  let t := s.setHost (pairOutput c s)
  if c.i + 2 < c.frames then .next (t.setPhase (.pairStart { c with i := c.i + 2 }))
  else .next (t.finishCall .returned)

end Sys2Proof.Machine
end

