-- ==== Sys2Proof/Machine/Selector.lean ====
section
/-! DEFINITION. The program selector (41_program_selector.md R130 to R133) and the external formats
of its tables (20_memory.md R66). -/

namespace Sys2Proof.Machine

/-- `i & 0x3F` (41_program_selector.md R130). -/
def normalIndex (i : BitVec 8) : ProgIndex := (i &&& indexMask).setWidth 6

/-- `index << 7` (41_program_selector.md R130). -/
def baseOf (p : ProgIndex) : RomAddr := p.setWidth 13 <<< 7

/-- `set_program(i)`: never fails, writes the selection pair and nothing else
(41_program_selector.md R130, R131). -/
def setProgram (i : BitVec 8) (s : State) : State :=
  s.setSelection (normalIndex i) (baseOf (normalIndex i))

/-- `program_name(i)`: `NAMES(i & 0x3F)` (41_program_selector.md R133). -/
def programName (i : BitVec 8) : ProgramName := Config.programNames (normalIndex i)

/-- The ASCII codes of a name, its NUL terminator excluded (20_memory.md R66). -/
def nameBytes (n : ProgramName) : List Byte :=
  (n.first :: n.rest).map fun k => BitVec.ofNat 8 (k.val + 1)

/-- The bytes of a NUL-terminated string before its first NUL (20_memory.md R66). -/
def untilNul : List Byte → List Byte
  | [] => []
  | b :: rest => if b = 0 then [] else b :: untilNul rest

/-- The words of a ROM image, each from its two bytes, least significant first (20_memory.md R66). -/
def imageWords : List Byte → List Word
  | lo :: hi :: rest => wordOfBytes lo hi :: imageWords rest
  | _ => []

/-- The ROM that an image of 8192 words stands for, word `a` at address `a` (20_memory.md R61, R66).
Words beyond the ROM are not part of it. -/
def romOfImage (image : List Byte) : Memory 16 :=
  Memory.ofCells 0 ((imageWords image).take romWords)

/-- The bytes of the ROM image as a list of words gives them (20_memory.md R66). -/
def wordImage : List Word → List Byte
  | [] => []
  | w :: rest => w.extractLsb' 0 8 :: w.extractLsb' 8 8 :: wordImage rest

end Sys2Proof.Machine
end

