-- ==== Sys2Proof/Machine/HostCalls.lean ====
section
/-! DEFINITION. The host calls (45_host_interface.md R230): `new`, `set_sample_rate`, the beginning
of any call, and the calls that overlap the one in progress. -/

namespace Sys2Proof.Machine

/-- `set_sample_rate(sr)`: the domain is tested for both stages before either is written, then both
are configured and zeroed (45_host_interface.md R233, R234).  Nothing else changes. -/
def setSampleRate (sr : Fp) (s : State) : StepOutcome :=
  if sr.isFinite && sr.exceeds minRate then
    match svfSet s.fp stage1 sr, svfSet s.fp stage2 sr with
    | .ok a, .ok b => .next (s.setFilters a b)
    | .error r, _ => .fault (.svfDomain r)
    | .ok _, .error r => .fault (.svfDomain r)
  else .fault (.svfDomain sr)

/-- The instance that a successful `new()` gives under the state's parameters; the host side goes on
(70_reset_and_hazards.md R280; log 15). -/
def State.renew (s : State) : State :=
  { State.boot s.rom s.fp s.scratchOk with calls := s.calls, host := s.host, draws := s.draws }

/-- `new()`: an instance or `ConstructionFailed`, by a draw that no state determines
(60_exceptions.md R251; log 14).  DESIGN CHOICE (log 14): every instance reads the one sequence of
draws by its own counter, so two instances of a bank with equal counters draw the same outcome; the
spec says nothing of how the draws of different instances are related. -/
def newInstance (s : State) : State :=
  let t := { s with draws := s.draws + 1 }
  if Config.constructionFails s.draws then
    { t with status := .constructionFailed, result := .constructionFailed }
  else t.renew

/-- The beginning of a call on a live instance (45_host_interface.md R230). -/
def callLive (op : HostOp) (s : State) : StepOutcome :=
  match op with
  | .new => .next (newInstance s)
  | .setSampleRate sr => andThen (setSampleRate sr s) fun t => .next (t.finishCall .returned)
  | .setProgram i => .next ((setProgram i s).finishCall .returned)
  | .programName i => .next (s.finishCall (.name (programName i)))
  | .run input output frames => beginRun input output frames s
  | .release => .next { s with status := .released, result := .returned }

/-- The beginning of a call: with no instance, only `new` applies (60_exceptions.md R251,
45_host_interface.md R230; log 16). -/
def beginCall (op : HostOp) (s : State) : StepOutcome :=
  match s.status, op with
  | .live, op => callLive op s
  | _, .new => .next (newInstance s)
  | _, op => .refused (.noInstance op)

/-- A call is in progress, and `o` is what it makes of this step: a call that the host makes meanwhile
is refused, otherwise `o` stands (45_host_interface.md R232, 60_exceptions.md R257).  DESIGN CHOICE
(log 29): the overlap is looked at before everything else, so that a `run` call that overlaps and
breaks its buffer contract is refused as `concurrency`. -/
def whileBusy (s : State) (o : StepOutcome) : StepOutcome :=
  match s.calls with
  | [] => o
  | c :: _ => if c.overlaps then .refused (.concurrency c.op) else o

/-- The idle machine: it takes the host's next call, in call order, and with no call pending it holds
its state (45_host_interface.md R231, 60_exceptions.md R266; log 6).  The call it takes is in
progress in this step, be it the call's only one, so that a call that overlaps it is refused
(R232). -/
def serveCall (s : State) : StepOutcome :=
  match s.calls with
  | [] => .next s
  | c :: rest =>
    let t := { s with calls := rest }
    whileBusy t (beginCall c.op t)

end Sys2Proof.Machine
end

