-- ==== Sys2Proof/Machine/Step.lean ====
section
/-! DEFINITION. One step of the machine (44_run_loop.md R201, 92_eei_decisions.md D1; log 5). -/

namespace Sys2Proof.Machine

/-- One step.  A marked instance stays as it is marked (60_exceptions.md R254, R255).  DESIGN CHOICE
(log 30): the mark is the State's, so that a queued `new` is answered with it too, also where the mark
is that of `noInstance`; a new instance with a clear mark is another State.  An idle
machine serves the host's next call; one with a call in progress makes the next micro-step of
44_run_loop.md R201, which in an invocation is the one opcode that the step index names. -/
def step (s : State) : Host.Outcome State Fault Refusal :=
  match s.mark with
  | .faulted r => .fault r
  | .refused r => .refused r
  | .clear =>
    match s.phase with
    | .idle => serveCall s
    | .pairStart c => whileBusy s (startPair c s)
    | .engine _ => whileBusy s (exec s.fetchInstr s)
    | .pairEnd c => whileBusy s (endPair c s)

/-- The call that `withFetchWord` takes to be in progress where none is: one frame, with two
buffers that meet the contract (log 2). -/
def loadedCall : RunCall := ⟨⟨0, 4⟩, ⟨4, 4⟩, 1, 0⟩

/-- The machine with a word of `nbits` bits stored where the next step fetches.  Where no invocation
is in progress, one is, at the step the step index names; a mark, a missing instance or an
overlapping call that would keep the step from fetching is taken away (log 2). -/
def State.withFetchWord (s : State) (nbits w : Nat) : State :=
  { s with
    rom := s.rom.write s.fetchAddr.toNat (BitVec.ofNat 16 (w % 2 ^ nbits))
    mark := .clear
    status := .live
    phase :=
      match s.phase with
      | .engine c => .engine c
      | _ => .engine loadedCall
    calls := s.calls.dropWhile fun c => c.overlaps }

end Sys2Proof.Machine
end

