-- ==== Sys2Proof/WellFormed.lean ====
section
/-! DEFINITION. Which syntax is well formed. -/

namespace Sys2Proof

/-- Every instruction is well formed: `delta` is a `uint14` by its type and no value of it is
reserved (30_encoding.md R82, R85). -/
def Instr.wf : Instr → Bool
  | .rda _ => true
  | .rdl _ => true
  | .wra _ => true
  | .wrn _ => true

/-- A program is a sequence of exactly 128 instructions (30_encoding.md R87, 20_memory.md R61). -/
def programWf (p : List Instr) : Bool :=
  p.length == 128 && p.all Instr.wf

end Sys2Proof
end

