-- ==== Sys2Proof/Machine/Assembler.lean ====
section
/-! DEFINITION. The assembler syntax of 30_encoding.md R87 to R89, as abstract syntax (log 26): the
spec's own choice, with no semantic effect (92_eei_decisions.md D3). -/

namespace Sys2Proof.Machine

/-- The four mnemonics (30_encoding.md R87). -/
inductive Mnemonic where
  | rda
  | rdl
  | wra
  | wrn
  deriving DecidableEq, Repr

/-- A spelling of `delta`: an unsigned number, decimal or hexadecimal (30_encoding.md R87), or `-k`
(R88). -/
inductive DeltaSpelling where
  | unsigned (n : Nat)
  | minus (k : Nat)
  deriving DecidableEq, Repr

/-- A listing line `N × MNEMONIC delta`, `N = 1` where it is not written (30_encoding.md R89). -/
structure AsmLine where
  count : Nat
  mnemonic : Mnemonic
  delta : DeltaSpelling
  deriving DecidableEq, Repr

/-- The delta that a spelling means: `-k` with `1 ≤ k ≤ 16383` means `16384 - k`
(30_encoding.md R87, R88). -/
def DeltaSpelling.meaning : DeltaSpelling → Option ScratchAddr
  | .unsigned n => if n ≤ 16383 then some (BitVec.ofNat 14 n) else none
  | .minus k => if 1 ≤ k ∧ k ≤ 16383 then some (BitVec.ofNat 14 (16384 - k)) else none

/-- The instruction of a mnemonic and a delta. -/
def Mnemonic.instr : Mnemonic → ScratchAddr → Instr
  | .rda, d => .rda d
  | .rdl, d => .rdl d
  | .wra, d => .wra d
  | .wrn, d => .wrn d

/-- The instructions a line stands for: `N` consecutive identical ones (30_encoding.md R89). -/
def AsmLine.expand (l : AsmLine) : Option (List Instr) :=
  l.delta.meaning.map fun d => List.replicate l.count (l.mnemonic.instr d)

/-- The instructions of a listing, its lines in order. -/
def expandListing : List AsmLine → Option (List Instr)
  | [] => some []
  | l :: rest =>
    match l.expand, expandListing rest with
    | some a, some b => some (a ++ b)
    | _, _ => none

/-- The words of a program: none for a listing that does not give exactly 128 instructions
(30_encoding.md R87). -/
def assemble (listing : List AsmLine) : Option (List Word) :=
  match expandListing listing with
  | some p => if programWf p then some (p.map encode) else none
  | none => none

/-- A delta spelled in decimal, the one spelling every delta has (30_encoding.md R87). -/
def disassemble (op : Word) : AsmLine :=
  match decodeWord op with
  | .rda d => ⟨1, .rda, .unsigned d.toNat⟩
  | .rdl d => ⟨1, .rdl, .unsigned d.toNat⟩
  | .wra d => ⟨1, .wra, .unsigned d.toNat⟩
  | .wrn d => ⟨1, .wrn, .unsigned d.toNat⟩

end Sys2Proof.Machine
end

