-- ==== Sys2Proof/Machine/SvfExact.lean ====
section
/-! DEFINITION. The exact reading of one filter step, over the rationals (40_svf.md section 3: "a
check" to the reader, no rule of the model's values).  `Fp.value?` relates a datum to it. -/

namespace Sys2Proof

/-- The exact value of a finite datum. -/
def Fp.value? : Fp → Option ℚ
  | .finite neg m e => some ((signedMant neg m : ℚ) * (2 : ℚ) ^ e)
  | _ => none

namespace Machine

/-- A filter stage in exact arithmetic. -/
structure ExactStage where
  c1 : ℚ
  c2 : ℚ
  d0 : ℚ
  z1 : ℚ
  z2 : ℚ
  deriving DecidableEq, Repr

/-- 40_svf.md R103 in exact arithmetic: the output and the stage after it. -/
def exactStep (st : ExactStage) (x : ℚ) : ℚ × ExactStage :=
  let t := x - st.z1 - st.z2
  let z2 := st.z2 + st.c2 * st.z1
  let z1 := st.z1 + st.c1 * t
  (st.d0 * t + z2, { st with z1 := z1, z2 := z2 })

end Machine

end Sys2Proof
end

