-- ==== Sys2Proof/Machine/Instances.lean ====
section
/-! DEFINITION. Several independent instances, one of which steps at a time, and the sticky marks
(45_host_interface.md R235, 60_exceptions.md R254, R255, R264; logs 20 and 28). -/

namespace Sys2Proof.Machine

/-- The instance after an outcome: the next state, or the same state with its mark set. -/
def State.settle (s : State) : StepOutcome → State
  | .next t => t
  | .fault r => { s with mark := .faulted r }
  | .refused r => { s with mark := .refused r }

/-- One step of the `k`-th instance; where there is none nothing happens. -/
def stepInstance (bank : List State) (k : Nat) : List State :=
  match bank[k]? with
  | some s => bank.set k (s.settle (step s))
  | none => bank

end Sys2Proof.Machine
end

