-- ==== Sys2Proof/Machine/Transaction.lean ====
section
/-! DEFINITION. The operations as the spec writes them, each in one piece: an invocation
(42_dsp_engine.md R140) and a whole `run` call (44_run_loop.md R201).  `step` makes the same
computation in micro-steps. -/

namespace Sys2Proof.Machine

/-- `n` opcode steps, each the opcode that the step index names (42_dsp_engine.md R153). -/
def engineSteps : Nat → State → StepOutcome
  | 0, s => .next s
  | n + 1, s => andThen (exec s.fetchInstr s) (engineSteps n)

/-- `DspInvoke(dsp_in)`: steps 0 to 127 of the selected program; the result is left in `out_L` and
`out_R` (42_dsp_engine.md R140). -/
def dspInvoke (d : Word) (s : State) : StepOutcome :=
  engineSteps programLength { s with dspIn := d, stepIdx := 0 }

/-- `n` pairs from the one at `c.i` on, each completely before the next (44_run_loop.md R201). -/
def runPairs : Nat → RunCall → State → StepOutcome
  | 0, _, s => .next s
  | n + 1, c, s =>
    andThen (startPair c s) fun t =>
      andThen (engineSteps programLength t) fun u =>
        andThen (endPair c u) (runPairs n { c with i := c.i + 2 })

/-- A whole `run` call on an idle instance with its scratch RAM: `ceil(frames / 2)` pairs
(44_run_loop.md R201, R208). -/
def runCall (input output : PcmBuffer) (frames : Nat) (s : State) : StepOutcome :=
  andThen (beginRun input output frames s) fun t =>
    if s.scratchOk then runPairs ((frames + 1) / 2) ⟨input, output, frames, 0⟩ t else .next t

end Sys2Proof.Machine
end

