-- ==== Sys2Proof/Safety.lean ====
section
/-! DEFINITION. What holds of every instance: the invariants claims use, and what a safe run is. -/

namespace Sys2Proof.Machine

/-- `|v| ≤ 2047` (10_state.md R22, R25). -/
def inEngineRange (v : Word) : Prop := -2047 ≤ v.toInt ∧ v.toInt ≤ 2047

/-- A memory in canonical form with every address below `n`. -/
def memoryOk {w : Nat} (n : Nat) (m : Memory w) : Prop := m.wf ∧ m.below n

/-- What holds of the call in progress: its buffers meet the contract, its frame index is even and
inside the call (44_run_loop.md R200, R201). -/
def callOk (c : RunCall) : Prop := c.contract = true ∧ c.i % 2 = 0 ∧ c.i < c.frames

/-- What holds of the phase: a call in progress is in order, on a live instance that has its scratch
RAM (44_run_loop.md R200). -/
def phaseOk (s : State) : Prop :=
  match s.phase with
  | .idle => True
  | .pairStart c => callOk c ∧ s.scratchOk = true ∧ s.status = .live
  | .engine c => callOk c ∧ s.scratchOk = true ∧ s.status = .live
  | .pairEnd c => callOk c ∧ s.scratchOk = true ∧ s.status = .live

/-- The engine's invariant: memories canonical and inside their spaces, `ai` and the output latches
within ±2047 (10_state.md R22, R25), the base offset that of the selected program (R26), the phase in
order. -/
structure EngineInv (s : State) : Prop where
  rom : memoryOk 8192 s.rom
  ram : memoryOk 16384 s.ram
  host : s.host.wf
  ai : inEngineRange s.ai
  outL : inEngineRange s.outL
  outR : inEngineRange s.outR
  base : s.baseOffset.toNat = 128 * s.progIndex.toNat
  phase : phaseOk s

/-- Every register of a filter stage holds a value of the format (10_state.md R27, R28). -/
structure StageInv (f : FpFormat) (st : SvfStage) : Prop where
  c1 : f.isValue st.c1
  c2 : f.isValue st.c2
  d0 : f.isValue st.d0
  z1 : f.isValue st.z1
  z2 : f.isValue st.z2

/-- The filters' invariant. -/
structure FilterInv (s : State) : Prop where
  stage1 : StageInv s.fp s.svf1
  stage2 : StageInv s.fp s.svf2

/-- `n` steps raise no fault and no refusal: the premise that every claim about an instance takes
(60_exceptions.md R254). -/
def SafeRun (n : Nat) (s : State) : Prop := ∃ t : State, core.run n s = .next t

/-! ### Words that claims are stated in -/

/-- The I/O steps 0, 96 and 112 (00_scope.md, glossary). -/
def isIoStep (k : StepIndex) : Prop := k.toNat = 0 ∨ k.toNat = 96 ∨ k.toNat = 112

/-- What an instruction with delta `d` leaves in the registers, given the `ai` and `li` that its
class action computes, as integers: the clamp (42_dsp_engine.md R147), the output latches (R149, R150), the
accumulator latch (R151), the pointer (R152) and the step index (10_state.md R24). -/
structure StepResult (d : ScratchAddr) (classAi classLi : Int) (s t : State) : Prop where
  ai : t.ai.toInt = max (-2047) (min 2047 classAi)
  li : t.li.toInt = classLi
  accAtIo : isIoStep s.stepIdx → t.acc = s.acc
  accElse : ¬ isIoStep s.stepIdx → t.acc.toInt = classLi
  outR : t.outR = if s.stepIdx.toNat = 96 then t.ai else s.outR
  outL : t.outL = if s.stepIdx.toNat = 112 then t.ai else s.outL
  ptr : t.ptr.toNat = (s.ptr.toNat + d.toNat) % 16384
  stepIdx : t.stepIdx.toNat = (s.stepIdx.toNat + 1) % 128

/-- What no instruction writes: everything but `acc`, `li`, `ai`, `ptr`, the step index, the output
latches, the scratch RAM and the phase. -/
structure EngineFrame (s t : State) : Prop where
  rom : t.rom = s.rom
  fp : t.fp = s.fp
  scratchOk : t.scratchOk = s.scratchOk
  dspIn : t.dspIn = s.dspIn
  progIndex : t.progIndex = s.progIndex
  baseOffset : t.baseOffset = s.baseOffset
  svf1 : t.svf1 = s.svf1
  svf2 : t.svf2 = s.svf2
  mark : t.mark = s.mark
  status : t.status = s.status
  calls : t.calls = s.calls
  result : t.result = s.result
  host : t.host = s.host
  draws : t.draws = s.draws
  phase : s.stepIdx.toNat ≠ 127 → t.phase = s.phase

/-- The host makes no call that overlaps the one in progress. -/
def noOverlap (s : State) : Prop := ∀ c ∈ s.calls.head?, c.overlaps = false

/-- `t` is `s` with its pointer and its scratch RAM moved `k` words up, modulo 16384
(41_program_selector.md R135). -/
structure Rotated (k : ScratchAddr) (s t : State) : Prop where
  ptr : t.ptr = s.ptr + k
  ram : ∀ a : ScratchAddr, t.ramRead (a + k) = s.ramRead a
  rest : { t with ptr := s.ptr, ram := s.ram } = s

/-- Nothing but zeros in the accumulator, the output latches and the scratch RAM
(95_test_vectors.md S15). -/
structure Silent (s : State) : Prop where
  acc : s.acc = 0
  outL : s.outL = 0
  outR : s.outR = 0
  ram : ∀ a : Nat, s.ram.read a = 0

/-- The host's next call, on an unmarked, idle, live instance, with no call that overlaps it. -/
structure NextCall (op : HostOp) (rest : List HostCall) (s : State) : Prop where
  mark : s.mark = .clear
  status : s.status = .live
  phase : s.phase = .idle
  calls : ∃ overlaps, s.calls = ⟨op, overlaps⟩ :: rest
  alone : ∀ c ∈ rest.head?, c.overlaps = false

/-- The six filter coefficients. -/
def coefficients (s : State) : List Fp :=
  [s.svf1.c1, s.svf1.c2, s.svf1.d0, s.svf2.c1, s.svf2.c2, s.svf2.d0]

/-- The four filter delays. -/
def delays (s : State) : List Fp := [s.svf1.z1, s.svf1.z2, s.svf2.z1, s.svf2.z2]

/-- The step begins a construction. -/
def beginsNew (s : State) : Prop := s.phase = .idle ∧ ∃ c rest, s.calls = c :: rest ∧ c.op = .new

/-- The step begins a filter configuration: `new` or `set_sample_rate` (40_svf.md R100). -/
def beginsConfiguration (s : State) : Prop :=
  s.phase = .idle ∧ ∃ c rest, s.calls = c :: rest ∧ (c.op = .new ∨ ∃ sr, c.op = .setSampleRate sr)

/-- Buffers as `run` must be given them (44_run_loop.md R200, 20_memory.md R68; log 8). -/
structure BuffersOk (input output : PcmBuffer) (frames : Nat) : Prop where
  inputEven : input.base % 2 = 0 ∧ input.bytes % 2 = 0
  outputEven : output.base % 2 = 0 ∧ output.bytes % 2 = 0
  inputLong : 4 * frames ≤ input.bytes
  outputLong : 4 * frames ≤ output.bytes
  distinct : input ≠ output
  apart : ∀ a : Nat, ¬ ((input.base ≤ a ∧ a < input.base + input.bytes) ∧
    (output.base ≤ a ∧ a < output.base + output.bytes))

/-! ### Words for the arithmetic of the filters -/

/-- The same format with its subnormals kept (92_eei_decisions.md D25). -/
def keeping (f : FpFormat) : FpFormat := { f with flushSubnormals := false }

/-- A value of the format without its subnormals: one below the smallest normal value becomes a zero
of its sign (92_eei_decisions.md D25; log 11). -/
def flushed (f : FpFormat) : Fp → Fp
  | .finite b m q => if m < 2 ^ (f.precision - 1) then .finite b 0 0 else .finite b m q
  | x => x

/-- `r` is a value of the format, none is nearer to `x`, and its significand, in the one form the
format has for it, is even where another one is equally near (40_svf.md R102). -/
def nearestEven (f : FpFormat) (x : ℚ) (r : Fp) : Prop :=
  f.isValue r ∧ ∃ (b : Bool) (m : Nat) (q : Int) (v : ℚ), r = .finite b m q ∧ r.value? = some v ∧
    ∀ (y : Fp) (w : ℚ), f.isValue y → y.value? = some w →
      |x - v| ≤ |x - w| ∧ (|x - v| = |x - w| → v = w ∨ m % 2 = 0)

/-- `r` is a value of the format, and its exact value is `v`. -/
def holdsExactly (f : FpFormat) (r : Fp) (v : ℚ) : Prop := f.isValue r ∧ r.value? = some v

/-- A stage of values of the format, and the same stage over the rationals. -/
structure StageIsExact (f : FpFormat) (st : SvfStage) (e : ExactStage) : Prop where
  c1 : holdsExactly f st.c1 e.c1
  c2 : holdsExactly f st.c2 e.c2
  d0 : holdsExactly f st.d0 e.d0
  z1 : holdsExactly f st.z1 e.z1
  z2 : holdsExactly f st.z2 e.z2

/-- Every intermediate result of a filter step (40_svf.md R103) is a value of the format, so that no
operation rounds. -/
structure StepNeedsNoRounding (f : FpFormat) (e : ExactStage) (x : ℚ) : Prop where
  difference : ∃ r, holdsExactly f r (x - e.z1)
  t : ∃ r, holdsExactly f r (x - e.z1 - e.z2)
  product2 : ∃ r, holdsExactly f r (e.c2 * e.z1)
  z2 : ∃ r, holdsExactly f r (e.z2 + e.c2 * e.z1)
  product1 : ∃ r, holdsExactly f r (e.c1 * (x - e.z1 - e.z2))
  z1 : ∃ r, holdsExactly f r (e.z1 + e.c1 * (x - e.z1 - e.z2))
  product0 : ∃ r, holdsExactly f r (e.d0 * (x - e.z1 - e.z2))
  y : ∃ r, holdsExactly f r (e.d0 * (x - e.z1 - e.z2) + (e.z2 + e.c2 * e.z1))

end Sys2Proof.Machine
end

