-- ==== Sys2Proof/Certificates/Slice0/Obligations.lean ====
section
/-! DEFINITION. The statements for the provers. -/

open Sys2Proof Sys2Proof.Machine

/-! ### Encoding -/

/-- Decoding the bytes of an instruction gives it back, with every delta, whatever bytes follow
(30_encoding.md R87, R92, 20_memory.md R66). -/
def Obligations.DecodeOfEncodeGivesInstruction : Prop :=
  ∀ i : Instr, i.wf = true → ∀ rest : List Byte, decode (encodeBytes i ++ rest) = .ok (i, rest)

/-- 30_encoding.md R85: each of the 65536 words decodes to one row, chosen by bits 15..14 alone, with
bits 13..0 as its delta, and so does every pair of bytes. -/
def Obligations.EveryWordDecodesToItsRow : Prop :=
  ∀ lo hi : Byte, ∀ rest : List Byte,
    let w := lo.toNat + 256 * hi.toNat
    let d : ScratchAddr := BitVec.ofNat 14 (w % 16384)
    (w / 16384 = 0 → decode (lo :: hi :: rest) = .ok (.rda d, rest)) ∧
    (w / 16384 = 1 → decode (lo :: hi :: rest) = .ok (.rdl d, rest)) ∧
    (w / 16384 = 2 → decode (lo :: hi :: rest) = .ok (.wra d, rest)) ∧
    (w / 16384 = 3 → decode (lo :: hi :: rest) = .ok (.wrn d, rest))

/-- The words of 95_test_vectors.md section 3.1, one or more of each class. -/
def Obligations.SpecWordsDecode : Prop :=
  decodeWord 0x0003#16 = .rda 3 ∧ decodeWord 0x3FFF#16 = .rda 16383 ∧
  decodeWord 0x4010#16 = .rdl 16 ∧ decodeWord 0x7FFE#16 = .rdl 16382 ∧
  decodeWord 0x8020#16 = .wra 32 ∧ decodeWord 0xFFFF#16 = .wrn 16383

/-- Assembling the listing of a program of 128 words gives the words back (30_encoding.md R87). -/
def Obligations.AssembleOfDisassembleGivesWords : Prop :=
  ∀ ws : List Word, ws.length = 128 → assemble (ws.map disassemble) = some ws

/-- 30_encoding.md R88, the spec's own decision D3: `-k` with `1 ≤ k ≤ 16383` means `16384 - k`; by R82 such a delta moves the
pointer back by `k` words. -/
def Obligations.SignedDeltaMovesPointerBack : Prop :=
  (∀ k : Nat, 1 ≤ k → k ≤ 16383 → ∃ d : ScratchAddr,
    (DeltaSpelling.minus k).meaning = some d ∧ d.toNat = 16384 - k ∧
    ∀ (m : Mnemonic) (s : State), ∃ t : State, exec (m.instr d) s = .next t ∧
      t.ptr.toNat = (s.ptr.toNat + 16384 - k) % 16384) ∧
  (DeltaSpelling.minus 2).meaning.map (fun d => encode (.rdl d)) = some 0x7FFE#16

/-! ### The engine -/

/-- 42_dsp_engine.md R141: in an invocation, a step runs the instruction that the ROM holds at
`base_offset + s`, an address of at most 8191, which the spec derives from R24 and R26.  The step is
`exec` of it and nothing more: moving on to the next step is part of every instruction.  (The phase
is log 5.) -/
def Obligations.StepRunsFetchedInstruction : Prop :=
  ∀ (s : State) (c : RunCall), s.mark = .clear → s.phase = .engine c → noOverlap s →
    s.baseOffset.toNat = 128 * s.progIndex.toNat →
    s.baseOffset.toNat + s.stepIdx.toNat ≤ 8191 ∧
    step s = exec (decodeWord (s.rom.read (s.baseOffset.toNat + s.stepIdx.toNat))) s

/-- 42_dsp_engine.md R143, with the tail of R147 to R152: RDA completes in every state.  That an
overflowing sum wraps is the spec's own decision D2 (log 19); that the step index goes from 127 to 0
is the model's choice (log 4). -/
def Obligations.RdaResult : Prop :=
  ∀ (d : ScratchAddr) (s : State), (encode (.rda d)).toNat = d.toNat ∧
    ∃ t : State, exec (.rda d) s = .next t ∧
      StepResult d (s.ram.read s.ptr.toNat).toInt
        ((s.acc.toInt + (s.ram.read s.ptr.toNat).toInt / 2).bmod 65536) s t

/-- 42_dsp_engine.md R144, with the tail of R147 to R152: RDL completes in every state.
That the step index goes from 127 to 0 is the model's choice (log 4); `acc` at the I/O steps and the
floor form of the shift are marked as derived in R151 and R155. -/
def Obligations.RdlResult : Prop :=
  ∀ (d : ScratchAddr) (s : State), (encode (.rdl d)).toNat = 0x4000 + d.toNat ∧
    ∃ t : State, exec (.rdl d) s = .next t ∧
      StepResult d (s.ram.read s.ptr.toNat).toInt ((s.ram.read s.ptr.toNat).toInt / 2) s t

/-- 42_dsp_engine.md R145, with the tail of R147 to R152: WRA completes in every state; the word
stored is the unclamped `acc`, at step 0 replaced by `dsp_in`.  That an overflowing sum wraps is the
spec's own decision D2 (log 19); that the step index goes from 127 to 0 is the model's choice
(log 4). -/
def Obligations.WraResult : Prop :=
  ∀ (d : ScratchAddr) (s : State), (encode (.wra d)).toNat = 0x8000 + d.toNat ∧
    ∃ t : State, exec (.wra d) s = .next t ∧
      StepResult d s.acc.toInt ((s.acc.toInt + s.acc.toInt / 2).bmod 65536) s t ∧
      t.ram.read s.ptr.toNat = if s.stepIdx.toNat = 0 then s.dspIn else s.acc

/-- 42_dsp_engine.md R146, with the tail of R147 to R152: WRN completes in every state; the word
stored is the wrapped negation of the unclamped `acc`, at step 0 replaced by `dsp_in`.  That the
negation of -32768 wraps is the spec's own decision D2 (log 19); that the step index goes from 127
to 0 is the model's choice (log 4). -/
def Obligations.WrnResult : Prop :=
  ∀ (d : ScratchAddr) (s : State), (encode (.wrn d)).toNat = 0xC000 + d.toNat ∧
    ∃ t : State, exec (.wrn d) s = .next t ∧
      StepResult d s.acc.toInt (-(s.acc.toInt / 2)) s t ∧
      (t.ram.read s.ptr.toNat).toInt =
        if s.stepIdx.toNat = 0 then s.dspIn.toInt else (-s.acc.toInt).bmod 65536

/-- The frame of RDA and RDL: they write `acc`, `li`, `ai`, `ptr`, the step index and, at step 96 or
112, an output latch.  They store nothing, so every scratch word is unchanged, but that the input
hook of step 0 stores to the word at `ptr`. -/
def Obligations.ReadingInstructionsFrame : Prop :=
  ∀ (i : Instr) (d : ScratchAddr) (s t : State), i = .rda d ∨ i = .rdl d → exec i s = .next t →
    EngineFrame s t ∧
    (s.stepIdx.toNat ≠ 96 → t.outR = s.outR) ∧ (s.stepIdx.toNat ≠ 112 → t.outL = s.outL) ∧
    ∀ a : Nat, (s.stepIdx.toNat = 0 → a ≠ s.ptr.toNat) → t.ram.read a = s.ram.read a

/-- The frame of WRA and WRN: they write `acc`, `li`, `ai`, `ptr`, the step index, at step 96 or 112 an
output latch, and the one scratch word at the `ptr` of the step's start; every other word is
unchanged. -/
def Obligations.WritingInstructionsFrame : Prop :=
  ∀ (i : Instr) (d : ScratchAddr) (s t : State), i = .wra d ∨ i = .wrn d → exec i s = .next t →
    EngineFrame s t ∧
    (s.stepIdx.toNat ≠ 96 → t.outR = s.outR) ∧ (s.stepIdx.toNat ≠ 112 → t.outL = s.outL) ∧
    ∀ a : Nat, a ≠ s.ptr.toNat → t.ram.read a = s.ram.read a

/-- 42_dsp_engine.md R148: step 0 stores `dsp_in`, unclamped, at the step's address after the class
action, leaves `acc` alone, and a read class gets the word from before. -/
def Obligations.StepZeroStoresInput : Prop :=
  ∀ (i : Instr) (s : State), s.stepIdx = 0 → ∃ t : State, exec i s = .next t ∧
    t.ram.read s.ptr.toNat = s.dspIn ∧ t.acc = s.acc ∧ t.outL = s.outL ∧ t.outR = s.outR ∧
    ((∃ d, i = .rda d ∨ i = .rdl d) →
      t.ai.toInt = max (-2047) (min 2047 (s.ram.read s.ptr.toNat).toInt))

/-- 42_dsp_engine.md R149 and R150: step 96 latches the clamped `ai` into `out_R`, step 112 into
`out_L`; neither writes `acc`. -/
def Obligations.OutputHooksLatchClampedAi : Prop :=
  ∀ (i : Instr) (s : State),
    (s.stepIdx.toNat = 96 → ∃ t : State, exec i s = .next t ∧ t.outR = t.ai ∧
      (-2047 ≤ t.ai.toInt ∧ t.ai.toInt ≤ 2047) ∧ t.outL = s.outL ∧ t.acc = s.acc) ∧
    (s.stepIdx.toNat = 112 → ∃ t : State, exec i s = .next t ∧ t.outL = t.ai ∧
      (-2047 ≤ t.ai.toInt ∧ t.ai.toInt ≤ 2047) ∧ t.outR = s.outR ∧ t.acc = s.acc)

/-- 42_dsp_engine.md R151: at any step but 0, 96 and 112, `acc <- li`; at those, `acc` keeps the value
from the start of the step, which R148 to R150 say and R151 derives. -/
def Obligations.AccumulatorLatchedAtOrdinarySteps : Prop :=
  ∀ (i : Instr) (s : State), ∃ t : State, exec i s = .next t ∧
    (s.stepIdx.toNat ≠ 0 → s.stepIdx.toNat ≠ 96 → s.stepIdx.toNat ≠ 112 → t.acc = t.li) ∧
    (s.stepIdx.toNat = 0 ∨ s.stepIdx.toNat = 96 ∨ s.stepIdx.toNat = 112 → t.acc = s.acc)

/-- 42_dsp_engine.md R147: `ai` is clamped to ±2047 after the class action; `li`, `acc` and a stored
word keep their unclamped values, for every instruction and at every step.  That an overflowing sum
or negation wraps is the spec's own decision D2 (log 19). -/
def Obligations.ClampActsOnAiAlone : Prop :=
  ∀ (i : Instr) (s : State), ∃ t : State, exec i s = .next t ∧
    (-2047 ≤ t.ai.toInt ∧ t.ai.toInt ≤ 2047) ∧
    (∀ d, i = .rda d ∨ i = .rdl d →
      t.ai.toInt = max (-2047) (min 2047 (s.ram.read s.ptr.toNat).toInt)) ∧
    (∀ d, i = .wra d ∨ i = .wrn d → t.ai.toInt = max (-2047) (min 2047 s.acc.toInt)) ∧
    (∀ d, i = .rda d →
      t.li.toInt = (s.acc.toInt + (s.ram.read s.ptr.toNat).toInt / 2).bmod 65536) ∧
    (∀ d, i = .rdl d → t.li.toInt = (s.ram.read s.ptr.toNat).toInt / 2) ∧
    (∀ d, i = .wra d → t.li.toInt = (s.acc.toInt + s.acc.toInt / 2).bmod 65536) ∧
    (∀ d, i = .wrn d → t.li.toInt = -(s.acc.toInt / 2)) ∧
    (isIoStep s.stepIdx → t.acc = s.acc) ∧ (¬ isIoStep s.stepIdx → t.acc = t.li) ∧
    (∀ d, i = .wra d → s.stepIdx ≠ 0 → t.ram.read s.ptr.toNat = s.acc) ∧
    (∀ d, i = .wrn d → s.stepIdx ≠ 0 →
      (t.ram.read s.ptr.toNat).toInt = (-s.acc.toInt).bmod 65536) ∧
    (s.stepIdx = 0 → t.ram.read s.ptr.toNat = s.dspIn)

/-- 42_dsp_engine.md R152: a step advances the pointer by the instruction's delta modulo 16384, and an
invocation by the sum of the program's 128 deltas modulo 16384, which the spec derives from it and
R140. -/
def Obligations.PointerAdvancesByDeltas : Prop :=
  (∀ (i : Instr) (s : State), ∃ t : State, exec i s = .next t ∧
    t.ptr.toNat = (s.ptr.toNat + i.deltaBits.toNat) % 16384) ∧
  ∀ (d : Word) (s : State), s.baseOffset.toNat = 128 * s.progIndex.toNat →
    ∃ t : State, dspInvoke d s = .next t ∧
      t.ptr.toNat = (s.ptr.toNat + ((List.range 128).map fun k =>
        (s.rom.read (s.baseOffset.toNat + k)).toNat % 16384).sum) % 16384

/-- 42_dsp_engine.md R155: `asr1` replicates bit 15 and is the floor of the half, in
[-16384, 16383]. -/
def Obligations.AsrIsFloorOfHalf : Prop :=
  ∀ v : Word, (asr1 v).toInt = v.toInt / 2 ∧ (asr1 v).msb = v.msb ∧
    -16384 ≤ (asr1 v).toInt ∧ (asr1 v).toInt ≤ 16383

/-- 42_dsp_engine.md R156 and R157: `wrap16` is `((n + 32768) mod 65536) - 32768`, and the negation of
every int16 but -32768 is exact.  (The spec's own decision D2, log 19.) -/
def Obligations.WrapIsCongruence : Prop :=
  (∀ n : Int, (wrap16 n).toInt = (n + 32768) % 65536 - 32768) ∧
  (∀ v : Word, v.toInt ≠ -32768 → (wrap16 (-v.toInt)).toInt = -v.toInt) ∧
  (wrap16 (-(-32768))).toInt = -32768 ∧
  ∀ v : Word, (wrap16 (-(asr1 v).toInt)).toInt = -(asr1 v).toInt

/-- 10_state.md R21 and R22: the values of `li` and `ai` carried into an invocation are never
observable. -/
def Obligations.CarriedLatchesNotObservable : Prop :=
  ∀ (d : Word) (s : State) (x y : Word), dspInvoke d (s.setLatches x y) = dspInvoke d s

/-- 70_reset_and_hazards.md R284: a store is seen by a read of the same word in the next step, and the
`acc` latched by a step is the one the next step reads. -/
def Obligations.NextStepSeesStoreAndAccumulator : Prop :=
  ∀ (s : State) (d : ScratchAddr), ¬ isIoStep s.stepIdx → s.stepIdx.toNat ≠ 127 →
    ∃ t u v : State, exec (.wra 0) s = .next t ∧
      exec (.rdl d) t = .next u ∧ u.li.toInt = s.acc.toInt / 2 ∧
      exec (.wrn d) t = .next v ∧ v.li.toInt = -(t.li.toInt / 2)

/-- 42_dsp_engine.md R140 and 10_state.md R24: an invocation runs exactly 128 steps, 0 to 127 in order,
with no early exit, and the micro-steps of `step` are those of `engineSteps`; it writes the engine's
registers, the output latches and the scratch RAM only.  The micro-steps are those of log 5, and that
the step index is 0 after the last one is the model's choice (log 4). -/
def Obligations.InvocationRunsAllSteps : Prop :=
  ∀ (s : State) (c : RunCall), s.mark = .clear → s.phase = .engine c → s.stepIdx = 0 → noOverlap s →
    (∃ t : State, core.run 128 s = .next t ∧ engineSteps 128 s = .next t ∧ t.phase = .pairEnd c ∧
      t.stepIdx = 0 ∧
      { t with
        acc := s.acc, li := s.li, ai := s.ai, ptr := s.ptr, outL := s.outL, outR := s.outR,
        ram := s.ram, phase := s.phase } = s) ∧
    ∀ n : Nat, n < 128 → ∃ u : State, core.run n s = .next u ∧ u.phase = .engine c ∧
      u.stepIdx.toNat = n

/-- 41_program_selector.md R135: programs are position-independent.  Two states that differ by a
rotation of the pointer and the scratch RAM give, for the same input, the same outputs and states
that differ by the same rotation. -/
def Obligations.RotatedScratchGivesSameOutputs : Prop :=
  ∀ (k : ScratchAddr) (d : Word) (s t : State), Rotated k s t →
    ∃ s' t' : State, dspInvoke d s = .next s' ∧ dspInvoke d t = .next t' ∧
      t'.outL = s'.outL ∧ t'.outR = s'.outR ∧ Rotated k s' t'

/-- 95_test_vectors.md S15, for every ROM: with zeros in the accumulator, the output latches and the
scratch RAM, an invocation of zero input leaves zeros. -/
def Obligations.ZeroInputStaysSilent : Prop :=
  ∀ s : State, Silent s → ∃ t : State, dspInvoke 0 s = .next t ∧ Silent t

/-! ### The program selector -/

/-- 41_program_selector.md R130: `set_program` stores `i & 0x3F` and its base.  It changes nothing else,
which is R131, the spec's own decision D27.  (`calls` and `result` are the model's own, log 6.) -/
def Obligations.SetProgramStoresSelection : Prop :=
  ∀ (s : State) (i : BitVec 8) (rest : List HostCall), NextCall (.setProgram i) rest s →
    ∃ (p : ProgIndex) (b : RomAddr), p.toNat = i.toNat % 64 ∧ b.toNat = 128 * (i.toNat % 64) ∧
      step s = .next { s with calls := rest, result := .returned, progIndex := p, baseOffset := b }

/-- 41_program_selector.md R132: `set_program(k)` is `set_program(k & 0x3F)`, twice is once, and 64 is
0. -/
def Obligations.SetProgramAliases : Prop :=
  (∀ (k : BitVec 8) (s : State), setProgram k s = setProgram (k &&& 0x3F) s) ∧
  (∀ (k : BitVec 8) (s : State), setProgram k (setProgram k s) = setProgram k s) ∧
  ∀ s : State, setProgram 0 s = setProgram 64 s

/-- 41_program_selector.md R133: `program_name(i)` returns `NAMES(i & 0x3F)`, a non-empty string of
ASCII codes with no NUL, and changes nothing.  (`calls` and `result` are the model's own, log 6; the
codes 1 to 127 are the spec's own decision D16 as log 18 reads it.) -/
def Obligations.ProgramNameReturnsName : Prop :=
  ∀ (s : State) (i : BitVec 8) (rest : List HostCall), NextCall (.programName i) rest s →
    ∃ p : ProgIndex, p.toNat = i.toNat % 64 ∧
      step s = .next { s with calls := rest, result := .name (Config.programNames p) } ∧
      nameBytes (Config.programNames p) ≠ [] ∧
      ∀ b ∈ nameBytes (Config.programNames p), 1 ≤ b.toNat ∧ b.toNat ≤ 127

/-! ### Sample rate and filters -/

/-- 45_host_interface.md R233 and R234: a finite rate above 18916 Hz configures and zeroes both stages
and changes nothing else; any other raises `SvfDomain` with the rate.  (The fault and what is left
unchanged are the spec's own decisions D8, D9 and D22.) -/
def Obligations.SampleRateConfiguresOrFaults : Prop :=
  ∀ (s : State) (sr : Fp) (rest : List HostCall), NextCall (.setSampleRate sr) rest s →
    (∀ v : ℚ, sr.value? = some v → 18916 < v →
      step s = .next { s with
        calls := rest, result := .returned,
        svf1 := svfConfigured s.fp ⟨5916, 6572, 10000⟩ sr,
        svf2 := svfConfigured s.fp ⟨9458, 2536, 1000⟩ sr }) ∧
    (∀ v : ℚ, sr.value? = some v → v ≤ 18916 → step s = .fault (.svfDomain sr)) ∧
    (sr.value? = none → step s = .fault (.svfDomain sr))

/-- 40_svf.md R101: the configuration's domain is decided on exact values, and with both stages'
constants it is `sr > 18916`, with stage 1's alone `sr > 11832`.  (The check is the spec's own
decision D8.) -/
def Obligations.ConfigurationDomainIsExact : Prop :=
  (∀ (k : StageConst) (sr : Fp), svfInDomain k sr = true ↔
    ∃ v : ℚ, sr.value? = some v ∧ 0 < k.cutoff ∧ 0 < k.qDen ∧ (0 : ℚ) < (k.qNum : ℚ) / k.qDen ∧
      (k.cutoff : ℚ) < v / 2) ∧
  (∀ (sr : Fp) (v : ℚ), sr.value? = some v →
    ((svfInDomain stage1 sr = true ∧ svfInDomain stage2 sr = true ↔ 18916 < v) ∧
      (svfInDomain stage1 sr = true ↔ 11832 < v)))

/-- 40_svf.md R100: a configuration leaves the delays +0 whatever they were and does not depend on
any earlier state; the coefficients satisfy its formulas in the arithmetic of the format. -/
def Obligations.ConfigurationFormulas : Prop :=
  ∀ (f : FpFormat) (k : StageConst) (sr : Fp) (st : SvfStage), svfSet f k sr = .ok st →
    st.z1 = .finite false 0 0 ∧ st.z2 = .finite false 0 0 ∧
    ∃ w a b q : Fp,
      w = f.mul (f.ofNat 2) (tangent f (f.div (f.mul f.pi (f.ofNat k.cutoff)) sr)) ∧
      q = f.round false k.qNum k.qDen 0 ∧ a = f.div w q ∧ b = f.mul w w ∧
      st.c1 = f.div (f.add a b)
        (f.add (f.add (f.ofNat 1) (f.div a (f.ofNat 2))) (f.div b (f.ofNat 4))) ∧
      st.c2 = f.div b (f.add a b) ∧ st.d0 = f.div (f.mul st.c1 st.c2) (f.ofNat 4)

/-- 40_svf.md R103, corner case: with finite coefficients and delays +0, input +0 gives +0 and leaves
the stage as it is. -/
def Obligations.ZeroInputKeepsStageAtRest : Prop :=
  ∀ (f : FpFormat) (st : SvfStage), st.c1.isFinite = true → st.c2.isFinite = true →
    st.d0.isFinite = true → st.z1 = .zero → st.z2 = .zero → svfStep f st .zero = (.zero, st)

/-- 40_svf.md R103, example, for every format and stage: from delays +0, a unit impulse returns `d0`
and leaves `z1 = c1` and `z2 = 0`. -/
def Obligations.UnitImpulseReturnsD0 : Prop :=
  ∀ (f : FpFormat) (st : SvfStage) (n1 n0 : Bool) (m1 m0 : Nat) (e1 e0 : Int),
    st.c1 = .finite n1 m1 e1 → 0 < m1 → f.isValue st.c1 → st.c2.isFinite = true →
    st.d0 = .finite n0 m0 e0 → 0 < m0 → f.isValue st.d0 → st.z1 = .zero → st.z2 = .zero →
    svfStep f st (f.ofNat 1) = (st.d0, { st with z1 := st.c1, z2 := .zero })

/-- 40_svf.md R103: one filter step, by its formulas in the arithmetic of the format, for all
coefficients, delays and inputs: `z2` uses the `z1` from before the step, the output the `z2` from
after it, and the coefficients stay.  Where no operation rounds, the step is the exact one, whose
state-space form is that of R108, with a DC gain of 1.  (Left association and unfused operations are
the spec's own decision D5.) -/
def Obligations.StageStepFormulaAndExactForm : Prop :=
  (∀ (f : FpFormat) (st : SvfStage) (x : Fp),
    let t := f.sub (f.sub x st.z1) st.z2
    let z2 := f.add st.z2 (f.mul st.c2 st.z1)
    svfStep f st x =
      (f.add (f.mul st.d0 t) z2, ⟨st.c1, st.c2, st.d0, f.add st.z1 (f.mul st.c1 t), z2⟩)) ∧
  (∀ (f : FpFormat) (st : SvfStage) (e : ExactStage) (x : Fp) (v : ℚ),
    StageIsExact f st e → holdsExactly f x v → StepNeedsNoRounding f e v →
    StageIsExact f (svfStep f st x).2 (exactStep e v).2 ∧
    (svfStep f st x).1.value? = some (exactStep e v).1 ∧
    (svfStep f st x).1.value? =
      some ((e.c2 - e.d0) * e.z1 + (1 - e.d0) * e.z2 + e.d0 * v) ∧
    (svfStep f st x).2.z1.value? = some ((1 - e.c1) * e.z1 - e.c1 * e.z2 + e.c1 * v) ∧
    (svfStep f st x).2.z2.value? = some (e.c2 * e.z1 + e.z2)) ∧
  ∀ (e : ExactStage) (v : ℚ), e.c1 ≠ 0 → e.c2 ≠ 0 → (exactStep e v).2 = e →
    e.z1 = 0 ∧ e.z2 = v ∧ (exactStep e v).1 = v

/-- 40_svf.md R102, the spec's own decision D5: a finite result of a rounding, a sum, a difference, a
product or a quotient is the value of the format nearest to the exact one, ties to even; a rounding
overflows exactly from half a last place above the largest finite value on; and a format that flushes
subnormals (D25, log 11) gives what the one that keeps them gives, operands and result flushed.
(Overflow, and NaN and infinities as operands, are log 10.) -/
def Obligations.RoundingIsNearestTiesToEven : Prop :=
  (∀ (f : FpFormat) (neg b : Bool) (num den m : Nat) (e q : Int),
    f.flushSubnormals = false → 0 < den → f.round neg num den e = .finite b m q →
    b = neg ∧
      nearestEven f ((if neg then -1 else 1) * ((num : ℚ) / den) * 2 ^ e) (.finite b m q)) ∧
  (∀ (f : FpFormat) (neg : Bool) (num den : Nat) (e : Int), 0 < den →
    (f.round neg num den e = .infinite neg ↔
      (2 - 2 ^ (-(f.precision : Int))) * 2 ^ f.emax ≤ (num : ℚ) / den * 2 ^ e)) ∧
  (∀ (f : FpFormat) (x y : Fp) (v w : ℚ), f.flushSubnormals = false →
    x.value? = some v → y.value? = some w →
    ((f.add x y).isFinite = true → nearestEven f (v + w) (f.add x y)) ∧
    ((f.sub x y).isFinite = true → nearestEven f (v - w) (f.sub x y)) ∧
    ((f.mul x y).isFinite = true → nearestEven f (v * w) (f.mul x y)) ∧
    (w ≠ 0 → (f.div x y).isFinite = true → nearestEven f (v / w) (f.div x y))) ∧
  ∀ (f : FpFormat) (x y : Fp), f.flushSubnormals = true →
    (keeping f).isValue x → (keeping f).isValue y →
    f.add x y = flushed f ((keeping f).add (flushed f x) (flushed f y)) ∧
    f.sub x y = flushed f ((keeping f).sub (flushed f x) (flushed f y)) ∧
    f.mul x y = flushed f ((keeping f).mul (flushed f x) (flushed f y)) ∧
    f.div x y = flushed f ((keeping f).div (flushed f x) (flushed f y))

/-- 40_svf.md R102, the spec's own decision D7: in every format, `PI` is a value of the format and no
value is nearer to π than it is, but for a margin of `2^(3 - 42 p)` at `p` significand bits, inside
which no tie lies (log 12); the `PI` of binary64 and of binary32 is within half a unit of its last
place. -/
def Obligations.PiIsNearest : Prop :=
  (∀ f : FpFormat, f.isValue f.pi ∧ ∃ v : ℚ, f.pi.value? = some v ∧ ∀ (y : Fp) (w : ℚ), f.isValue y →
    y.value? = some w →
    |(v : ℝ) - Real.pi| ≤ |(w : ℝ) - Real.pi| + 2 ^ (3 - 42 * (f.precision : Int))) ∧
  ∀ flush : Bool,
    (∃ v : ℚ, (FpFormat.pi ⟨36, 3, flush⟩).value? = some v ∧ |(v : ℝ) - Real.pi| ≤ 2 ^ (-52 : Int)) ∧
    ∃ v : ℚ, (FpFormat.pi ⟨7, 0, flush⟩).value? = some v ∧ |(v : ℝ) - Real.pi| ≤ 2 ^ (-23 : Int)

/-! ### The scaler -/

/-- 43_fixed_point_scaler.md R180: the float of a PCM sample is exactly `v / 32768`, in [-1, 1), in
every admitted format; that of 0 is +0. -/
def Obligations.PcmToFloatIsExact : Prop :=
  ∀ (f : FpFormat) (v : Word), (pcmToFp f v).value? = some ((v.toInt : ℚ) / 32768) ∧
    -1 ≤ (v.toInt : ℚ) / 32768 ∧ (v.toInt : ℚ) / 32768 < 1 ∧ pcmToFp f 0 = .zero

/-- 43_fixed_point_scaler.md R181: the mono sum of two samples is exactly `(L + R) / 65536`, in
[-1, 1), in every admitted format. -/
def Obligations.MonoSumIsExact : Prop :=
  ∀ (f : FpFormat) (l r : Word),
    (monoSum f (pcmToFp f l) (pcmToFp f r)).value? = some (((l.toInt + r.toInt : Int) : ℚ) / 65536) ∧
    -1 ≤ ((l.toInt + r.toInt : Int) : ℚ) / 65536 ∧ ((l.toInt + r.toInt : Int) : ℚ) / 65536 < 1

/-- 43_fixed_point_scaler.md R182: `dsp_in` is the product with 2048 rounded toward zero, where that
is within ±32767; otherwise, and where the product is not finite, the pair faults with `DspInRange`,
its frame index and the filter output.  (The fault is the spec's own decision D10.) -/
def Obligations.DspInTruncatesTowardZeroOrFaults : Prop :=
  (∀ (f : FpFormat) (x : Fp) (v : ℚ), (f.mul x (f.ofNat 2048)).value? = some v →
    let n : Int := if v < 0 then ⌈v⌉ else ⌊v⌋
    (-32767 ≤ n ∧ n ≤ 32767 → ∃ w : Word, toDspIn f x = some w ∧ w.toInt = n) ∧
    (¬ (-32767 ≤ n ∧ n ≤ 32767) → toDspIn f x = none)) ∧
  (∀ (f : FpFormat) (x : Fp), (f.mul x (f.ofNat 2048)).value? = none → toDspIn f x = none) ∧
  ∀ (s : State) (c : RunCall), toDspIn s.fp (filterFrame s c.input c.i).1 = none →
    startPair c s = .fault (.dspInRange c.i (filterFrame s c.input c.i).1)

/-- 43_fixed_point_scaler.md R183: an output latch within ±2047 becomes the PCM sample `16 · out`,
within ±32752. -/
def Obligations.OutputScaledBySixteen : Prop :=
  ∀ v : Word, -2047 ≤ v.toInt → v.toInt ≤ 2047 →
    (toPcm v).toInt = 16 * v.toInt ∧ -32752 ≤ (toPcm v).toInt ∧ (toPcm v).toInt ≤ 32752

/-! ### The run loop -/

/-- 44_run_loop.md R200 and R206: a call whose buffers break the contract is refused, before
`scratch_ok` is looked at; with no scratch RAM, or with no frames, the call returns and changes
nothing; otherwise the pair of frame 0 is next.  (`calls` and `result` are the model's own, log 6;
the refusal is the spec's own decision D13, and the reading of the contract is that of log 8.) -/
def Obligations.RunBeginsByContract : Prop :=
  ∀ (s : State) (input output : PcmBuffer) (frames : Nat) (rest : List HostCall),
    NextCall (.run input output frames) rest s →
    (¬ BuffersOk input output frames →
      step s = .refused (.hostContract (.run input output frames))) ∧
    (BuffersOk input output frames → s.scratchOk = false ∨ frames = 0 →
      step s = .next { s with calls := rest, result := .returned }) ∧
    (BuffersOk input output frames → s.scratchOk = true → frames ≠ 0 →
      step s = .next { s with calls := rest, phase := .pairStart ⟨input, output, frames, 0⟩ })

/-- 44_run_loop.md R202 and R203, with 40_svf.md R105: at the head of a pair the first frame goes
through stage 1 and stage 1's output through stage 2, whose output becomes `dsp_in` (R204); the second
frame, where there is one, goes through the same stages, each stepping once more, and its output is
discarded; the invocation begins at step 0.  That nothing else changes is marked as derived in R213,
and the phase and the step fields are logs 4 and 5. -/
def Obligations.PairFiltersBothFrames : Prop :=
  ∀ (s : State) (c : RunCall), s.mark = .clear → s.phase = .pairStart c → noOverlap s →
    let mono := fun k : Nat =>
      monoSum s.fp (pcmToFp s.fp (pcmRead s.host c.input (2 * k)))
        (pcmToFp s.fp (pcmRead s.host c.input (2 * k + 1)))
    let first1 := svfStep s.fp s.svf1 (mono c.i)
    let first2 := svfStep s.fp s.svf2 first1.1
    let second1 := svfStep s.fp first1.2 (mono (c.i + 1))
    let second2 := svfStep s.fp first2.2 second1.1
    ∀ d : Word, toDspIn s.fp first2.1 = some d →
      step s = .next { s with
        svf1 := if c.i + 1 < c.frames then second1.2 else first1.2
        svf2 := if c.i + 1 < c.frames then second2.2 else first2.2
        dspIn := d, stepIdx := 0, phase := .engine c }

/-- 44_run_loop.md R205: the end of a pair writes `16 · out_L` and `16 · out_R` to output frame `i` and,
where it exists, to frame `i + 1`, and no other byte; the next pair or the end of the call follows. -/
def Obligations.PairOutputIsWrittenAndHeld : Prop :=
  ∀ (s : State) (c : RunCall), s.mark = .clear → s.phase = .pairEnd c → noOverlap s →
    c.i < c.frames → inEngineRange s.outL → inEngineRange s.outR →
    ∃ t : State, step s = .next t ∧
      (∀ k : Nat, k = c.i ∨ k = c.i + 1 ∧ k < c.frames →
        (pcmRead t.host c.output (2 * k)).toInt = 16 * s.outL.toInt ∧
        (pcmRead t.host c.output (2 * k + 1)).toInt = 16 * s.outR.toInt) ∧
      (∀ a : Nat, a < c.output.base + 4 * c.i ∨ c.output.base + 4 * min (c.i + 2) c.frames ≤ a →
        t.host.read a = s.host.read a) ∧
      { t with host := s.host, phase := s.phase, result := s.result } = s ∧
      (c.i + 2 < c.frames → t.phase = .pairStart { c with i := c.i + 2 }) ∧
      (c.frames ≤ c.i + 2 → t.phase = .idle ∧ t.result = .returned)

/-- 44_run_loop.md R212: after a call, frames `i` and `i + 1` of the output, `i` even, are equal. -/
def Obligations.RunHoldsOutputAcrossPairs : Prop :=
  ∀ (s t : State) (input output : PcmBuffer) (frames : Nat), s.scratchOk = true →
    runCall input output frames s = .next t →
    ∀ i : Nat, i % 2 = 0 → i + 1 < frames →
      pcmRead t.host output (2 * i) = pcmRead t.host output (2 * (i + 1)) ∧
      pcmRead t.host output (2 * i + 1) = pcmRead t.host output (2 * (i + 1) + 1)

/-- 44_run_loop.md R205 and R213: a call changes the filter delays, the engine's registers, the
scratch RAM and the first `2 · frames` samples of the output buffer, and nothing else; the input
buffer is never written. -/
def Obligations.RunChangesOnlyListedState : Prop :=
  ∀ (s t : State) (input output : PcmBuffer) (frames : Nat),
    runCall input output frames s = .next t →
    t = { s with
      svf1 := { s.svf1 with z1 := t.svf1.z1, z2 := t.svf1.z2 }
      svf2 := { s.svf2 with z1 := t.svf2.z1, z2 := t.svf2.z2 }
      acc := t.acc, li := t.li, ai := t.ai, ptr := t.ptr, stepIdx := t.stepIdx, dspIn := t.dspIn
      outL := t.outL, outR := t.outR, ram := t.ram, host := t.host
      phase := .idle, result := .returned } ∧
    (∀ a : Nat, a < output.base ∨ output.base + 4 * frames ≤ a → t.host.read a = s.host.read a) ∧
    ∀ j : Nat, j < 2 * frames → pcmRead t.host input j = pcmRead s.host input j

/-- 44_run_loop.md R213: the output buffer is never read.  Whatever host memory holds outside the
input samples, a call gives the same state and the same output samples. -/
def Obligations.RunReadsInputSamplesOnly : Prop :=
  ∀ (s t : State) (m : Memory 8) (input output : PcmBuffer) (frames : Nat), s.scratchOk = true →
    runCall input output frames s = .next t →
    (∀ j : Nat, j < 2 * frames → pcmRead m input j = pcmRead s.host input j) →
    ∃ u : State, runCall input output frames { s with host := m } = .next u ∧
      u = { t with host := u.host } ∧
      ∀ j : Nat, j < 2 * frames → pcmRead u.host output j = pcmRead t.host output j

/-- 92_eei_decisions.md D1, the spec's own decision (log 5): the micro-steps of `step` compute the `run` call as 44_run_loop.md R201
writes it, in `1 + 130 · ceil(frames / 2)` steps, whatever its outcome. -/
def Obligations.MicroStepsAreTheTransaction : Prop :=
  ∀ (s : State) (input output : PcmBuffer) (frames : Nat) (rest : List HostCall),
    NextCall (.run input output frames) rest s → s.scratchOk = true →
    core.run (1 + 130 * ((frames + 1) / 2)) s = runCall input output frames { s with calls := rest }

/-- 44_run_loop.md R209: a stream fed as two calls, the first of an even frame count, gives what one
call over the whole gives, in state and in output. -/
def Obligations.EvenSplitGivesSameResult : Prop :=
  ∀ (s t : State) (b o m n : Nat),
    runCall ⟨b, 4 * (2 * m + n)⟩ ⟨o, 4 * (2 * m + n)⟩ (2 * m + n) s = .next t →
    andThen (runCall ⟨b, 8 * m⟩ ⟨o, 8 * m⟩ (2 * m) s)
      (runCall ⟨b + 8 * m, 4 * n⟩ ⟨o + 8 * m, 4 * n⟩ n) = .next t

/-! ### Invariants and whole-machine rules -/

/-- The engine's invariant is kept by every step: memories canonical and inside their spaces
(20_memory.md R60), `ai` and the output latches within ±2047 (10_state.md R22, R25), the base offset
that of the selected program (R26), the call in progress in order. -/
def Obligations.StepKeepsEngineInvariant : Prop :=
  ∀ s t : State, EngineInv s → step s = .next t → EngineInv t

/-- An instance has both invariants right after reset, for every ROM in canonical form. -/
def Obligations.ResetHasInvariants : Prop :=
  EngineInv State.reset ∧ FilterInv State.reset ∧
  ∀ (rom : Memory 16) (f : FpFormat) (ok : Bool),
    FilterInv (State.boot rom f ok) ∧ (memoryOk 8192 rom → EngineInv (State.boot rom f ok))

/-- 10_state.md R27 and R28: every step keeps values of the format in the filter registers. -/
def Obligations.StepKeepsFilterValues : Prop :=
  ∀ s t : State, FilterInv s → step s = .next t → FilterInv t

/-- 70_reset_and_hazards.md R280: the values the spec gives for reset, for every ROM, format and
`SCRATCH_OK`.  (`out_L` and `out_R` have none and are left out, log 3.) -/
def Obligations.ResetValues : Prop :=
  ∀ (rom : Memory 16) (f : FpFormat) (ok : Bool),
    let s := State.boot rom f ok
    s.acc = 0 ∧ s.li = 0 ∧ s.ai = 0 ∧ s.ptr = 0 ∧ s.progIndex = 0 ∧ s.baseOffset = 0 ∧
    s.scratchOk = ok ∧ s.mark = .clear ∧ (∀ a : ScratchAddr, s.ramRead a = 0) ∧
    svfSet f ⟨5916, 6572, 10000⟩ (f.ofNat 44100) = .ok s.svf1 ∧
    svfSet f ⟨9458, 2536, 1000⟩ (f.ofNat 44100) = .ok s.svf2

/-- 60_exceptions.md R251 and 70_reset_and_hazards.md R280: `new` gives an instance with the reset
values or `ConstructionFailed`, by a draw; 45_host_interface.md R230: a release leaves no instance and
changes nothing else; after a failure, or a release, no call but `new` has a meaning; 60_exceptions.md
R266: an idle machine with no call holds its state.  (The draw is the model's opaque sequence, log 14;
that the new instance takes the place of the old one is log 15; `calls` and `result` are log 6; the
refusal is log 16.) -/
def Obligations.NewReleaseAndIdleMachine : Prop :=
  (∀ (s : State) (o : Bool) (rest : List HostCall),
    s.mark = .clear → s.phase = .idle → s.calls = ⟨.new, o⟩ :: rest →
    (∀ c ∈ rest.head?, c.overlaps = false) →
    step s = .next (
      if Config.constructionFails s.draws then
        { s with
          calls := rest, draws := s.draws + 1, status := .constructionFailed,
          result := .constructionFailed }
      else
        { State.boot s.rom s.fp s.scratchOk with
          calls := rest, host := s.host, draws := s.draws + 1 })) ∧
  (∀ (s : State) (rest : List HostCall), NextCall .release rest s →
    step s = .next { s with calls := rest, status := .released, result := .returned }) ∧
  (∀ (s : State) (c : HostCall) (rest : List HostCall),
    s.mark = .clear → s.phase = .idle → s.status ≠ .live → s.calls = c :: rest → c.op ≠ .new →
    (∀ d ∈ rest.head?, d.overlaps = false) → step s = .refused (.noInstance c.op)) ∧
  ∀ s : State, s.mark = .clear → s.phase = .idle → s.calls = [] → step s = .next s

/-- 40_svf.md R107: coefficients change only where a configuration runs, delays only there and where
frames are filtered. -/
def Obligations.CoefficientsChangeOnlyByConfiguration : Prop :=
  ∀ s t : State, step s = .next t →
    (coefficients t ≠ coefficients s → beginsConfiguration s) ∧
    (delays t ≠ delays s → beginsConfiguration s ∨ ∃ c, s.phase = .pairStart c)

/-- 20_memory.md R62 and R63: no step writes the ROM (nor the format nor `scratch_ok`, 10_state.md R30,
R32), and the scratch RAM is written only by WRA, WRN and the step-0 hook, at `ptr`, or zeroed by a
construction.  (That `scratch_ok` is constant is the spec's own decision D12; that `new` keeps the ROM,
the format and `scratch_ok` is log 15.) -/
def Obligations.MemoriesWrittenOnlyByEngine : Prop :=
  ∀ s t : State, step s = .next t →
    (t.rom = s.rom ∧ t.fp = s.fp ∧ t.scratchOk = s.scratchOk) ∧
    ∀ a : Nat, t.ram.read a ≠ s.ram.read a →
      ((∃ c, s.phase = .engine c) ∧ a = s.ptr.toNat ∧
        (s.stepIdx = 0 ∨ ∃ d, s.fetchInstr = .wra d ∨ s.fetchInstr = .wrn d)) ∨
      (beginsNew s ∧ t.ram.read a = 0)

/-- 10_state.md R26 and R20: the selection is written only by `set_program` or a construction, the
accumulator only by an opcode at a step other than 0, 96 and 112 or a construction. -/
def Obligations.SelectionAndAccumulatorWriters : Prop :=
  ∀ s t : State, step s = .next t →
    (t.progIndex ≠ s.progIndex ∨ t.baseOffset ≠ s.baseOffset →
      beginsNew s ∨ (s.phase = .idle ∧ ∃ i o rest, s.calls = ⟨.setProgram i, o⟩ :: rest)) ∧
    (t.acc ≠ s.acc → beginsNew s ∨ ((∃ c, s.phase = .engine c) ∧ ¬ isIoStep s.stepIdx))

/-- 45_host_interface.md R232, the spec's own decision D14: a call made while one is in progress is
refused, in the step that begins the one in progress, whatever it is, and in every later one.  (How a
call overlaps is the model's, log 6; that this comes before every other outcome is log 29.) -/
def Obligations.OverlappingCallIsRefused : Prop :=
  ∀ (s : State) (op : HostOp) (rest : List HostCall), s.mark = .clear →
    (s.phase ≠ .idle → s.calls = ⟨op, true⟩ :: rest → step s = .refused (.concurrency op)) ∧
    ∀ c : HostCall, s.phase = .idle → s.calls = c :: ⟨op, true⟩ :: rest →
      step s = .refused (.concurrency op)

/-- 60_exceptions.md R254 and R255, the spec's own decision D17: the mark of a fault or a refusal is sticky.  Every later step of
the instance, the one of a queued `new` included (log 30), answers the same and leaves it as it is. -/
def Obligations.MarksAreSticky : Prop :=
  ∀ (s : State) (o : StepOutcome), (∀ t : State, o ≠ .next t) →
    step (s.settle o) = o ∧ (s.settle o).settle (step (s.settle o)) = s.settle o ∧
    ∀ (bank : List State) (k : Nat), bank[k]? = some (s.settle o) →
      stepInstance bank k = bank

/-- 45_host_interface.md R235: a step of one instance is that instance's step and changes nothing in
another.  (That instances are a list of States stepped by an index is the model's choice, log 28.) -/
def Obligations.InstancesAreIsolated : Prop :=
  ∀ (bank : List State) (k : Nat),
    (stepInstance bank k).length = bank.length ∧
    (stepInstance bank k)[k]? = (bank[k]?).map (fun s => s.settle (step s)) ∧
    ∀ j : Nat, j ≠ k → (stepInstance bank k)[j]? = bank[j]?

/-! ### External formats -/

/-- 20_memory.md R61 and R66: a ROM image of 8192 words, each two bytes with the least significant
first, gives the ROM that reads as the words. -/
def Obligations.RomImageReadsAsWords : Prop :=
  ∀ ws : List Word, ws.length = 8192 →
    memoryOk 8192 (romOfImage (wordImage ws)) ∧
    ∀ a : Nat, a < 8192 → ws[a]? = some ((romOfImage (wordImage ws)).read a)

/-- 20_memory.md R65: sample `j` of a buffer is the two bytes at offsets `2j` and `2j + 1`, least
significant first; a sample write changes no other sample. -/
def Obligations.PcmSamplesAreLittleEndian : Prop :=
  ∀ (m : Memory 8) (b : PcmBuffer) (j : Nat) (v : Word),
    ((pcmWrite m b j v).read (b.base + 2 * j)).toNat = v.toNat % 256 ∧
    ((pcmWrite m b j v).read (b.base + 2 * j + 1)).toNat = v.toNat / 256 ∧
    ∀ k : Nat, pcmRead (pcmWrite m b j v) b k = if k = j then v else pcmRead m b k
end

