-- ==== Sys2Proof/Laws/Float.lean ====
section
/-! SUPPORT. What rounding gives: a value of the format, whatever is rounded; and that every
operation, every filter step and every configuration therefore gives values of the format. -/

namespace Sys2Proof

/-- A comparison of two natural numbers scaled by the two sides of one power of two, over the
rationals. -/
theorem scaled_le_iff (a b : Nat) (l : Int) :
    a * 2 ^ l.toNat ≤ b * 2 ^ (-l).toNat ↔ (a : ℚ) * 2 ^ l ≤ b := by
  have h : (2 : ℚ) ^ l = 2 ^ l.toNat / 2 ^ (-l).toNat := by
    rcases le_total 0 l with hl | hl
    · obtain ⟨n, rfl⟩ := Int.eq_ofNat_of_zero_le hl
      simp
    · obtain ⟨n, hn⟩ := Int.eq_ofNat_of_zero_le (neg_nonneg.mpr hl)
      have : l = -(n : Int) := by omega
      subst this
      simp
  rw [h, ← mul_div_assoc, div_le_iff₀ (by positivity)]
  exact_mod_cast Iff.rfl

/-- `floorLog2` brackets the quotient between two powers of two. -/
theorem floorLog2_bounds {num den : Nat} (hn : 0 < num) (hd : 0 < den) :
    (den : ℚ) * 2 ^ floorLog2 num den ≤ num ∧ (num : ℚ) < den * 2 ^ (floorLog2 num den + 1) := by
  have n1 : (2 : ℚ) ^ num.log2 ≤ num := by exact_mod_cast Nat.log2_self_le hn.ne'
  have n2 : (num : ℚ) < 2 ^ (num.log2 + 1) := by exact_mod_cast Nat.lt_log2_self
  have d1 : (2 : ℚ) ^ den.log2 ≤ den := by exact_mod_cast Nat.log2_self_le hd.ne'
  have d2 : (den : ℚ) < 2 ^ (den.log2 + 1) := by exact_mod_cast Nat.lt_log2_self
  have upper : (num : ℚ) < den * 2 ^ ((num.log2 : Int) - den.log2 + 1) := by
    have : (2 : ℚ) ^ (num.log2 + 1) = 2 ^ den.log2 * 2 ^ ((num.log2 : Int) - den.log2 + 1) := by
      rw [← zpow_natCast, ← zpow_natCast, ← zpow_add₀ (by norm_num)]
      congr 1; push_cast; ring
    calc (num : ℚ) < 2 ^ (num.log2 + 1) := n2
      _ = 2 ^ den.log2 * 2 ^ ((num.log2 : Int) - den.log2 + 1) := this
      _ ≤ den * 2 ^ ((num.log2 : Int) - den.log2 + 1) := by gcongr
  have lower : (den : ℚ) * 2 ^ ((num.log2 : Int) - den.log2 - 1) ≤ num := by
    have : (2 : ℚ) ^ (den.log2 + 1) * 2 ^ ((num.log2 : Int) - den.log2 - 1) = 2 ^ num.log2 := by
      rw [← zpow_natCast, ← zpow_natCast, ← zpow_add₀ (by norm_num)]
      congr 1; push_cast; ring
    calc (den : ℚ) * 2 ^ ((num.log2 : Int) - den.log2 - 1)
        ≤ 2 ^ (den.log2 + 1) * 2 ^ ((num.log2 : Int) - den.log2 - 1) := by gcongr
      _ = 2 ^ num.log2 := this
      _ ≤ num := n1
  unfold floorLog2
  simp only
  split
  · rename_i h
    exact ⟨(scaled_le_iff _ _ _).mp h, upper⟩
  · rename_i h
    refine ⟨lower, ?_⟩
    rw [sub_add_cancel]
    exact not_le.mp fun hle => h ((scaled_le_iff _ _ _).mpr hle)

/-- The rounded quotient is within half of the quotient. -/
theorem divNearestEven_near (num : Nat) {den : Nat} (hd : 0 < den) :
    2 * num ≤ (2 * divNearestEven num den + 1) * den ∧
    2 * divNearestEven num den * den ≤ 2 * num + den := by
  have h := Nat.div_add_mod num den
  have hr := Nat.mod_lt num hd
  unfold divNearestEven
  generalize num / den = d at *
  generalize num % den = r at *
  have e1 : (2 * (d + 1) + 1) * den = 2 * (den * d) + 3 * den := by ring
  have e2 : 2 * (d + 1) * den = 2 * (den * d) + 2 * den := by ring
  have e3 : (2 * d + 1) * den = 2 * (den * d) + den := by ring
  have e4 : 2 * d * den = 2 * (den * d) := by ring
  split
  · rw [e1, e2]; omega
  · rw [e3, e4]; omega

theorem divNearestEven_le {num den b : Nat} (h : num < b * den) :
    divNearestEven num den ≤ b := by
  have : num / den < b := Nat.div_lt_of_lt_mul (by rwa [Nat.mul_comm])
  unfold divNearestEven
  split <;> omega

theorem le_divNearestEven {num den b : Nat} (hd : 0 < den) (h : b * den ≤ num) :
    b ≤ divNearestEven num den := by
  have : b ≤ num / den := (Nat.le_div_iff_mul_le hd).mpr h
  unfold divNearestEven
  split <;> omega

/-- The scaled quotient that `round` rounds, over the rationals. -/
theorem scaled_quotient (num den : Nat) (k : Int) :
    ((num * 2 ^ k.toNat : Nat) : ℚ) / ((den * 2 ^ (-k).toNat : Nat) : ℚ) = num / den * 2 ^ k := by
  rcases le_total 0 k with hk | hk
  · obtain ⟨n, rfl⟩ := Int.eq_ofNat_of_zero_le hk
    simp; ring
  · obtain ⟨n, hn⟩ := Int.eq_ofNat_of_zero_le (neg_nonneg.mpr hk)
    have : k = -(n : Int) := by omega
    subst this
    simp only [Int.toNat_neg_natCast, pow_zero, mul_one, neg_neg, Int.toNat_natCast, zpow_neg,
      zpow_natCast]
    push_cast
    rw [div_mul_eq_div_div, div_eq_mul_inv]

theorem FpFormat.precision_pos (f : FpFormat) : 17 ≤ f.precision := by
  unfold FpFormat.precision; omega

theorem FpFormat.qMin_lt_qMax (f : FpFormat) : f.qMin < f.qMax := by
  have h : (2 : Int) ^ 7 ≤ 2 ^ (7 + f.extraExponent) :=
    pow_le_pow_right₀ (by norm_num) (by omega)
  unfold FpFormat.qMin FpFormat.qMax FpFormat.emin FpFormat.emax
  omega

/-- The significand that `round` computes: at most `2^precision`, and with its top bit set unless the
last place is the smallest one. -/
theorem FpFormat.round_mant (f : FpFormat) {num den : Nat} (hn : 0 < num) (hd : 0 < den) (e : Int) :
    let q := f.lastPlace num den e
    let m := divNearestEven (num * 2 ^ (e - q).toNat) (den * 2 ^ (q - e).toNat)
    m ≤ 2 ^ f.precision ∧ f.qMin ≤ q ∧ (2 ^ (f.precision - 1) ≤ m ∨ q = f.qMin) := by
  intro q m
  obtain ⟨lo, hi⟩ := floorLog2_bounds hn hd
  have hdq : (0 : ℚ) < den := by exact_mod_cast hd
  have hD : 0 < den * 2 ^ (q - e).toNat := by positivity
  have hDq : (0 : ℚ) < ((den * 2 ^ (q - e).toNat : Nat) : ℚ) := by exact_mod_cast hD
  have quot : ((num * 2 ^ (e - q).toNat : Nat) : ℚ) / ((den * 2 ^ (q - e).toNat : Nat) : ℚ)
      = num / den * 2 ^ (e - q) := by
    have := scaled_quotient num den (e - q)
    rwa [neg_sub] at this
  have hp := f.precision_pos
  refine ⟨divNearestEven_le ?_, le_max_left _ _, ?_⟩
  · have hq : floorLog2 num den + e - (f.precision - 1) ≤ q := le_max_right _ _
    have : ((num * 2 ^ (e - q).toNat : Nat) : ℚ) / ((den * 2 ^ (q - e).toNat : Nat) : ℚ)
        < 2 ^ f.precision := by
      rw [quot]
      calc (num : ℚ) / den * 2 ^ (e - q)
          < 2 ^ (floorLog2 num den + 1) * 2 ^ (e - q) := by
            gcongr
            rw [div_lt_iff₀ hdq, mul_comm]
            exact hi
        _ = 2 ^ (floorLog2 num den + 1 + (e - q)) := (zpow_add₀ (by norm_num) _ _).symm
        _ ≤ 2 ^ ((f.precision : Nat) : Int) := zpow_le_zpow_right₀ (by norm_num) (by omega)
        _ = 2 ^ f.precision := zpow_natCast _ _
    rw [div_lt_iff₀ hDq] at this
    exact_mod_cast this
  · by_cases hq : q = f.qMin
    · exact .inr hq
    · left
      have hq' : q = floorLog2 num den + e - (f.precision - 1) := by
        rcases max_choice f.qMin (floorLog2 num den + e - (f.precision - 1)) with h | h
        · exact absurd h hq
        · exact h
      refine le_divNearestEven hD ?_
      have : (2 : ℚ) ^ (f.precision - 1) ≤
          ((num * 2 ^ (e - q).toNat : Nat) : ℚ) / ((den * 2 ^ (q - e).toNat : Nat) : ℚ) := by
        rw [quot]
        calc (2 : ℚ) ^ (f.precision - 1) = 2 ^ (((f.precision - 1 : Nat)) : Int) :=
              (zpow_natCast _ _).symm
          _ = 2 ^ (floorLog2 num den + (e - q)) := by congr 1; omega
          _ = 2 ^ floorLog2 num den * 2 ^ (e - q) := zpow_add₀ (by norm_num) _ _
          _ ≤ num / den * 2 ^ (e - q) := by
            gcongr
            rw [le_div_iff₀ hdq, mul_comm]
            exact lo
      rw [le_div_iff₀ hDq] at this
      exact_mod_cast this

theorem FpFormat.isValue_zero (f : FpFormat) (neg : Bool) : f.isValue (.finite neg 0 0) :=
  .inl ⟨rfl, rfl⟩

/-- `normalise` gives a value of the format. -/
theorem FpFormat.normalise_isValue (f : FpFormat) (neg : Bool) {m : Nat} {q : Int}
    (hm : m ≤ 2 ^ f.precision) (hq : f.qMin ≤ q)
    (h : 2 ^ (f.precision - 1) ≤ m ∨ q = f.qMin) : f.isValue (f.normalise neg m q) := by
  have hp := f.precision_pos
  have half : 2 ^ (f.precision - 1) < 2 ^ f.precision := Nat.pow_lt_pow_right (by norm_num) (by omega)
  have pos : 0 < 2 ^ (f.precision - 1) := by positivity
  unfold FpFormat.normalise
  by_cases hc : m = 2 ^ f.precision
  · simp only [hc, if_true, pos.ne', if_false, lt_irrefl, and_false]
    split
    · trivial
    · exact .inr ⟨pos, half, by omega, by omega, .inl le_rfl⟩
  · simp only [hc, if_false]
    split
    · exact f.isValue_zero neg
    · split
      · trivial
      · split
        · exact f.isValue_zero neg
        · rename_i h0 h1 h2
          refine .inr ⟨by omega, by omega, hq, by omega, ?_⟩
          by_cases hlt : m < 2 ^ (f.precision - 1)
          · have hf : f.flushSubnormals = false := by
              cases hf : f.flushSubnormals
              · rfl
              · exact absurd ⟨hf, hlt⟩ h2
            exact .inr ⟨h.resolve_left (by omega), hf⟩
          · exact .inl (not_lt.mp hlt)

/-- Rounding gives a value of the format. -/
theorem FpFormat.round_isValue (f : FpFormat) (neg : Bool) (num : Nat) {den : Nat} (hd : 0 < den)
    (e : Int) : f.isValue (f.round neg num den e) := by
  unfold FpFormat.round
  split
  · exact f.isValue_zero neg
  · rename_i hn
    obtain ⟨a, b, c⟩ := f.round_mant (Nat.pos_of_ne_zero hn) hd e
    exact f.normalise_isValue neg a b c

/-- An exact quotient rounds to itself. -/
theorem divNearestEven_exact {num den m : Nat} (hd : 0 < den) (h : num = m * den) :
    divNearestEven num den = m := by
  subst h
  unfold divNearestEven
  rw [Nat.mul_mod_left, Nat.mul_div_cancel _ hd]
  rw [if_neg]
  omega

/-- A value of the format rounds to itself. -/
theorem FpFormat.round_exact (f : FpFormat) (neg : Bool) {num den m : Nat} {e q : Int}
    (hd : 0 < den) (hm : 0 < m) (hv : f.isValue (.finite neg m q))
    (h : (num : ℚ) / den * 2 ^ e = m * 2 ^ q) : f.round neg num den e = .finite neg m q := by
  have hp := f.precision_pos
  have hdq : (0 : ℚ) < den := by exact_mod_cast hd
  obtain ⟨-, hlt, hqlo, hqhi, hor⟩ := hv.resolve_left (by omega)
  have hmq : (0 : ℚ) < m := by exact_mod_cast hm
  have hn : 0 < num := by
    rcases Nat.eq_zero_or_pos num with rfl | hn
    · have : (m : ℚ) * 2 ^ q > 0 := by positivity
      rw [← h] at this
      simp at this
    · exact hn
  obtain ⟨lo, hi⟩ := floorLog2_bounds hn hd
  have hval : (num : ℚ) / den = m * 2 ^ (q - e) := by
    rw [zpow_sub₀ (by norm_num), ← mul_div_assoc, ← h]
    field_simp
  have lo' : (2 : ℚ) ^ floorLog2 num den ≤ m * 2 ^ (q - e) := by
    rw [← hval, le_div_iff₀ hdq, mul_comm]; exact lo
  have hi' : (m : ℚ) * 2 ^ (q - e) < 2 ^ (floorLog2 num den + 1) := by
    rw [← hval, div_lt_iff₀ hdq, mul_comm]; exact hi
  have up : floorLog2 num den < f.precision + (q - e) := by
    have : (2 : ℚ) ^ floorLog2 num den < 2 ^ ((f.precision : Int) + (q - e)) := by
      calc (2 : ℚ) ^ floorLog2 num den ≤ m * 2 ^ (q - e) := lo'
        _ < 2 ^ f.precision * 2 ^ (q - e) := by
          gcongr
          exact_mod_cast hlt
        _ = _ := by rw [zpow_add₀ (by norm_num), zpow_natCast]
    exact (zpow_lt_zpow_iff_right₀ (by norm_num)).mp this
  have hq : f.lastPlace num den e = q := by
    unfold FpFormat.lastPlace
    rcases hor with hb | ⟨hq, -⟩
    · have : (2 : ℚ) ^ (((f.precision - 1 : Nat) : Int) + (q - e)) < 2 ^ (floorLog2 num den + 1) := by
        calc (2 : ℚ) ^ (((f.precision - 1 : Nat) : Int) + (q - e)) = 2 ^ (f.precision - 1) * 2 ^ (q - e) := by
              rw [zpow_add₀ (by norm_num), zpow_natCast]
          _ ≤ m * 2 ^ (q - e) := by
            gcongr
            exact_mod_cast hb
          _ < _ := hi'
      have := (zpow_lt_zpow_iff_right₀ (by norm_num : (1 : ℚ) < 2)).mp this
      omega
    · omega
  have hD : 0 < den * 2 ^ (q - e).toNat := by positivity
  have hN : num * 2 ^ (e - q).toNat = m * (den * 2 ^ (q - e).toNat) := by
    have quot := scaled_quotient num den (e - q)
    rw [neg_sub, hval, mul_assoc, ← zpow_add₀ (by norm_num)] at quot
    rw [show q - e + (e - q) = 0 by ring, zpow_zero, mul_one, div_eq_iff (by positivity)] at quot
    exact_mod_cast quot
  unfold FpFormat.round
  rw [if_neg hn.ne']
  simp only [hq]
  rw [divNearestEven_exact hD hN]
  unfold FpFormat.normalise
  simp only [hlt.ne, if_false, hm.ne']
  rw [if_neg (by omega), if_neg]
  rintro ⟨hf, hl⟩
  rcases hor with hb | ⟨-, hf'⟩
  · omega
  · rw [hf] at hf'; cases hf'

theorem FpFormat.addCore_isValue (f : FpFormat) (x y : Fp) : f.isValue (f.addCore x y) := by
  unfold FpFormat.addCore
  split <;> try trivial
  · split <;> trivial
  · simp only
    split
    · exact f.isValue_zero _
    · exact f.round_isValue _ _ one_pos _

theorem FpFormat.mulCore_isValue (f : FpFormat) (x y : Fp) : f.isValue (f.mulCore x y) := by
  unfold FpFormat.mulCore
  split <;> try trivial
  · split <;> trivial
  · split <;> trivial
  · exact f.round_isValue _ _ one_pos _

theorem FpFormat.divCore_isValue (f : FpFormat) (x y : Fp) : f.isValue (f.divCore x y) := by
  unfold FpFormat.divCore
  split <;> try trivial
  · exact f.isValue_zero _
  · split
    · split <;> trivial
    · exact f.round_isValue _ _ (by omega) _

/-- A sum is a value of the format. -/
theorem FpFormat.add_isValue (f : FpFormat) (x y : Fp) : f.isValue (f.add x y) :=
  f.addCore_isValue _ _

/-- A product is a value of the format. -/
theorem FpFormat.mul_isValue (f : FpFormat) (x y : Fp) : f.isValue (f.mul x y) :=
  f.mulCore_isValue _ _

/-- A quotient is a value of the format. -/
theorem FpFormat.div_isValue (f : FpFormat) (x y : Fp) : f.isValue (f.div x y) :=
  f.divCore_isValue _ _

end Sys2Proof
end

