-- ==== Sys2Proof/Laws/Exact.lean ====
section
/-! SUPPORT. Operations that need no rounding: where the exact result is a value of the format, the
operation gives it (40_svf.md R102). -/

namespace Sys2Proof.Machine

open Sys2Proof

/-- An operand that is a value of the format is taken as it is. -/
theorem operand_of_isValue {f : FpFormat} {x : Fp} (h : f.isValue x) : f.operand x = x := by
  cases x with
  | nan => rfl
  | infinite b => rfl
  | finite b m e =>
    refine if_neg ?_
    rintro ⟨hf, hm, hlt⟩
    obtain ⟨-, -, hq, -, hb | ⟨-, hk⟩⟩ := h.resolve_left fun z => hm z.1
    · have : f.precision - 1 ≤ m.log2 := (Nat.le_log2 hm).mpr hb
      have := f.precision_pos
      unfold FpFormat.qMin at hq
      omega
    · rw [hf] at hk; cases hk

theorem holdsExactly.operand {f : FpFormat} {x : Fp} {v : ℚ} (h : holdsExactly f x v) :
    f.operand x = x := operand_of_isValue h.1

/-- The exact value of a finite datum, as a sign and a magnitude. -/
theorem value?_finite (b : Bool) (m : Nat) (e : Int) :
    (Fp.finite b m e).value? = some ((if b then -1 else 1) * ((m : ℚ) * 2 ^ e)) := by
  cases b <;> simp [Fp.value?, signedMant]

/-- A datum with an exact value is finite. -/
theorem exists_finite_of_value? {x : Fp} {v : ℚ} (h : x.value? = some v) :
    ∃ b m e, x = .finite b m e ∧ v = (if b then -1 else 1) * ((m : ℚ) * 2 ^ e) := by
  cases x with
  | nan => cases h
  | infinite b => cases h
  | finite b m e => rw [value?_finite] at h; exact ⟨b, m, e, rfl, (Option.some.inj h).symm⟩

/-- Rounding a value of the format gives that value. -/
theorem round_holds {f : FpFormat} {neg : Bool} {num den : Nat} {e : Int} {r : Fp} {v : ℚ}
    (hd : 0 < den) (hv : v = (if neg then -1 else 1) * ((num : ℚ) / den * 2 ^ e))
    (hr : holdsExactly f r v) : holdsExactly f (f.round neg num den e) v := by
  refine ⟨f.round_isValue neg num hd e, ?_⟩
  have hdq : (0 : ℚ) < den := by exact_mod_cast hd
  rcases Nat.eq_zero_or_pos num with rfl | hn
  · rw [FpFormat.round, if_pos rfl, value?_finite, hv]; simp
  · have hpos : (0 : ℚ) < (num : ℚ) / den * 2 ^ e := by
      have : (0 : ℚ) < num := by exact_mod_cast hn
      positivity
    obtain ⟨b, m, q, rfl, hm⟩ := exists_finite_of_value? hr.2
    have mag : (num : ℚ) / den * 2 ^ e = m * 2 ^ q := by
      have h0 : (0 : ℚ) ≤ m * 2 ^ q := by positivity
      have := congrArg abs (hv.symm.trans hm)
      have s : ∀ b : Bool, |(if b then (-1 : ℚ) else 1)| = 1 := by intro b; cases b <;> simp
      rwa [abs_mul, s, abs_mul _ (_ * _), s, one_mul, one_mul, abs_of_pos hpos, abs_of_nonneg h0]
        at this
    have m0 : 0 < m := by
      rcases Nat.eq_zero_or_pos m with rfl | h
      · rw [mag] at hpos; simp at hpos
      · exact h
    have hv' : f.isValue (.finite neg m q) := hr.1
    rw [f.round_exact neg hd m0 hv' mag, value?_finite, hv, mag]

theorem signedMant_eq (b : Bool) (m : Nat) :
    ((signedMant b m : Int) : ℚ) = (if b then -1 else 1) * (m : ℚ) := by
  cases b <;> simp [signedMant]

/-- The sum that `addCore` takes before it rounds. -/
theorem scaled_sum (a b : Int) (ea eb : Int) :
    ((a * 2 ^ (ea - min ea eb).toNat + b * 2 ^ (eb - min ea eb).toNat : Int) : ℚ) * 2 ^ min ea eb =
      a * 2 ^ ea + b * 2 ^ eb := by
  have h : ∀ x : Int, min ea eb ≤ x → ((2 : ℚ) ^ (x - min ea eb).toNat) * 2 ^ min ea eb = 2 ^ x := by
    intro x hx
    rw [← zpow_natCast, ← zpow_add₀ (by norm_num), Int.toNat_of_nonneg (by omega)]
    congr 1; omega
  push_cast
  rw [add_mul, mul_assoc, mul_assoc, h ea (min_le_left _ _), h eb (min_le_right _ _)]

/-- `addCore` on finite operands is a rounding of the exact sum. -/
theorem addCore_finite (f : FpFormat) (na nb : Bool) (ma mb : Nat) (ea eb : Int) :
    ∃ (neg : Bool) (n : Nat) (e : Int),
      ((if na then -1 else 1) * ((ma : ℚ) * 2 ^ ea) + (if nb then -1 else 1) * ((mb : ℚ) * 2 ^ eb) =
        (if neg then -1 else 1) * ((n : ℚ) / (1 : Nat) * 2 ^ e)) ∧
      f.addCore (.finite na ma ea) (.finite nb mb eb) = f.round neg n 1 e := by
  have key := scaled_sum (signedMant na ma) (signedMant nb mb) ea eb
  rw [signedMant_eq, signedMant_eq, mul_assoc, mul_assoc] at key
  unfold FpFormat.addCore
  simp only
  generalize signedMant na ma * 2 ^ (ea - min ea eb).toNat +
    signedMant nb mb * 2 ^ (eb - min ea eb).toNat = sum at key
  by_cases h : sum = 0
  · refine ⟨na && nb, 0, 0, ?_, by simp [h, FpFormat.round]⟩
    rw [← key, h]; simp
  · refine ⟨sum < 0, sum.natAbs, min ea eb, ?_, if_neg h⟩
    rw [← key, Nat.cast_one, div_one, ← mul_assoc]
    congr 1
    have : ((sum.natAbs : Nat) : ℚ) = |(sum : ℚ)| := by
      rw [← Int.cast_abs, Int.abs_eq_natAbs, Int.cast_natCast]
    rw [this]
    by_cases hs : sum < 0
    · have : (sum : ℚ) < 0 := by exact_mod_cast hs
      simp [hs, abs_of_neg this]
    · have : (0 : ℚ) ≤ sum := by exact_mod_cast not_lt.mp hs
      simp [hs, abs_of_nonneg this]

theorem neg_value? {x : Fp} {v : ℚ} (h : x.value? = some v) : x.neg.value? = some (-v) := by
  obtain ⟨b, m, e, rfl, rfl⟩ := exists_finite_of_value? h
  rw [Fp.neg, value?_finite]
  cases b <;> simp

/-- The sum, where it needs no rounding. -/
theorem add_holds {f : FpFormat} {x y r : Fp} {v w : ℚ} (hx : holdsExactly f x v)
    (hy : holdsExactly f y w) (hr : holdsExactly f r (v + w)) : holdsExactly f (f.add x y) (v + w) := by
  rw [FpFormat.add, hx.operand, hy.operand]
  obtain ⟨a, m, e, rfl, rfl⟩ := exists_finite_of_value? hx.2
  obtain ⟨b, n, k, rfl, rfl⟩ := exists_finite_of_value? hy.2
  obtain ⟨neg, num, q, hv, h⟩ := addCore_finite f a b m n e k
  rw [h]
  exact round_holds one_pos hv hr

/-- The difference, where it needs no rounding. -/
theorem sub_holds {f : FpFormat} {x y r : Fp} {v w : ℚ} (hx : holdsExactly f x v)
    (hy : holdsExactly f y w) (hr : holdsExactly f r (v - w)) : holdsExactly f (f.sub x y) (v - w) := by
  rw [FpFormat.sub, hx.operand, hy.operand]
  have hn := neg_value? hy.2
  obtain ⟨a, m, e, rfl, rfl⟩ := exists_finite_of_value? hx.2
  obtain ⟨b, n, k, hb, hw⟩ := exists_finite_of_value? hn
  obtain ⟨neg, num, q, hv, h⟩ := addCore_finite f a b m n e k
  rw [hb, h]
  refine round_holds one_pos ?_ hr
  rw [sub_eq_add_neg, hw, hv]

/-- The product, where it needs no rounding. -/
theorem mul_holds {f : FpFormat} {x y r : Fp} {v w : ℚ} (hx : holdsExactly f x v)
    (hy : holdsExactly f y w) (hr : holdsExactly f r (v * w)) : holdsExactly f (f.mul x y) (v * w) := by
  rw [FpFormat.mul, hx.operand, hy.operand]
  obtain ⟨a, m, e, rfl, rfl⟩ := exists_finite_of_value? hx.2
  obtain ⟨b, n, k, rfl, rfl⟩ := exists_finite_of_value? hy.2
  refine round_holds one_pos ?_ hr
  rw [zpow_add₀ (by norm_num)]
  cases a <;> cases b <;> simp <;> ring

end Sys2Proof.Machine
end

