-- ==== Sys2Proof/Laws/Memory.lean ====
section
/-! SUPPORT. The laws of memory: a read after a write, and that every operation keeps the canonical
form and the address bound. -/

namespace Sys2Proof.Machine

variable {w : Nat}

@[simp] theorem Memory.read_nil (a : Nat) : Memory.read ([] : Memory w) a = 0 := rfl

theorem Memory.read_cons (k : Nat) (v : BitVec w) (m : Memory w) (a : Nat) :
    Memory.read ((k, v) :: m) a = if a = k then v else Memory.read m a := rfl

theorem Memory.read_eq_zero {m : Memory w} {a : Nat} (h : ∀ c ∈ m, c.1 ≠ a) : m.read a = 0 := by
  induction m with
  | nil => rfl
  | cons c m ih =>
    obtain ⟨k, v⟩ := c
    have hk : a ≠ k := fun e => h (k, v) (by simp) e.symm
    rw [Memory.read_cons, if_neg hk]
    exact ih fun c hc => h c (by simp [hc])

theorem Memory.mem_forget {m : Memory w} {a : Nat} {c : Nat × BitVec w} :
    c ∈ m.forget a ↔ c ∈ m ∧ c.1 ≠ a := by
  simp [Memory.forget]

theorem Memory.read_forget (m : Memory w) (a b : Nat) :
    (m.forget a).read b = if b = a then 0 else m.read b := by
  induction m with
  | nil => simp [Memory.forget]
  | cons c m ih =>
    obtain ⟨k, v⟩ := c
    by_cases hk : k = a
    · have : Memory.forget ((k, v) :: m) a = Memory.forget m a := by simp [Memory.forget, hk]
      rw [this, ih, Memory.read_cons]
      split <;> simp_all
    · have : Memory.forget ((k, v) :: m) a = (k, v) :: Memory.forget m a := by simp [Memory.forget, hk]
      rw [this, Memory.read_cons, Memory.read_cons, ih]
      split <;> split <;> simp_all

theorem Memory.read_place {m : Memory w} {a : Nat} (h : ∀ c ∈ m, c.1 ≠ a) (v : BitVec w) (b : Nat) :
    (Memory.place m a v).read b = if b = a then v else m.read b := by
  induction m with
  | nil => rfl
  | cons c m ih =>
    obtain ⟨k, x⟩ := c
    have hk : k ≠ a := h (k, x) (by simp)
    unfold Memory.place
    split
    · rw [Memory.read_cons]
    · rw [Memory.read_cons, Memory.read_cons, ih fun c hc => h c (by simp [hc])]
      split <;> split <;> simp_all

/-- A read after a write: the value written at its address, the old value anywhere else. -/
theorem Memory.read_write (m : Memory w) (a : Nat) (v : BitVec w) (b : Nat) :
    (m.write a v).read b = if b = a then v else m.read b := by
  unfold Memory.write
  split
  · rename_i h
    rw [Memory.read_forget, h]
  · rw [Memory.read_place (fun c hc => (Memory.mem_forget.mp hc).2), Memory.read_forget]
    split <;> simp_all

@[simp] theorem Memory.read_write_same (m : Memory w) (a : Nat) (v : BitVec w) :
    (m.write a v).read a = v := by simp [Memory.read_write]

theorem Memory.read_write_other (m : Memory w) {a b : Nat} (v : BitVec w) (h : b ≠ a) :
    (m.write a v).read b = m.read b := by simp [Memory.read_write, h]

theorem Memory.mem_place {m : Memory w} {a : Nat} {v : BitVec w} {c : Nat × BitVec w} :
    c ∈ Memory.place m a v ↔ c = (a, v) ∨ c ∈ m := by
  induction m with
  | nil => simp [Memory.place]
  | cons d m ih =>
    unfold Memory.place
    split
    · simp
    · rw [List.mem_cons, ih, List.mem_cons]
      tauto

theorem Memory.forget_wf {m : Memory w} (h : m.wf) (a : Nat) : (m.forget a).wf :=
  ⟨h.1.filter _, fun c hc => h.2 c (Memory.mem_forget.mp hc).1⟩

theorem Memory.place_wf {m : Memory w} (h : m.wf) {a : Nat} (ha : ∀ c ∈ m, c.1 ≠ a) {v : BitVec w}
    (hv : v ≠ 0) : Memory.wf (Memory.place m a v) := by
  refine ⟨?_, fun c hc => (Memory.mem_place.mp hc).elim (fun e => e ▸ hv) (h.2 c)⟩
  obtain ⟨h, -⟩ := h
  induction m with
  | nil => simp [Memory.place]
  | cons d m ih =>
    obtain ⟨hd, hm⟩ := List.pairwise_cons.mp h
    unfold Memory.place
    split
    · rename_i hlt
      refine List.pairwise_cons.mpr ⟨fun c hc => ?_, h⟩
      rcases List.mem_cons.mp hc with rfl | hc
      · exact hlt
      · exact Nat.lt_trans hlt (hd c hc)
    · rename_i hlt
      have hda := ha d (by simp)
      refine List.pairwise_cons.mpr ⟨fun c hc => ?_, ih (fun c hc => ha c (by simp [hc])) hm⟩
      rcases Memory.mem_place.mp hc with rfl | hc
      · simp only at hlt hda ⊢; omega
      · exact hd c hc

/-- A write keeps the canonical form. -/
theorem Memory.write_wf {m : Memory w} (h : m.wf) (a : Nat) (v : BitVec w) : (m.write a v).wf := by
  unfold Memory.write
  split
  · exact Memory.forget_wf h a
  · exact Memory.place_wf (Memory.forget_wf h a) (fun c hc => (Memory.mem_forget.mp hc).2) ‹_›

/-- A write below `n` keeps every address below `n`. -/
theorem Memory.write_below {m : Memory w} {n : Nat} (h : m.below n) {a : Nat} (ha : a < n)
    (v : BitVec w) : (m.write a v).below n := by
  intro c hc
  unfold Memory.write at hc
  split at hc
  · exact h c (Memory.mem_forget.mp hc).1
  · rcases Memory.mem_place.mp hc with rfl | hc
    · exact ha
    · exact h c (Memory.mem_forget.mp hc).1

theorem Memory.ofCells_le (l : List (BitVec w)) (a : Nat) :
    ∀ c ∈ Memory.ofCells a l, a ≤ c.1 ∧ c.1 < a + l.length := by
  induction l generalizing a with
  | nil => simp [Memory.ofCells]
  | cons v l ih =>
    intro c hc
    unfold Memory.ofCells at hc
    have step : c ∈ Memory.ofCells (a + 1) l → a ≤ c.1 ∧ c.1 < a + (v :: l).length := by
      intro h
      have := ih (a + 1) c h
      simp only [List.length_cons]
      omega
    split at hc
    · exact step hc
    · rcases List.mem_cons.mp hc with rfl | hc
      · simp
      · exact step hc

/-- A memory made from a list of cells is canonical. -/
theorem Memory.ofCells_wf (l : List (BitVec w)) (a : Nat) : (Memory.ofCells a l).wf := by
  induction l generalizing a with
  | nil => exact ⟨.nil, by simp [Memory.ofCells]⟩
  | cons v l ih =>
    unfold Memory.ofCells
    split
    · exact ih (a + 1)
    · rename_i hv
      refine ⟨List.pairwise_cons.mpr ⟨fun c hc => ?_, (ih (a + 1)).1⟩, fun c hc => ?_⟩
      · have := (Memory.ofCells_le l (a + 1) c hc).1
        simp only; omega
      · rcases List.mem_cons.mp hc with rfl | hc
        · exact hv
        · exact (ih (a + 1)).2 c hc

/-- A memory made from a list of cells reads as the list. -/
theorem Memory.read_ofCells (l : List (BitVec w)) (a k : Nat) (h : k < l.length) :
    (Memory.ofCells a l).read (a + k) = l[k] := by
  induction l generalizing a k with
  | nil => simp at h
  | cons v l ih =>
    unfold Memory.ofCells
    cases k with
    | zero =>
      split
      · rename_i hv
        rw [Memory.read_eq_zero, hv]
        · simp
        · intro c hc
          have := (Memory.ofCells_le l (a + 1) c hc).1
          omega
      · simp [Memory.read_cons]
    | succ k =>
      have hk : k < l.length := by simpa using h
      have e : a + (k + 1) = a + 1 + k := by omega
      rw [e]
      split
      · simpa using ih (a + 1) k hk
      · rw [Memory.read_cons, if_neg (by omega)]
        simpa using ih (a + 1) k hk

end Sys2Proof.Machine
end

