-- ==== Sys2Proof/Laws/State.lean ====
section
/-! SUPPORT. What each named update of State leaves in each field: one lemma per field and update. -/

namespace Sys2Proof.Machine

/-! ### setLatches -/

section
variable (s : State) (x y : Word)

@[simp] theorem State.setLatches_rom : (s.setLatches x y).rom = s.rom := rfl
@[simp] theorem State.setLatches_fp : (s.setLatches x y).fp = s.fp := rfl
@[simp] theorem State.setLatches_scratchOk : (s.setLatches x y).scratchOk = s.scratchOk := rfl
@[simp] theorem State.setLatches_acc : (s.setLatches x y).acc = s.acc := rfl
@[simp] theorem State.setLatches_li : (s.setLatches x y).li = y := rfl
@[simp] theorem State.setLatches_ai : (s.setLatches x y).ai = x := rfl
@[simp] theorem State.setLatches_ptr : (s.setLatches x y).ptr = s.ptr := rfl
@[simp] theorem State.setLatches_stepIdx : (s.setLatches x y).stepIdx = s.stepIdx := rfl
@[simp] theorem State.setLatches_dspIn : (s.setLatches x y).dspIn = s.dspIn := rfl
@[simp] theorem State.setLatches_outL : (s.setLatches x y).outL = s.outL := rfl
@[simp] theorem State.setLatches_outR : (s.setLatches x y).outR = s.outR := rfl
@[simp] theorem State.setLatches_progIndex : (s.setLatches x y).progIndex = s.progIndex := rfl
@[simp] theorem State.setLatches_baseOffset : (s.setLatches x y).baseOffset = s.baseOffset := rfl
@[simp] theorem State.setLatches_svf1 : (s.setLatches x y).svf1 = s.svf1 := rfl
@[simp] theorem State.setLatches_svf2 : (s.setLatches x y).svf2 = s.svf2 := rfl
@[simp] theorem State.setLatches_ram : (s.setLatches x y).ram = s.ram := rfl
@[simp] theorem State.setLatches_mark : (s.setLatches x y).mark = s.mark := rfl
@[simp] theorem State.setLatches_status : (s.setLatches x y).status = s.status := rfl
@[simp] theorem State.setLatches_phase : (s.setLatches x y).phase = s.phase := rfl
@[simp] theorem State.setLatches_calls : (s.setLatches x y).calls = s.calls := rfl
@[simp] theorem State.setLatches_result : (s.setLatches x y).result = s.result := rfl
@[simp] theorem State.setLatches_host : (s.setLatches x y).host = s.host := rfl
@[simp] theorem State.setLatches_draws : (s.setLatches x y).draws = s.draws := rfl

end

/-! ### setAi -/

section
variable (s : State) (x : Word)

@[simp] theorem State.setAi_rom : (s.setAi x).rom = s.rom := rfl
@[simp] theorem State.setAi_fp : (s.setAi x).fp = s.fp := rfl
@[simp] theorem State.setAi_scratchOk : (s.setAi x).scratchOk = s.scratchOk := rfl
@[simp] theorem State.setAi_acc : (s.setAi x).acc = s.acc := rfl
@[simp] theorem State.setAi_li : (s.setAi x).li = s.li := rfl
@[simp] theorem State.setAi_ai : (s.setAi x).ai = x := rfl
@[simp] theorem State.setAi_ptr : (s.setAi x).ptr = s.ptr := rfl
@[simp] theorem State.setAi_stepIdx : (s.setAi x).stepIdx = s.stepIdx := rfl
@[simp] theorem State.setAi_dspIn : (s.setAi x).dspIn = s.dspIn := rfl
@[simp] theorem State.setAi_outL : (s.setAi x).outL = s.outL := rfl
@[simp] theorem State.setAi_outR : (s.setAi x).outR = s.outR := rfl
@[simp] theorem State.setAi_progIndex : (s.setAi x).progIndex = s.progIndex := rfl
@[simp] theorem State.setAi_baseOffset : (s.setAi x).baseOffset = s.baseOffset := rfl
@[simp] theorem State.setAi_svf1 : (s.setAi x).svf1 = s.svf1 := rfl
@[simp] theorem State.setAi_svf2 : (s.setAi x).svf2 = s.svf2 := rfl
@[simp] theorem State.setAi_ram : (s.setAi x).ram = s.ram := rfl
@[simp] theorem State.setAi_mark : (s.setAi x).mark = s.mark := rfl
@[simp] theorem State.setAi_status : (s.setAi x).status = s.status := rfl
@[simp] theorem State.setAi_phase : (s.setAi x).phase = s.phase := rfl
@[simp] theorem State.setAi_calls : (s.setAi x).calls = s.calls := rfl
@[simp] theorem State.setAi_result : (s.setAi x).result = s.result := rfl
@[simp] theorem State.setAi_host : (s.setAi x).host = s.host := rfl
@[simp] theorem State.setAi_draws : (s.setAi x).draws = s.draws := rfl

end

/-! ### setAcc -/

section
variable (s : State) (x : Word)

@[simp] theorem State.setAcc_rom : (s.setAcc x).rom = s.rom := rfl
@[simp] theorem State.setAcc_fp : (s.setAcc x).fp = s.fp := rfl
@[simp] theorem State.setAcc_scratchOk : (s.setAcc x).scratchOk = s.scratchOk := rfl
@[simp] theorem State.setAcc_acc : (s.setAcc x).acc = x := rfl
@[simp] theorem State.setAcc_li : (s.setAcc x).li = s.li := rfl
@[simp] theorem State.setAcc_ai : (s.setAcc x).ai = s.ai := rfl
@[simp] theorem State.setAcc_ptr : (s.setAcc x).ptr = s.ptr := rfl
@[simp] theorem State.setAcc_stepIdx : (s.setAcc x).stepIdx = s.stepIdx := rfl
@[simp] theorem State.setAcc_dspIn : (s.setAcc x).dspIn = s.dspIn := rfl
@[simp] theorem State.setAcc_outL : (s.setAcc x).outL = s.outL := rfl
@[simp] theorem State.setAcc_outR : (s.setAcc x).outR = s.outR := rfl
@[simp] theorem State.setAcc_progIndex : (s.setAcc x).progIndex = s.progIndex := rfl
@[simp] theorem State.setAcc_baseOffset : (s.setAcc x).baseOffset = s.baseOffset := rfl
@[simp] theorem State.setAcc_svf1 : (s.setAcc x).svf1 = s.svf1 := rfl
@[simp] theorem State.setAcc_svf2 : (s.setAcc x).svf2 = s.svf2 := rfl
@[simp] theorem State.setAcc_ram : (s.setAcc x).ram = s.ram := rfl
@[simp] theorem State.setAcc_mark : (s.setAcc x).mark = s.mark := rfl
@[simp] theorem State.setAcc_status : (s.setAcc x).status = s.status := rfl
@[simp] theorem State.setAcc_phase : (s.setAcc x).phase = s.phase := rfl
@[simp] theorem State.setAcc_calls : (s.setAcc x).calls = s.calls := rfl
@[simp] theorem State.setAcc_result : (s.setAcc x).result = s.result := rfl
@[simp] theorem State.setAcc_host : (s.setAcc x).host = s.host := rfl
@[simp] theorem State.setAcc_draws : (s.setAcc x).draws = s.draws := rfl

end

/-! ### setOutL -/

section
variable (s : State) (x : Word)

@[simp] theorem State.setOutL_rom : (s.setOutL x).rom = s.rom := rfl
@[simp] theorem State.setOutL_fp : (s.setOutL x).fp = s.fp := rfl
@[simp] theorem State.setOutL_scratchOk : (s.setOutL x).scratchOk = s.scratchOk := rfl
@[simp] theorem State.setOutL_acc : (s.setOutL x).acc = s.acc := rfl
@[simp] theorem State.setOutL_li : (s.setOutL x).li = s.li := rfl
@[simp] theorem State.setOutL_ai : (s.setOutL x).ai = s.ai := rfl
@[simp] theorem State.setOutL_ptr : (s.setOutL x).ptr = s.ptr := rfl
@[simp] theorem State.setOutL_stepIdx : (s.setOutL x).stepIdx = s.stepIdx := rfl
@[simp] theorem State.setOutL_dspIn : (s.setOutL x).dspIn = s.dspIn := rfl
@[simp] theorem State.setOutL_outL : (s.setOutL x).outL = x := rfl
@[simp] theorem State.setOutL_outR : (s.setOutL x).outR = s.outR := rfl
@[simp] theorem State.setOutL_progIndex : (s.setOutL x).progIndex = s.progIndex := rfl
@[simp] theorem State.setOutL_baseOffset : (s.setOutL x).baseOffset = s.baseOffset := rfl
@[simp] theorem State.setOutL_svf1 : (s.setOutL x).svf1 = s.svf1 := rfl
@[simp] theorem State.setOutL_svf2 : (s.setOutL x).svf2 = s.svf2 := rfl
@[simp] theorem State.setOutL_ram : (s.setOutL x).ram = s.ram := rfl
@[simp] theorem State.setOutL_mark : (s.setOutL x).mark = s.mark := rfl
@[simp] theorem State.setOutL_status : (s.setOutL x).status = s.status := rfl
@[simp] theorem State.setOutL_phase : (s.setOutL x).phase = s.phase := rfl
@[simp] theorem State.setOutL_calls : (s.setOutL x).calls = s.calls := rfl
@[simp] theorem State.setOutL_result : (s.setOutL x).result = s.result := rfl
@[simp] theorem State.setOutL_host : (s.setOutL x).host = s.host := rfl
@[simp] theorem State.setOutL_draws : (s.setOutL x).draws = s.draws := rfl

end

/-! ### setOutR -/

section
variable (s : State) (x : Word)

@[simp] theorem State.setOutR_rom : (s.setOutR x).rom = s.rom := rfl
@[simp] theorem State.setOutR_fp : (s.setOutR x).fp = s.fp := rfl
@[simp] theorem State.setOutR_scratchOk : (s.setOutR x).scratchOk = s.scratchOk := rfl
@[simp] theorem State.setOutR_acc : (s.setOutR x).acc = s.acc := rfl
@[simp] theorem State.setOutR_li : (s.setOutR x).li = s.li := rfl
@[simp] theorem State.setOutR_ai : (s.setOutR x).ai = s.ai := rfl
@[simp] theorem State.setOutR_ptr : (s.setOutR x).ptr = s.ptr := rfl
@[simp] theorem State.setOutR_stepIdx : (s.setOutR x).stepIdx = s.stepIdx := rfl
@[simp] theorem State.setOutR_dspIn : (s.setOutR x).dspIn = s.dspIn := rfl
@[simp] theorem State.setOutR_outL : (s.setOutR x).outL = s.outL := rfl
@[simp] theorem State.setOutR_outR : (s.setOutR x).outR = x := rfl
@[simp] theorem State.setOutR_progIndex : (s.setOutR x).progIndex = s.progIndex := rfl
@[simp] theorem State.setOutR_baseOffset : (s.setOutR x).baseOffset = s.baseOffset := rfl
@[simp] theorem State.setOutR_svf1 : (s.setOutR x).svf1 = s.svf1 := rfl
@[simp] theorem State.setOutR_svf2 : (s.setOutR x).svf2 = s.svf2 := rfl
@[simp] theorem State.setOutR_ram : (s.setOutR x).ram = s.ram := rfl
@[simp] theorem State.setOutR_mark : (s.setOutR x).mark = s.mark := rfl
@[simp] theorem State.setOutR_status : (s.setOutR x).status = s.status := rfl
@[simp] theorem State.setOutR_phase : (s.setOutR x).phase = s.phase := rfl
@[simp] theorem State.setOutR_calls : (s.setOutR x).calls = s.calls := rfl
@[simp] theorem State.setOutR_result : (s.setOutR x).result = s.result := rfl
@[simp] theorem State.setOutR_host : (s.setOutR x).host = s.host := rfl
@[simp] theorem State.setOutR_draws : (s.setOutR x).draws = s.draws := rfl

end

/-! ### ramWrite -/

section
variable (s : State) (a : ScratchAddr) (v : Word)

@[simp] theorem State.ramWrite_rom : (s.ramWrite a v).rom = s.rom := rfl
@[simp] theorem State.ramWrite_fp : (s.ramWrite a v).fp = s.fp := rfl
@[simp] theorem State.ramWrite_scratchOk : (s.ramWrite a v).scratchOk = s.scratchOk := rfl
@[simp] theorem State.ramWrite_acc : (s.ramWrite a v).acc = s.acc := rfl
@[simp] theorem State.ramWrite_li : (s.ramWrite a v).li = s.li := rfl
@[simp] theorem State.ramWrite_ai : (s.ramWrite a v).ai = s.ai := rfl
@[simp] theorem State.ramWrite_ptr : (s.ramWrite a v).ptr = s.ptr := rfl
@[simp] theorem State.ramWrite_stepIdx : (s.ramWrite a v).stepIdx = s.stepIdx := rfl
@[simp] theorem State.ramWrite_dspIn : (s.ramWrite a v).dspIn = s.dspIn := rfl
@[simp] theorem State.ramWrite_outL : (s.ramWrite a v).outL = s.outL := rfl
@[simp] theorem State.ramWrite_outR : (s.ramWrite a v).outR = s.outR := rfl
@[simp] theorem State.ramWrite_progIndex : (s.ramWrite a v).progIndex = s.progIndex := rfl
@[simp] theorem State.ramWrite_baseOffset : (s.ramWrite a v).baseOffset = s.baseOffset := rfl
@[simp] theorem State.ramWrite_svf1 : (s.ramWrite a v).svf1 = s.svf1 := rfl
@[simp] theorem State.ramWrite_svf2 : (s.ramWrite a v).svf2 = s.svf2 := rfl
@[simp] theorem State.ramWrite_ram : (s.ramWrite a v).ram = s.ram.write a.toNat v := rfl
@[simp] theorem State.ramWrite_mark : (s.ramWrite a v).mark = s.mark := rfl
@[simp] theorem State.ramWrite_status : (s.ramWrite a v).status = s.status := rfl
@[simp] theorem State.ramWrite_phase : (s.ramWrite a v).phase = s.phase := rfl
@[simp] theorem State.ramWrite_calls : (s.ramWrite a v).calls = s.calls := rfl
@[simp] theorem State.ramWrite_result : (s.ramWrite a v).result = s.result := rfl
@[simp] theorem State.ramWrite_host : (s.ramWrite a v).host = s.host := rfl
@[simp] theorem State.ramWrite_draws : (s.ramWrite a v).draws = s.draws := rfl

end

/-! ### advance -/

section
variable (s : State) (d : ScratchAddr)

@[simp] theorem State.advance_rom : (s.advance d).rom = s.rom := rfl
@[simp] theorem State.advance_fp : (s.advance d).fp = s.fp := rfl
@[simp] theorem State.advance_scratchOk : (s.advance d).scratchOk = s.scratchOk := rfl
@[simp] theorem State.advance_acc : (s.advance d).acc = s.acc := rfl
@[simp] theorem State.advance_li : (s.advance d).li = s.li := rfl
@[simp] theorem State.advance_ai : (s.advance d).ai = s.ai := rfl
@[simp] theorem State.advance_ptr : (s.advance d).ptr = s.ptr + d := rfl
@[simp] theorem State.advance_stepIdx : (s.advance d).stepIdx = s.stepIdx + 1 := rfl
@[simp] theorem State.advance_dspIn : (s.advance d).dspIn = s.dspIn := rfl
@[simp] theorem State.advance_outL : (s.advance d).outL = s.outL := rfl
@[simp] theorem State.advance_outR : (s.advance d).outR = s.outR := rfl
@[simp] theorem State.advance_progIndex : (s.advance d).progIndex = s.progIndex := rfl
@[simp] theorem State.advance_baseOffset : (s.advance d).baseOffset = s.baseOffset := rfl
@[simp] theorem State.advance_svf1 : (s.advance d).svf1 = s.svf1 := rfl
@[simp] theorem State.advance_svf2 : (s.advance d).svf2 = s.svf2 := rfl
@[simp] theorem State.advance_ram : (s.advance d).ram = s.ram := rfl
@[simp] theorem State.advance_mark : (s.advance d).mark = s.mark := rfl
@[simp] theorem State.advance_status : (s.advance d).status = s.status := rfl
@[simp] theorem State.advance_phase : (s.advance d).phase = s.phase.afterStep s.stepIdx := rfl
@[simp] theorem State.advance_calls : (s.advance d).calls = s.calls := rfl
@[simp] theorem State.advance_result : (s.advance d).result = s.result := rfl
@[simp] theorem State.advance_host : (s.advance d).host = s.host := rfl
@[simp] theorem State.advance_draws : (s.advance d).draws = s.draws := rfl

end

/-! ### setSelection -/

section
variable (s : State) (i : ProgIndex) (b : RomAddr)

@[simp] theorem State.setSelection_rom : (s.setSelection i b).rom = s.rom := rfl
@[simp] theorem State.setSelection_fp : (s.setSelection i b).fp = s.fp := rfl
@[simp] theorem State.setSelection_scratchOk : (s.setSelection i b).scratchOk = s.scratchOk := rfl
@[simp] theorem State.setSelection_acc : (s.setSelection i b).acc = s.acc := rfl
@[simp] theorem State.setSelection_li : (s.setSelection i b).li = s.li := rfl
@[simp] theorem State.setSelection_ai : (s.setSelection i b).ai = s.ai := rfl
@[simp] theorem State.setSelection_ptr : (s.setSelection i b).ptr = s.ptr := rfl
@[simp] theorem State.setSelection_stepIdx : (s.setSelection i b).stepIdx = s.stepIdx := rfl
@[simp] theorem State.setSelection_dspIn : (s.setSelection i b).dspIn = s.dspIn := rfl
@[simp] theorem State.setSelection_outL : (s.setSelection i b).outL = s.outL := rfl
@[simp] theorem State.setSelection_outR : (s.setSelection i b).outR = s.outR := rfl
@[simp] theorem State.setSelection_progIndex : (s.setSelection i b).progIndex = i := rfl
@[simp] theorem State.setSelection_baseOffset : (s.setSelection i b).baseOffset = b := rfl
@[simp] theorem State.setSelection_svf1 : (s.setSelection i b).svf1 = s.svf1 := rfl
@[simp] theorem State.setSelection_svf2 : (s.setSelection i b).svf2 = s.svf2 := rfl
@[simp] theorem State.setSelection_ram : (s.setSelection i b).ram = s.ram := rfl
@[simp] theorem State.setSelection_mark : (s.setSelection i b).mark = s.mark := rfl
@[simp] theorem State.setSelection_status : (s.setSelection i b).status = s.status := rfl
@[simp] theorem State.setSelection_phase : (s.setSelection i b).phase = s.phase := rfl
@[simp] theorem State.setSelection_calls : (s.setSelection i b).calls = s.calls := rfl
@[simp] theorem State.setSelection_result : (s.setSelection i b).result = s.result := rfl
@[simp] theorem State.setSelection_host : (s.setSelection i b).host = s.host := rfl
@[simp] theorem State.setSelection_draws : (s.setSelection i b).draws = s.draws := rfl

end

/-! ### setFilters -/

section
variable (s : State) (a b : SvfStage)

@[simp] theorem State.setFilters_rom : (s.setFilters a b).rom = s.rom := rfl
@[simp] theorem State.setFilters_fp : (s.setFilters a b).fp = s.fp := rfl
@[simp] theorem State.setFilters_scratchOk : (s.setFilters a b).scratchOk = s.scratchOk := rfl
@[simp] theorem State.setFilters_acc : (s.setFilters a b).acc = s.acc := rfl
@[simp] theorem State.setFilters_li : (s.setFilters a b).li = s.li := rfl
@[simp] theorem State.setFilters_ai : (s.setFilters a b).ai = s.ai := rfl
@[simp] theorem State.setFilters_ptr : (s.setFilters a b).ptr = s.ptr := rfl
@[simp] theorem State.setFilters_stepIdx : (s.setFilters a b).stepIdx = s.stepIdx := rfl
@[simp] theorem State.setFilters_dspIn : (s.setFilters a b).dspIn = s.dspIn := rfl
@[simp] theorem State.setFilters_outL : (s.setFilters a b).outL = s.outL := rfl
@[simp] theorem State.setFilters_outR : (s.setFilters a b).outR = s.outR := rfl
@[simp] theorem State.setFilters_progIndex : (s.setFilters a b).progIndex = s.progIndex := rfl
@[simp] theorem State.setFilters_baseOffset : (s.setFilters a b).baseOffset = s.baseOffset := rfl
@[simp] theorem State.setFilters_svf1 : (s.setFilters a b).svf1 = a := rfl
@[simp] theorem State.setFilters_svf2 : (s.setFilters a b).svf2 = b := rfl
@[simp] theorem State.setFilters_ram : (s.setFilters a b).ram = s.ram := rfl
@[simp] theorem State.setFilters_mark : (s.setFilters a b).mark = s.mark := rfl
@[simp] theorem State.setFilters_status : (s.setFilters a b).status = s.status := rfl
@[simp] theorem State.setFilters_phase : (s.setFilters a b).phase = s.phase := rfl
@[simp] theorem State.setFilters_calls : (s.setFilters a b).calls = s.calls := rfl
@[simp] theorem State.setFilters_result : (s.setFilters a b).result = s.result := rfl
@[simp] theorem State.setFilters_host : (s.setFilters a b).host = s.host := rfl
@[simp] theorem State.setFilters_draws : (s.setFilters a b).draws = s.draws := rfl

end

/-! ### beginInvocation -/

section
variable (s : State) (d : Word) (c : RunCall)

@[simp] theorem State.beginInvocation_rom : (s.beginInvocation d c).rom = s.rom := rfl
@[simp] theorem State.beginInvocation_fp : (s.beginInvocation d c).fp = s.fp := rfl
@[simp] theorem State.beginInvocation_scratchOk : (s.beginInvocation d c).scratchOk = s.scratchOk := rfl
@[simp] theorem State.beginInvocation_acc : (s.beginInvocation d c).acc = s.acc := rfl
@[simp] theorem State.beginInvocation_li : (s.beginInvocation d c).li = s.li := rfl
@[simp] theorem State.beginInvocation_ai : (s.beginInvocation d c).ai = s.ai := rfl
@[simp] theorem State.beginInvocation_ptr : (s.beginInvocation d c).ptr = s.ptr := rfl
@[simp] theorem State.beginInvocation_stepIdx : (s.beginInvocation d c).stepIdx = 0 := rfl
@[simp] theorem State.beginInvocation_dspIn : (s.beginInvocation d c).dspIn = d := rfl
@[simp] theorem State.beginInvocation_outL : (s.beginInvocation d c).outL = s.outL := rfl
@[simp] theorem State.beginInvocation_outR : (s.beginInvocation d c).outR = s.outR := rfl
@[simp] theorem State.beginInvocation_progIndex : (s.beginInvocation d c).progIndex = s.progIndex := rfl
@[simp] theorem State.beginInvocation_baseOffset : (s.beginInvocation d c).baseOffset = s.baseOffset := rfl
@[simp] theorem State.beginInvocation_svf1 : (s.beginInvocation d c).svf1 = s.svf1 := rfl
@[simp] theorem State.beginInvocation_svf2 : (s.beginInvocation d c).svf2 = s.svf2 := rfl
@[simp] theorem State.beginInvocation_ram : (s.beginInvocation d c).ram = s.ram := rfl
@[simp] theorem State.beginInvocation_mark : (s.beginInvocation d c).mark = s.mark := rfl
@[simp] theorem State.beginInvocation_status : (s.beginInvocation d c).status = s.status := rfl
@[simp] theorem State.beginInvocation_phase : (s.beginInvocation d c).phase = .engine c := rfl
@[simp] theorem State.beginInvocation_calls : (s.beginInvocation d c).calls = s.calls := rfl
@[simp] theorem State.beginInvocation_result : (s.beginInvocation d c).result = s.result := rfl
@[simp] theorem State.beginInvocation_host : (s.beginInvocation d c).host = s.host := rfl
@[simp] theorem State.beginInvocation_draws : (s.beginInvocation d c).draws = s.draws := rfl

end

/-! ### setPhase -/

section
variable (s : State) (p : Phase)

@[simp] theorem State.setPhase_rom : (s.setPhase p).rom = s.rom := rfl
@[simp] theorem State.setPhase_fp : (s.setPhase p).fp = s.fp := rfl
@[simp] theorem State.setPhase_scratchOk : (s.setPhase p).scratchOk = s.scratchOk := rfl
@[simp] theorem State.setPhase_acc : (s.setPhase p).acc = s.acc := rfl
@[simp] theorem State.setPhase_li : (s.setPhase p).li = s.li := rfl
@[simp] theorem State.setPhase_ai : (s.setPhase p).ai = s.ai := rfl
@[simp] theorem State.setPhase_ptr : (s.setPhase p).ptr = s.ptr := rfl
@[simp] theorem State.setPhase_stepIdx : (s.setPhase p).stepIdx = s.stepIdx := rfl
@[simp] theorem State.setPhase_dspIn : (s.setPhase p).dspIn = s.dspIn := rfl
@[simp] theorem State.setPhase_outL : (s.setPhase p).outL = s.outL := rfl
@[simp] theorem State.setPhase_outR : (s.setPhase p).outR = s.outR := rfl
@[simp] theorem State.setPhase_progIndex : (s.setPhase p).progIndex = s.progIndex := rfl
@[simp] theorem State.setPhase_baseOffset : (s.setPhase p).baseOffset = s.baseOffset := rfl
@[simp] theorem State.setPhase_svf1 : (s.setPhase p).svf1 = s.svf1 := rfl
@[simp] theorem State.setPhase_svf2 : (s.setPhase p).svf2 = s.svf2 := rfl
@[simp] theorem State.setPhase_ram : (s.setPhase p).ram = s.ram := rfl
@[simp] theorem State.setPhase_mark : (s.setPhase p).mark = s.mark := rfl
@[simp] theorem State.setPhase_status : (s.setPhase p).status = s.status := rfl
@[simp] theorem State.setPhase_phase : (s.setPhase p).phase = p := rfl
@[simp] theorem State.setPhase_calls : (s.setPhase p).calls = s.calls := rfl
@[simp] theorem State.setPhase_result : (s.setPhase p).result = s.result := rfl
@[simp] theorem State.setPhase_host : (s.setPhase p).host = s.host := rfl
@[simp] theorem State.setPhase_draws : (s.setPhase p).draws = s.draws := rfl

end

/-! ### finishCall -/

section
variable (s : State) (r : HostResult)

@[simp] theorem State.finishCall_rom : (s.finishCall r).rom = s.rom := rfl
@[simp] theorem State.finishCall_fp : (s.finishCall r).fp = s.fp := rfl
@[simp] theorem State.finishCall_scratchOk : (s.finishCall r).scratchOk = s.scratchOk := rfl
@[simp] theorem State.finishCall_acc : (s.finishCall r).acc = s.acc := rfl
@[simp] theorem State.finishCall_li : (s.finishCall r).li = s.li := rfl
@[simp] theorem State.finishCall_ai : (s.finishCall r).ai = s.ai := rfl
@[simp] theorem State.finishCall_ptr : (s.finishCall r).ptr = s.ptr := rfl
@[simp] theorem State.finishCall_stepIdx : (s.finishCall r).stepIdx = s.stepIdx := rfl
@[simp] theorem State.finishCall_dspIn : (s.finishCall r).dspIn = s.dspIn := rfl
@[simp] theorem State.finishCall_outL : (s.finishCall r).outL = s.outL := rfl
@[simp] theorem State.finishCall_outR : (s.finishCall r).outR = s.outR := rfl
@[simp] theorem State.finishCall_progIndex : (s.finishCall r).progIndex = s.progIndex := rfl
@[simp] theorem State.finishCall_baseOffset : (s.finishCall r).baseOffset = s.baseOffset := rfl
@[simp] theorem State.finishCall_svf1 : (s.finishCall r).svf1 = s.svf1 := rfl
@[simp] theorem State.finishCall_svf2 : (s.finishCall r).svf2 = s.svf2 := rfl
@[simp] theorem State.finishCall_ram : (s.finishCall r).ram = s.ram := rfl
@[simp] theorem State.finishCall_mark : (s.finishCall r).mark = s.mark := rfl
@[simp] theorem State.finishCall_status : (s.finishCall r).status = s.status := rfl
@[simp] theorem State.finishCall_phase : (s.finishCall r).phase = .idle := rfl
@[simp] theorem State.finishCall_calls : (s.finishCall r).calls = s.calls := rfl
@[simp] theorem State.finishCall_result : (s.finishCall r).result = r := rfl
@[simp] theorem State.finishCall_host : (s.finishCall r).host = s.host := rfl
@[simp] theorem State.finishCall_draws : (s.finishCall r).draws = s.draws := rfl

end

/-! ### setHost -/

section
variable (s : State) (m : Memory 8)

@[simp] theorem State.setHost_rom : (s.setHost m).rom = s.rom := rfl
@[simp] theorem State.setHost_fp : (s.setHost m).fp = s.fp := rfl
@[simp] theorem State.setHost_scratchOk : (s.setHost m).scratchOk = s.scratchOk := rfl
@[simp] theorem State.setHost_acc : (s.setHost m).acc = s.acc := rfl
@[simp] theorem State.setHost_li : (s.setHost m).li = s.li := rfl
@[simp] theorem State.setHost_ai : (s.setHost m).ai = s.ai := rfl
@[simp] theorem State.setHost_ptr : (s.setHost m).ptr = s.ptr := rfl
@[simp] theorem State.setHost_stepIdx : (s.setHost m).stepIdx = s.stepIdx := rfl
@[simp] theorem State.setHost_dspIn : (s.setHost m).dspIn = s.dspIn := rfl
@[simp] theorem State.setHost_outL : (s.setHost m).outL = s.outL := rfl
@[simp] theorem State.setHost_outR : (s.setHost m).outR = s.outR := rfl
@[simp] theorem State.setHost_progIndex : (s.setHost m).progIndex = s.progIndex := rfl
@[simp] theorem State.setHost_baseOffset : (s.setHost m).baseOffset = s.baseOffset := rfl
@[simp] theorem State.setHost_svf1 : (s.setHost m).svf1 = s.svf1 := rfl
@[simp] theorem State.setHost_svf2 : (s.setHost m).svf2 = s.svf2 := rfl
@[simp] theorem State.setHost_ram : (s.setHost m).ram = s.ram := rfl
@[simp] theorem State.setHost_mark : (s.setHost m).mark = s.mark := rfl
@[simp] theorem State.setHost_status : (s.setHost m).status = s.status := rfl
@[simp] theorem State.setHost_phase : (s.setHost m).phase = s.phase := rfl
@[simp] theorem State.setHost_calls : (s.setHost m).calls = s.calls := rfl
@[simp] theorem State.setHost_result : (s.setHost m).result = s.result := rfl
@[simp] theorem State.setHost_host : (s.setHost m).host = m := rfl
@[simp] theorem State.setHost_draws : (s.setHost m).draws = s.draws := rfl

end

end Sys2Proof.Machine
end

