-- ==== Sys2Proof/Laws/Ops.lean ====
section
/-! SUPPORT. What each shared operation of the engine and of the host side can do, said once. -/

namespace Sys2Proof.Machine

/-! ### Outcomes -/

@[simp] theorem andThen_next (t : State) (k : State → StepOutcome) : andThen (.next t) k = k t := rfl

@[simp] theorem andThen_fault (r : Fault) (k : State → StepOutcome) :
    andThen (.fault r) k = .fault r := rfl

@[simp] theorem andThen_refused (r : Refusal) (k : State → StepOutcome) :
    andThen (.refused r) k = .refused r := rfl

/-- A sequence answers a next state when both parts do. -/
theorem andThen_eq_next {o : StepOutcome} {k : State → StepOutcome} {u : State} :
    andThen o k = .next u ↔ ∃ t, o = .next t ∧ k t = .next u := by
  cases o <;> simp [andThen]

/-! ### Integer arithmetic -/

theorem wrap16_toInt_eq_bmod (n : Int) : (wrap16 n).toInt = n.bmod 65536 := by
  simp [wrap16]

theorem wrap16_toInt_of_range {n : Int} (h1 : -32768 ≤ n) (h2 : n ≤ 32767) :
    (wrap16 n).toInt = n := by
  rw [wrap16_toInt_eq_bmod, Int.bmod_def]
  omega

theorem clamp_bounds {lo hi : Int} (h : lo ≤ hi) (v : Int) :
    lo ≤ clamp v lo hi ∧ clamp v lo hi ≤ hi := by
  unfold clamp
  split
  · omega
  · split <;> omega

theorem clampWord_toInt (v : Word) : (clampWord v).toInt = clamp v.toInt (-2047) 2047 := by
  have h := clamp_bounds (lo := -2047) (hi := 2047) (by decide) v.toInt
  exact wrap16_toInt_of_range (by simp only [aiLimit]; omega) (by simp only [aiLimit]; omega)

/-! ### The common tail -/

/-- The hook is one of four updates, by the step index alone. -/
theorem State.hook_cases (s : State) :
    (s.stepIdx = 0 ∧ s.hook = s.ramWrite s.ptr s.dspIn) ∨
    (s.stepIdx = 96 ∧ s.hook = s.setOutR s.ai) ∨
    (s.stepIdx = 112 ∧ s.hook = s.setOutL s.ai) ∨
    (s.stepIdx ≠ 0 ∧ s.stepIdx ≠ 96 ∧ s.stepIdx ≠ 112 ∧ s.hook = s.setAcc s.li) := by
  unfold State.hook inputStep rightStep leftStep
  by_cases h0 : s.stepIdx = 0
  · exact .inl ⟨h0, by simp [h0]⟩
  · by_cases h1 : s.stepIdx = 96
    · exact .inr (.inl ⟨h1, by simp [h1]⟩)
    · by_cases h2 : s.stepIdx = 112
      · exact .inr (.inr (.inl ⟨h2, by simp [h2]⟩))
      · exact .inr (.inr (.inr ⟨h0, h1, h2, by rw [if_neg h0, if_neg h1, if_neg h2]⟩))

@[simp] theorem State.clampAi_ai (s : State) : s.clampAi.ai = clampWord s.ai := rfl

/-- The tail of a step, field by field: what it may write. -/
theorem State.finishStep_fields (s : State) (d : ScratchAddr) :
    (s.finishStep d).ai = clampWord s.ai ∧
    (s.finishStep d).li = s.li ∧
    (s.finishStep d).acc =
      (if s.stepIdx = 0 ∨ s.stepIdx = 96 ∨ s.stepIdx = 112 then s.acc else s.li) ∧
    (s.finishStep d).outR = (if s.stepIdx = 96 then clampWord s.ai else s.outR) ∧
    (s.finishStep d).outL = (if s.stepIdx = 112 then clampWord s.ai else s.outL) ∧
    (s.finishStep d).ram = (if s.stepIdx = 0 then s.ram.write s.ptr.toNat s.dspIn else s.ram) ∧
    (s.finishStep d).ptr = s.ptr + d ∧
    (s.finishStep d).stepIdx = s.stepIdx + 1 ∧
    (s.finishStep d).phase = s.phase.afterStep s.stepIdx := by
  have hs : s.clampAi.stepIdx = s.stepIdx := rfl
  unfold State.finishStep
  rcases State.hook_cases s.clampAi with ⟨h, e⟩ | ⟨h, e⟩ | ⟨h, e⟩ | ⟨h0, h1, h2, e⟩
  · rw [e]; clear e; rw [hs] at h; simp [h, State.clampAi]
  · rw [e]; clear e; rw [hs] at h; simp [h, State.clampAi]
  · rw [e]; clear e; rw [hs] at h; simp [h, State.clampAi]
  · rw [e]
    clear e
    rw [hs] at h0 h1 h2
    refine ⟨rfl, rfl, ?_, ?_, ?_, ?_, rfl, rfl, rfl⟩
    · rw [if_neg (by tauto)]; rfl
    · rw [if_neg h1]; rfl
    · rw [if_neg h2]; rfl
    · rw [if_neg h0]; rfl

/-- The tail of a step writes nothing but the engine's registers, the scratch RAM and the phase. -/
theorem State.finishStep_frame (s : State) (d : ScratchAddr) :
    { s.finishStep d with
      acc := s.acc, li := s.li, ai := s.ai, ptr := s.ptr, stepIdx := s.stepIdx, outL := s.outL,
      outR := s.outR, ram := s.ram, phase := s.phase } = s := by
  unfold State.finishStep
  rcases State.hook_cases s.clampAi with ⟨_, e⟩ | ⟨_, e⟩ | ⟨_, e⟩ | ⟨_, _, _, e⟩ <;> rw [e] <;> rfl

/-! ### Fetch -/

/-- Where the base offset is a program's, the fetch address does not wrap and is inside the ROM. -/
theorem State.fetchAddr_toNat {s : State} (h : s.baseOffset.toNat = 128 * s.progIndex.toNat) :
    s.fetchAddr.toNat = s.baseOffset.toNat + s.stepIdx.toNat ∧ s.fetchAddr.toNat < 8192 := by
  have hi := s.progIndex.isLt
  have hs := s.stepIdx.isLt
  unfold State.fetchAddr
  simp only [BitVec.toNat_add, BitVec.toNat_setWidth]
  omega

/-! ### The four instructions -/

/-- Every instruction answers a next state: the class action followed by the common tail. -/
theorem exec_cases (i : Instr) (s : State) :
    ∃ a : State, exec i s = .next (a.finishStep i.deltaBits) ∧
      a.ptr = s.ptr ∧ a.stepIdx = s.stepIdx ∧ a.acc = s.acc ∧ a.phase = s.phase ∧
      { a with ai := s.ai, li := s.li, ram := s.ram } = s ∧
      ((a.ram = s.ram ∧ a.ai = s.mem) ∨ (∃ v, a.ram = s.ram.write s.ptr.toNat v ∧ a.ai = s.acc)) := by
  cases i with
  | rda d => exact ⟨_, rfl, rfl, rfl, rfl, rfl, rfl, .inl ⟨rfl, rfl⟩⟩
  | rdl d => exact ⟨_, rfl, rfl, rfl, rfl, rfl, rfl, .inl ⟨rfl, rfl⟩⟩
  | wra d => exact ⟨_, rfl, rfl, rfl, rfl, rfl, rfl, .inr ⟨_, rfl, rfl⟩⟩
  | wrn d => exact ⟨_, rfl, rfl, rfl, rfl, rfl, rfl, .inr ⟨_, rfl, rfl⟩⟩

/-- Opcode steps always answer a next state (42_dsp_engine.md R158). -/
theorem engineSteps_total (n : Nat) (s : State) : ∃ t, engineSteps n s = .next t := by
  induction n generalizing s with
  | zero => exact ⟨s, rfl⟩
  | succ n ih =>
    obtain ⟨a, h, -⟩ := exec_cases s.fetchInstr s
    obtain ⟨t, ht⟩ := ih (a.finishStep s.fetchInstr.deltaBits)
    exact ⟨t, by rw [engineSteps, h, andThen_next, ht]⟩

/-- An instruction leaves everything but the engine's registers, the scratch RAM and the phase. -/
theorem exec_frame {i : Instr} {s t : State} (h : exec i s = .next t) :
    { t with
      acc := s.acc, li := s.li, ai := s.ai, ptr := s.ptr, stepIdx := s.stepIdx, outL := s.outL,
      outR := s.outR, ram := s.ram, phase := s.phase } = s := by
  obtain ⟨a, e, -, -, -, -, fr, -⟩ := exec_cases i s
  rw [e] at h
  cases h
  have f := State.finishStep_frame a i.deltaBits
  generalize a.finishStep i.deltaBits = t at f ⊢
  cases s; cases a; cases t
  simp only [State.mk.injEq] at fr f ⊢
  simp_all

/-- Opcode steps leave everything but the engine's registers, the scratch RAM and the phase. -/
theorem engineSteps_frame {n : Nat} {s t : State} (h : engineSteps n s = .next t) :
    { t with
      acc := s.acc, li := s.li, ai := s.ai, ptr := s.ptr, stepIdx := s.stepIdx, outL := s.outL,
      outR := s.outR, ram := s.ram, phase := s.phase } = s := by
  induction n generalizing s with
  | zero => cases h; rfl
  | succ n ih =>
    obtain ⟨u, hu, ht⟩ := andThen_eq_next.mp h
    have e := exec_frame hu
    have i := ih ht
    cases s; cases t; cases u
    simp only [State.mk.injEq] at e i ⊢
    simp_all

/-! ### The step function -/

/-- With no overlapping call at the head of the queue, a call in progress goes on. -/
theorem whileBusy_eq {s : State} (h : ∀ c ∈ s.calls.head?, c.overlaps = false) (o : StepOutcome) :
    whileBusy s o = o := by
  unfold whileBusy
  split
  · rfl
  · rename_i c rest e
    simp [h c (by simp [e])]

/-- A step that answers a next state from a call in progress is the micro-step itself. -/
theorem whileBusy_eq_next {s t : State} {o : StepOutcome} (h : whileBusy s o = .next t) :
    o = .next t := by
  unfold whileBusy at h
  split at h
  · exact h
  · split at h
    · exact absurd h (by simp)
    · exact h

/-- An idle machine that answers a next state holds its state, with no call pending, or has begun the
host's next call. -/
theorem serveCall_next {s t : State} (h : serveCall s = .next t) :
    (s.calls = [] ∧ t = s) ∨
    ∃ c rest, s.calls = c :: rest ∧ beginCall c.op { s with calls := rest } = .next t := by
  unfold serveCall at h
  split at h
  · cases h
    exact .inl ⟨‹_›, rfl⟩
  · exact .inr ⟨_, _, ‹_›, whileBusy_eq_next h⟩

/-- An idle machine begins the host's next call where no call overlaps it. -/
theorem serveCall_eq {s : State} {c : HostCall} {rest : List HostCall} (h : s.calls = c :: rest)
    (alone : ∀ d ∈ rest.head?, d.overlaps = false) :
    serveCall s = beginCall c.op { s with calls := rest } := by
  unfold serveCall
  rw [h]
  exact whileBusy_eq (s := { s with calls := rest }) alone _

/-- Where a call overlaps the one that is in progress, it is refused, whatever that one does. -/
theorem whileBusy_overlap {s : State} {c : HostCall} {rest : List HostCall}
    (h : s.calls = c :: rest) (o : c.overlaps = true) (r : StepOutcome) :
    whileBusy s r = .refused (.concurrency c.op) := by
  unfold whileBusy
  rw [h]
  simp [o]

/-- The ways a step answers a next state. -/
theorem step_next_cases {s t : State} (h : step s = .next t) :
    s.mark = .clear ∧
    ((s.phase = .idle ∧ serveCall s = .next t) ∨
     (∃ c, s.phase = .pairStart c ∧ startPair c s = .next t) ∨
     (∃ c, s.phase = .engine c ∧ exec s.fetchInstr s = .next t) ∨
     (∃ c, s.phase = .pairEnd c ∧ endPair c s = .next t)) := by
  unfold step at h
  split at h
  · exact absurd h (by simp)
  · exact absurd h (by simp)
  · rename_i hm
    refine ⟨hm, ?_⟩
    split at h
    · exact .inl ⟨‹_›, h⟩
    · exact .inr (.inl ⟨_, ‹_›, whileBusy_eq_next h⟩)
    · exact .inr (.inr (.inl ⟨_, ‹_›, whileBusy_eq_next h⟩))
    · exact .inr (.inr (.inr ⟨_, ‹_›, whileBusy_eq_next h⟩))

/-! ### The run loop -/

/-- Filtering a frame changes the two stages only. -/
theorem filterFrame_state (s : State) (b : PcmBuffer) (k : Nat) :
    ∃ a c, (filterFrame s b k).2 = s.setFilters a c := ⟨_, _, rfl⟩

/-- Filtering the second frame changes the two stages only. -/
theorem filterSecond_state (s : State) (c : RunCall) :
    ∃ a b, filterSecond s c = s.setFilters a b := by
  unfold filterSecond
  split
  · exact filterFrame_state s _ _
  · exact ⟨s.svf1, s.svf2, rfl⟩

/-- The head of a pair, where it answers a next state: filters advanced, invocation begun. -/
theorem startPair_next {c : RunCall} {s t : State} (h : startPair c s = .next t) :
    ∃ a b d, toDspIn s.fp (filterFrame s c.input c.i).1 = some d ∧
      t = (s.setFilters a b).beginInvocation d c := by
  unfold startPair at h
  simp only at h
  split at h
  · rename_i d hd
    obtain ⟨a, b, e⟩ := filterSecond_state (filterFrame s c.input c.i).2 c
    rw [e] at h
    exact ⟨a, b, d, hd, by cases h; rfl⟩
  · exact absurd h (by simp)

/-- The end of a pair always answers a next state. -/
theorem endPair_cases (c : RunCall) (s : State) :
    (c.i + 2 < c.frames ∧
      endPair c s = .next ((s.setHost (pairOutput c s)).setPhase (.pairStart { c with i := c.i + 2 }))) ∨
    (c.frames ≤ c.i + 2 ∧
      endPair c s = .next ((s.setHost (pairOutput c s)).finishCall .returned)) := by
  unfold endPair
  by_cases h : c.i + 2 < c.frames
  · exact .inl ⟨h, by simp [h]⟩
  · exact .inr ⟨by omega, by simp [h]⟩

/-- The end of a pair answers a next state. -/
theorem endPair_total (c : RunCall) (s : State) : ∃ t, endPair c s = .next t := by
  rcases endPair_cases c s with ⟨_, h⟩ | ⟨_, h⟩ <;> exact ⟨_, h⟩

/-- Two buffers are disjoint exactly where no byte belongs to both. -/
theorem PcmBuffer.disjoint_iff (a b : PcmBuffer) : a.disjoint b = true ↔
    ∀ x : Nat, ¬ ((a.base ≤ x ∧ x < a.base + a.bytes) ∧ (b.base ≤ x ∧ x < b.base + b.bytes)) := by
  simp only [PcmBuffer.disjoint, Bool.or_eq_true, decide_eq_true_eq]
  constructor
  · intro h x hx; omega
  · intro h
    have := h (max a.base b.base)
    omega

/-- The beginning of a run call, where it answers a next state. -/
theorem beginRun_next {input output : PcmBuffer} {frames : Nat} {s t : State}
    (h : beginRun input output frames s = .next t) :
    RunCall.contract ⟨input, output, frames, 0⟩ = true ∧
    (((s.scratchOk = false ∨ frames = 0) ∧ t = s.finishCall .returned) ∨
     (s.scratchOk = true ∧ frames ≠ 0 ∧ t = s.setPhase (.pairStart ⟨input, output, frames, 0⟩))) := by
  unfold beginRun at h
  split at h
  · rename_i hc
    refine ⟨hc, ?_⟩
    split at h
    · rename_i hs
      split at h
      · rename_i hf
        cases h
        exact .inl ⟨.inr hf, rfl⟩
      · rename_i hf
        cases h
        exact .inr ⟨hs, hf, rfl⟩
    · rename_i hs
      cases h
      exact .inl ⟨.inl (by simpa using hs), rfl⟩
  · exact absurd h (by simp)

/-- `set_sample_rate`, where it answers a next state: both stages configured, nothing else. -/
theorem setSampleRate_next {sr : Fp} {s t : State} (h : setSampleRate sr s = .next t) :
    t = s.setFilters (svfConfigured s.fp stage1 sr) (svfConfigured s.fp stage2 sr) := by
  unfold setSampleRate at h
  split at h
  · split at h
    · rename_i a b ha hb
      unfold svfSet at ha hb
      split at ha <;> split at hb <;> simp_all
    · exact absurd h (by simp)
    · exact absurd h (by simp)
  · exact absurd h (by simp)

/-- A pair that completes is followed by the pairs after it. -/
theorem runPairs_succ {n : Nat} {c : RunCall} {s t u v : State} (h1 : startPair c s = .next t)
    (h2 : engineSteps programLength t = .next u) (h3 : endPair c u = .next v) :
    runPairs (n + 1) c s = runPairs n { c with i := c.i + 2 } v := by
  rw [runPairs, h1, andThen_next, h2, andThen_next, h3, andThen_next]

/-- A whole call on an instance with its scratch RAM, from where its beginning leaves off. -/
theorem runCall_eq {input output : PcmBuffer} {frames : Nat} {s t : State}
    (h : beginRun input output frames s = .next t) (ok : s.scratchOk = true) :
    runCall input output frames s = runPairs ((frames + 1) / 2) ⟨input, output, frames, 0⟩ t := by
  rw [runCall, h, andThen_next, if_pos ok]

/-! ### PCM buffers -/

/-- A sample written reads back. -/
theorem pcmRead_pcmWrite_same (m : Memory 8) (b : PcmBuffer) (j : Nat) (v : Word) :
    pcmRead (pcmWrite m b j v) b j = v := by
  unfold pcmRead pcmWrite
  rw [Memory.read_write_same, Memory.read_write_other _ _ (by omega), Memory.read_write_same]
  ext k hk
  simp only [BitVec.getElem_append, BitVec.getElem_extractLsb']
  split <;> simp_all

/-- A sample write changes no other byte. -/
theorem read_pcmWrite_other (m : Memory 8) (b : PcmBuffer) (j : Nat) (v : Word) {a : Nat}
    (h1 : a ≠ b.base + 2 * j) (h2 : a ≠ b.base + 2 * j + 1) :
    (pcmWrite m b j v).read a = m.read a := by
  unfold pcmWrite
  rw [Memory.read_write_other _ _ h2, Memory.read_write_other _ _ h1]

/-- A sample write keeps the canonical form. -/
theorem pcmWrite_wf {m : Memory 8} (h : m.wf) (b : PcmBuffer) (j : Nat) (v : Word) :
    (pcmWrite m b j v).wf := Memory.write_wf (Memory.write_wf h _ _) _ _

/-- The output of a pair keeps the canonical form. -/
theorem pairOutput_wf {s : State} (h : s.host.wf) (c : RunCall) : (pairOutput c s).wf := by
  unfold pairOutput writeFrame
  simp only
  split
  · exact pcmWrite_wf (pcmWrite_wf (pcmWrite_wf (pcmWrite_wf h _ _ _) _ _ _) _ _ _) _ _ _
  · exact pcmWrite_wf (pcmWrite_wf h _ _ _) _ _ _

end Sys2Proof.Machine
end

