-- ==== Sys2Proof/Laws/PerInstr.lean ====
section
/-! SUPPORT. Statements made per instruction. -/

namespace Sys2Proof.Laws

/-- A concatenation of the class bits and the delta, as a number. -/
theorem append_toNat (c : BitVec 2) (d : ScratchAddr) :
    (c ++ d).toNat = 16384 * c.toNat + d.toNat := by
  have hd := d.isLt
  rw [BitVec.toNat_append, Nat.shiftLeft_eq, Nat.mul_comm c.toNat]
  exact (Nat.two_pow_add_eq_or_of_lt hd c.toNat).symm

/-- The word of a well-formed instruction is `opclass · 2^14 + delta`, with its row's class of
30_encoding.md R84 (R87). -/
def EncodedWord.Statement (i : Instr) : Prop :=
  i.wf = true ∧ (encode i).toNat = 16384 * i.opclassBits.toNat + i.deltaBits.toNat

theorem EncodedWord.rda (d : ScratchAddr) : EncodedWord.Statement (.rda d) :=
  ⟨rfl, append_toNat _ _⟩

theorem EncodedWord.rdl (d : ScratchAddr) : EncodedWord.Statement (.rdl d) :=
  ⟨rfl, append_toNat _ _⟩

theorem EncodedWord.wra (d : ScratchAddr) : EncodedWord.Statement (.wra d) :=
  ⟨rfl, append_toNat _ _⟩

theorem EncodedWord.wrn (d : ScratchAddr) : EncodedWord.Statement (.wrn d) :=
  ⟨rfl, append_toNat _ _⟩

end Sys2Proof.Laws
end

