-- ==== Sys2Proof/Laws/Pi.lean ====
section
/-! SUPPORT. Euler's series for π: `piScaled n` is `π · 2^n` but for at most 4 (40_svf.md R102;
log 12). -/

namespace Sys2Proof

open MeasureTheory intervalIntegral

/-- The factor of the `n`-th term of Euler's series, and the part of `π` that `n` terms leave out. -/
noncomputable def eulerFactor (n : Nat) : ℝ := ∏ i ∈ Finset.range n, ((i : ℝ) + 1) / (2 * i + 3)

theorem eulerFactor_succ (n : Nat) :
    eulerFactor (n + 1) = eulerFactor n * (((n : ℝ) + 1) / (2 * n + 3)) := Finset.prod_range_succ _ _

theorem eulerFactor_pos (n : Nat) : 0 < eulerFactor n := Finset.prod_pos fun _ _ => by positivity

theorem eulerFactor_le (n : Nat) : eulerFactor n ≤ (1 / 2) ^ n := by
  induction n with
  | zero => simp [eulerFactor]
  | succ n ih =>
    rw [eulerFactor_succ, pow_succ]
    have h : ((n : ℝ) + 1) / (2 * n + 3) ≤ 1 / 2 := by
      rw [div_le_div_iff₀ (by positivity) (by norm_num)]; linarith
    exact mul_le_mul ih h (by positivity) (by positivity)

/-- `∫ sin x · (sin² x / 2)^n` is twice the `n`-th factor. -/
theorem integral_sin_term (n : Nat) :
    ∫ x in (0 : ℝ)..Real.pi, Real.sin x * (Real.sin x ^ 2 / 2) ^ n = 2 * eulerFactor n := by
  have h : ∀ x : ℝ, Real.sin x * (Real.sin x ^ 2 / 2) ^ n = Real.sin x ^ (2 * n + 1) * (1 / 2) ^ n := by
    intro x; rw [div_pow, ← pow_mul, pow_succ, div_pow, one_pow]; ring
  simp_rw [h]
  rw [intervalIntegral.integral_mul_const, integral_sin_pow_odd, eulerFactor]
  have e : ((1 : ℝ) / 2) ^ n = ∏ _i ∈ Finset.range n, (1 / 2 : ℝ) := by simp
  rw [e, mul_assoc, ← Finset.prod_mul_distrib]
  congr 1
  exact Finset.prod_congr rfl fun i _ => by field_simp

/-- `∫ sin x / (1 - sin² x / 2) = π`. -/
theorem integral_sin_div : ∫ x in (0 : ℝ)..Real.pi, Real.sin x / (1 - Real.sin x ^ 2 / 2) = Real.pi := by
  have h : ∀ x ∈ Set.uIcc (0 : ℝ) Real.pi,
      HasDerivAt (fun y => -2 * Real.arctan (Real.cos y)) (Real.sin x / (1 - Real.sin x ^ 2 / 2)) x := by
    intro x _
    have d := ((Real.hasDerivAt_cos x).arctan).const_mul (-2)
    refine d.congr_deriv ?_
    have c := Real.sin_sq_add_cos_sq x
    have p : (0 : ℝ) < 1 + Real.cos x ^ 2 := by positivity
    have q : 1 - Real.sin x ^ 2 / 2 = (1 + Real.cos x ^ 2) / 2 := by linarith
    rw [q]; field_simp
  rw [integral_eq_sub_of_hasDerivAt h]
  · simp only [Real.cos_pi, Real.cos_zero, Real.arctan_neg, Real.arctan_one]; ring
  · refine (Continuous.div (by fun_prop) (by fun_prop) fun x => ?_).intervalIntegrable _ _
    have := Real.sin_sq_le_one x
    linarith

/-- What `n` terms leave out is between 2 and 4 times the `n`-th factor. -/
theorem pi_sub_euler (n : Nat) :
    2 * eulerFactor n ≤ Real.pi - 2 * ∑ j ∈ Finset.range n, eulerFactor j ∧
    Real.pi - 2 * ∑ j ∈ Finset.range n, eulerFactor j ≤ 4 * eulerFactor n := by
  let g : ℝ → ℝ := fun x => Real.sin x * (Real.sin x ^ 2 / 2) ^ n / (1 - Real.sin x ^ 2 / 2)
  have pos : ∀ x : ℝ, 1 / 2 ≤ 1 - Real.sin x ^ 2 / 2 ∧ 1 - Real.sin x ^ 2 / 2 ≤ 1 := fun x => by
    have := Real.sin_sq_le_one x
    have := sq_nonneg (Real.sin x)
    constructor <;> linarith
  have cont : ∀ k : Nat, Continuous fun x : ℝ => Real.sin x * (Real.sin x ^ 2 / 2) ^ k := fun k => by
    fun_prop
  have contg : Continuous g :=
    (cont n).div (by fun_prop) fun x => by have := (pos x).1; linarith
  have rest : Real.pi - 2 * ∑ j ∈ Finset.range n, eulerFactor j = ∫ x in (0 : ℝ)..Real.pi, g x := by
    have sums : 2 * ∑ j ∈ Finset.range n, eulerFactor j =
        ∫ x in (0 : ℝ)..Real.pi, ∑ j ∈ Finset.range n, Real.sin x * (Real.sin x ^ 2 / 2) ^ j := by
      rw [intervalIntegral.integral_finsetSum fun j _ => (cont j).intervalIntegrable _ _,
        Finset.mul_sum]
      exact Finset.sum_congr rfl fun j _ => (integral_sin_term j).symm
    refine (congrArg₂ (· - ·) integral_sin_div.symm sums).trans ?_
    rw [← intervalIntegral.integral_sub]
    · refine intervalIntegral.integral_congr fun x _ => ?_
      have p := (pos x).1
      have ne : 1 - Real.sin x ^ 2 / 2 ≠ 0 := by linarith
      have geo := geom_sum_mul (Real.sin x ^ 2 / 2) n
      have geo' : (∑ j ∈ Finset.range n, (Real.sin x ^ 2 / 2) ^ j) * (1 - Real.sin x ^ 2 / 2) =
          1 - (Real.sin x ^ 2 / 2) ^ n := by linear_combination -geo
      simp only [g]
      rw [← Finset.mul_sum]
      rw [eq_div_iff ne, sub_mul, div_mul_cancel₀ _ ne, mul_assoc, geo']
      ring
    · exact (Continuous.div (by fun_prop) (by fun_prop) fun x => by
        have := (pos x).1; linarith).intervalIntegrable _ _
    · exact (continuous_finsetSum _ fun j _ => cont j).intervalIntegrable _ _
  have nonneg : ∀ x ∈ Set.Icc (0 : ℝ) Real.pi, 0 ≤ Real.sin x * (Real.sin x ^ 2 / 2) ^ n :=
    fun x hx => mul_nonneg (Real.sin_nonneg_of_nonneg_of_le_pi hx.1 hx.2) (by positivity)
  rw [rest]
  constructor
  · rw [← integral_sin_term]
    refine intervalIntegral.integral_mono_on Real.pi_pos.le ((cont n).intervalIntegrable _ _)
      (contg.intervalIntegrable _ _) fun x hx => ?_
    have p := pos x
    exact le_div_self (nonneg x hx) (by linarith) p.2
  · have e : 4 * eulerFactor n = ∫ x in (0 : ℝ)..Real.pi, 2 * (Real.sin x * (Real.sin x ^ 2 / 2) ^ n) := by
      rw [intervalIntegral.integral_const_mul, integral_sin_term]; ring
    rw [e]
    refine intervalIntegral.integral_mono_on Real.pi_pos.le (contg.intervalIntegrable _ _)
      (((cont n).const_mul 2).intervalIntegrable _ _) fun x hx => ?_
    have p := pos x
    rw [div_le_iff₀ (by linarith)]
    nlinarith [nonneg x hx]

/-- The nested sum, cut to integers: at most `∑ eulerFactor` too small. -/
theorem eulerNest_bounds (one n x : Nat) :
    let exact : ℝ := 2 * one * ∑ j ∈ Finset.range n, eulerFactor j + x * eulerFactor n
    (eulerNest one n x : ℝ) ≤ exact ∧ exact - ∑ j ∈ Finset.range n, eulerFactor j ≤ eulerNest one n x := by
  induction n generalizing x with
  | zero => simp [eulerNest, eulerFactor]
  | succ n ih =>
    simp only [eulerNest, Finset.sum_range_succ, eulerFactor_succ] at ih ⊢
    obtain ⟨hi, lo⟩ := ih (2 * one + x * (n + 1) / (2 * n + 3))
    have fl : (((x * (n + 1) / (2 * n + 3) : Nat) : ℝ)) ≤ x * (((n : ℝ) + 1) / (2 * n + 3)) := by
      have := @Nat.cast_div_le ℝ _ _ _ (x * (n + 1)) (2 * n + 3)
      push_cast at this
      rwa [mul_div_assoc] at this
    have fu : x * (((n : ℝ) + 1) / (2 * n + 3)) - 1 ≤ ((x * (n + 1) / (2 * n + 3) : Nat) : ℝ) := by
      have h := Nat.lt_floor_add_one (((x * (n + 1) : Nat) : ℝ) / ((2 * n + 3 : Nat) : ℝ))
      rw [Nat.floor_div_eq_div] at h
      push_cast at h
      rw [mul_div_assoc] at h
      linarith
    have p := eulerFactor_pos n
    push_cast at hi lo
    constructor <;> nlinarith

/-- `piScaled n` is `π · 2^n`, at most 4 too small. -/
theorem piScaled_bounds (n : Nat) :
    (piScaled n : ℝ) ≤ Real.pi * 2 ^ n ∧ Real.pi * 2 ^ n - 4 ≤ piScaled n := by
  obtain ⟨hi, lo⟩ := eulerNest_bounds (2 ^ n) n (2 * 2 ^ n)
  obtain ⟨h1, h2⟩ := pi_sub_euler n
  have p : (0 : ℝ) < 2 ^ n := by positivity
  have small : (2 : ℝ) ^ n * eulerFactor n ≤ 1 := by
    calc (2 : ℝ) ^ n * eulerFactor n ≤ 2 ^ n * (1 / 2) ^ n := by
          gcongr; exact eulerFactor_le n
      _ = 1 := by rw [← mul_pow]; norm_num
  have sum : ∑ j ∈ Finset.range n, eulerFactor j ≤ 2 := by
    calc ∑ j ∈ Finset.range n, eulerFactor j ≤ ∑ j ∈ Finset.range n, (1 / 2 : ℝ) ^ j :=
          Finset.sum_le_sum fun j _ => eulerFactor_le j
      _ ≤ 2 := by
        rw [geom_sum_eq (by norm_num)]
        have : (0 : ℝ) < (1 / 2) ^ n := by positivity
        rw [div_le_iff_of_neg (by norm_num)]
        linarith
  push_cast at hi lo
  unfold piScaled
  constructor <;> nlinarith

end Sys2Proof
end

