-- ==== Sys2Proof/Tests/Slice0.lean ====
section
/-! SUPPORT. Tests: expected values from the spec's vectors and tables (95_test_vectors.md), and one
witness for every statement that has hypotheses. -/

namespace Sys2Proof.Tests

open Sys2Proof.Machine

/-! ### Well-formedness: each check refuses an ill-formed term (30_encoding.md R87, R88) -/

theorem test_wf_instr : (Instr.wrn 16383).wf = true := by decide

theorem test_wf_short_program_refused : programWf (List.replicate 127 (.rdl 0)) = false := by decide +kernel

theorem test_wf_program : programWf (List.replicate 128 (.rdl 0)) = true := by decide +kernel

theorem test_asm_large_delta_refused : (DeltaSpelling.unsigned 16384).meaning = none := by decide

theorem test_asm_minus_zero_refused : (DeltaSpelling.minus 0).meaning = none := by decide

theorem test_asm_minus_too_large_refused : (DeltaSpelling.minus 16384).meaning = none := by decide

theorem test_asm_minus_two : (DeltaSpelling.minus 2).meaning = some 16382 := by decide

/-! ### Decode: words of 95_test_vectors.md section 3.1, bit by bit -/

theorem test_decode_rda : decodeWord 0b0000000000000011#16 = .rda 3 := by decide

theorem test_decode_rdl : decodeWord 0b0111111111111110#16 = .rdl 16382 := by decide

theorem test_decode_wra : decodeWord 0b1000000000100000#16 = .wra 32 := by decide

theorem test_decode_wrn : decodeWord 0b1111111111111111#16 = .wrn 16383 := by decide

theorem test_decode_bytes_little_endian : decode [0x10, 0x40] = .ok (.rdl 16, []) := by decide

theorem test_decode_truncated : decode [0x10] = .error .truncated := by decide

theorem test_decode_table_word : decodeTableWord 16 0xC000 = some (.wrn 0) := by decide

/-! ### One step each, from 95_test_vectors.md section 3.2 -/

/-- binary64, subnormals kept. -/
def binary64 : FpFormat := ⟨36, 3, false⟩

/-- binary32, subnormals kept. -/
def binary32 : FpFormat := ⟨7, 0, false⟩

/-- A stage with every register zero. -/
def restStage : SvfStage := ⟨.zero, .zero, .zero, .zero, .zero⟩

/-- An instance with its filters at rest. -/
def quiet : State := { State.boot [] binary64 true with svf1 := restStage, svf2 := restStage }

/-- An instance in an invocation at step `k`. -/
def engineAt (k : StepIndex) : State := { quiet with phase := .engine loadedCall, stepIdx := k }

/-- The start of a vector: `acc`, `ptr`, `RAM[ptr]`, the step and `dsp_in`. -/
def vector (acc : Int) (ptr : Nat) (mem : Int) (k : StepIndex) (dspIn : Int) : State :=
  { quiet with
    acc := wrap16 acc, ptr := BitVec.ofNat 14 ptr, ram := Memory.write [] ptr (wrap16 mem)
    stepIdx := k, dspIn := wrap16 dspIn }

/-- The columns ai', li', acc', RAM[ptr]', ptr', out_L, out_R after one step of the word `w`. -/
def columns (s : State) (w : Nat) : List Int :=
  match step (s.withFetchWord 16 w) with
  | .next t => [t.ai.toInt, t.li.toInt, t.acc.toInt, (t.ram.read s.ptr.toNat).toInt, t.ptr.toNat,
      t.outL.toInt, t.outR.toInt]
  | _ => []

/-- V5 -/
theorem test_rda_wraps :
    columns (vector 30000 0 8000 1 0) 0x0000 = [2047, -31536, -31536, 8000, 0, 0, 0] := by decide

/-- V26 -/
theorem test_rda_right_hook :
    columns (vector 10 0 300 96 0) 0x0000 = [300, 160, 10, 300, 0, 0, 300] := by decide

/-- V23 -/
theorem test_rdl_step_zero :
    columns (vector 40 8 (-600) 0 77) 0x4002 = [-600, -300, 40, 77, 10, 0, 0] := by decide

/-- V28 -/
theorem test_rdl_left_hook :
    columns (vector 10 0 (-4000) 112 0) 0x4000 = [-2047, -2000, 10, -4000, 0, -2047, 0] := by decide

/-- V15 -/
theorem test_wra_wraps :
    columns (vector 30000 0 0 1 0) 0x8000 = [2047, -20536, -20536, 30000, 0, 0, 0] := by decide

/-- V13 -/
theorem test_wra_replaces :
    columns (vector 100 20 999 1 0) 0x8020 = [100, 150, 150, 100, 52, 0, 0] := by decide

/-- V20 -/
theorem test_wrn_most_negative :
    columns (vector (-32768) 0 0 1 0) 0xC000 = [-2047, 16384, 16384, -32768, 0, 0, 0] := by decide

/-- V25 -/
theorem test_wrn_step_zero :
    columns (vector 40 8 (-600) 0 (-2379)) 0xC000 = [40, -20, 40, -2379, 8, 0, 0] := by decide

/-- The first instruction after reset is the one placed where the machine fetches. -/
theorem test_first_step_after_reset :
    step (State.reset.withFetchWord 16 0x8020) =
      exec (.wra 32) (State.reset.withFetchWord 16 0x8020) := rfl

theorem test_first_step_after_reset_completes :
    (match step (State.reset.withFetchWord 16 0xC000) with
      | .next _ => true
      | _ => false) = true := by decide

/-! ### Selector, from 95_test_vectors.md section 3.3 -/

theorem test_set_program_200 :
    (setProgram 200 quiet).progIndex = 8 ∧ (setProgram 200 quiet).baseOffset = 1024 := by decide

theorem test_program_name_130 : programName 130 = Config.programNames 2 := rfl

/-! ### Filters, from 95_test_vectors.md sections 2.1 and 2.2 -/

/-- Stage 1, binary32: from the pattern 3f658840 of `w`, those of c1, c2 and d0. -/
theorem test_stage1_coefficients_binary32 :
    svfFromWarp binary32 stage1 (.finite false 0xe58840 (-24)) =
      ⟨.finite false 0x936097 (-23), .finite false 0xbdd5fe (-25), .finite false 0xda9302 (-27),
        .zero, .zero⟩ := by decide +kernel

/-- Stage 2, binary64: from the pattern 3ff98c8b10338b7b of `w`, those of c1, c2 and d0. -/
theorem test_stage2_coefficients_binary64 :
    svfFromWarp binary64 stage2 (.finite false 0x198c8b10338b7b (-52)) =
      ⟨.finite false 0x1a0eb53c136837 (-52), .finite false 0x19a9aa92a01f8c (-53),
        .finite false 0x14e5a6299cbd2d (-54), .zero, .zero⟩ := by decide +kernel

/-- The π of binary64, pattern 400921fb54442d18 (IEEE 754 literal conversion, 40_svf.md R102). -/
theorem test_pi_binary64 : binary64.pi = .finite false 0x1921fb54442d18 (-51) := by decide +kernel

/-- Stage 1 of binary64, with the coefficients of section 2.1. -/
def stage1Binary64 : SvfStage :=
  ⟨.finite false 0x126c12d5c39814 (-52), .finite false 0x17babfd81561e3 (-54),
    .finite false 0x1b5260512aa107 (-56), .zero, .zero⟩

/-- Stage 2 of binary64, with the coefficients of section 2.1. -/
def stage2Binary64 : SvfStage :=
  ⟨.finite false 0x1a0eb53c136837 (-52), .finite false 0x19a9aa92a01f8c (-53),
    .finite false 0x14e5a6299cbd2d (-54), .zero, .zero⟩

/-- R-2: a first frame (32000, 32000), with the coefficients of section 2.1, gives `dsp_in = 69`. -/
theorem test_first_frame_dsp_in :
    (match startPair ⟨⟨0, 4⟩, ⟨4, 4⟩, 1, 0⟩
        { quiet with svf1 := stage1Binary64, svf2 := stage2Binary64,
                     host := [(1, 0x7D), (3, 0x7D)] } with
      | .next t => some t.dspIn
      | _ => none) = some 69 := by decide +kernel

/-- 95_test_vectors.md section 4.1: 32768.0 and NaN fault. -/
theorem test_dsp_in_faults :
    toDspIn binary64 (binary64.ofNat 16) = none ∧ toDspIn binary64 .nan = none := by
  decide +kernel

/-- 95_test_vectors.md section 2.4: 18917 is in the domain, 18916 is not. -/
theorem test_rate_domain :
    (binary64.ofNat 18917).exceeds minRate = true ∧ (binary64.ofNat 18916).exceeds minRate = false := by
  decide +kernel

/-! ### Scaler and host memory, from 95_test_vectors.md section 4.1 and 20_memory.md R65 -/

theorem test_to_pcm : toPcm (wrap16 (-2047)) = wrap16 (-32752) ∧ toPcm 69 = 1104 := by decide

theorem test_pcm_little_endian : pcmWrite [] ⟨100, 4⟩ 1 0x7D01 = [(102, 0x01), (103, 0x7D)] := by decide

/-- R-11: `out` of 7 samples for 4 frames. -/
theorem test_short_output_refused : RunCall.contract ⟨⟨0, 16⟩, ⟨16, 14⟩, 4, 0⟩ = false := by decide

/-- R-11: one buffer for both. -/
theorem test_in_place_refused : RunCall.contract ⟨⟨0, 16⟩, ⟨0, 16⟩, 4, 0⟩ = false := by decide

/-- A buffer of no bytes shares none, even inside the other (44_run_loop.md R200). -/
theorem test_empty_inside_accepted : RunCall.contract ⟨⟨0, 8⟩, ⟨4, 0⟩, 0, 0⟩ = true := by decide

/-- A call of one step is in progress in that step (45_host_interface.md R232). -/
theorem test_overlap_of_one_step_call_refused :
    step { quiet with calls := [⟨.setProgram 1, false⟩, ⟨.setProgram 2, true⟩] } =
      .refused (.concurrency (.setProgram 2)) := rfl

/-! ### Witnesses: states and operands that meet the hypotheses of each statement -/

theorem witness_DecodeOfEncodeGivesInstruction : (Instr.rda 16383).wf = true := rfl

theorem witness_EveryWordDecodesToItsRow :
    (0xFF + 256 * 0x3F) / 16384 = 0 ∧ (0x00 + 256 * 0x40) / 16384 = 1 ∧
    (0xFF + 256 * 0x7F) / 16384 = 1 ∧ (0x00 + 256 * 0x80) / 16384 = 2 ∧
    (0x00 + 256 * 0xC0) / 16384 = 3 ∧ (0xFF + 256 * 0xFF) / 16384 = 3 := by decide

theorem witness_AssembleOfDisassembleGivesWords : (List.replicate 128 (0x7FFE : Word)).length = 128 :=
  List.length_replicate

theorem witness_SignedDeltaMovesPointerBack :
    1 ≤ 1 ∧ 1 ≤ 16383 ∧ (DeltaSpelling.minus 1).meaning = some 16383 ∧
    (DeltaSpelling.minus 16383).meaning = some 1 := by decide

theorem witness_StepRunsFetchedInstruction :
    (engineAt 127).mark = .clear ∧ (engineAt 127).phase = .engine loadedCall ∧
    noOverlap (engineAt 127) ∧ (engineAt 127).baseOffset.toNat = 128 * (engineAt 127).progIndex.toNat :=
  ⟨rfl, rfl, by intro c hc; simp [engineAt, quiet, State.boot] at hc, by decide⟩

theorem witness_ReadingInstructionsFrame :
    ((Instr.rda 1 = .rda 1 ∨ Instr.rda 1 = .rdl 1) ∧ ∃ t, exec (.rda 1) (engineAt 1) = .next t) ∧
    ((Instr.rdl 1 = .rda 1 ∨ Instr.rdl 1 = .rdl 1) ∧ ∃ t, exec (.rdl 1) (engineAt 0) = .next t) :=
  ⟨⟨.inl rfl, _, rfl⟩, ⟨.inr rfl, _, rfl⟩⟩

theorem witness_WritingInstructionsFrame :
    ((Instr.wra 1 = .wra 1 ∨ Instr.wra 1 = .wrn 1) ∧ ∃ t, exec (.wra 1) (engineAt 96) = .next t) ∧
    ((Instr.wrn 1 = .wra 1 ∨ Instr.wrn 1 = .wrn 1) ∧ ∃ t, exec (.wrn 1) (engineAt 112) = .next t) :=
  ⟨⟨.inl rfl, _, rfl⟩, ⟨.inr rfl, _, rfl⟩⟩

theorem witness_StepZeroStoresInput :
    (engineAt 0).stepIdx = 0 ∧ ∃ d, Instr.rda 3 = .rda d ∨ Instr.rda 3 = .rdl d :=
  ⟨rfl, 3, .inl rfl⟩

theorem witness_OutputHooksLatchClampedAi :
    (engineAt 96).stepIdx.toNat = 96 ∧ (engineAt 112).stepIdx.toNat = 112 := by decide

theorem witness_AccumulatorLatchedAtOrdinarySteps :
    ((engineAt 1).stepIdx.toNat ≠ 0 ∧ (engineAt 1).stepIdx.toNat ≠ 96 ∧
      (engineAt 1).stepIdx.toNat ≠ 112) ∧
    (engineAt 0).stepIdx.toNat = 0 ∧ (engineAt 96).stepIdx.toNat = 96 ∧
    (engineAt 112).stepIdx.toNat = 112 := by decide

theorem witness_ClampActsOnAiAlone :
    (Instr.rda 0 = .rda 0 ∨ Instr.rda 0 = .rdl 0) ∧ (Instr.wrn 0 = .wra 0 ∨ Instr.wrn 0 = .wrn 0) ∧
    Instr.rda 0 = .rda 0 ∧ Instr.rdl 0 = .rdl 0 ∧ Instr.wra 0 = .wra 0 ∧ Instr.wrn 0 = .wrn 0 ∧
    isIoStep (engineAt 96).stepIdx ∧ ¬ isIoStep (engineAt 1).stepIdx ∧ (engineAt 1).stepIdx ≠ 0 ∧
    (engineAt 0).stepIdx = 0 := by unfold isIoStep; decide

theorem witness_PointerAdvancesByDeltas :
    (setProgram 63 quiet).baseOffset.toNat = 128 * (setProgram 63 quiet).progIndex.toNat := by decide

theorem witness_WrapIsCongruence : (32767#16 : Word).toInt ≠ -32768 := by decide

theorem witness_NextStepSeesStoreAndAccumulator :
    ¬ isIoStep (engineAt 1).stepIdx ∧ (engineAt 1).stepIdx.toNat ≠ 127 := by
  unfold isIoStep; decide

theorem witness_InvocationRunsAllSteps :
    (engineAt 0).mark = .clear ∧ (engineAt 0).phase = .engine loadedCall ∧
    (engineAt 0).stepIdx = 0 ∧ noOverlap (engineAt 0) ∧ 127 < 128 :=
  ⟨rfl, rfl, rfl, by intro c hc; simp [engineAt, quiet, State.boot] at hc, by decide⟩

theorem witness_RotatedScratchGivesSameOutputs :
    Rotated 5 { quiet with ram := [(3, 7), (16380, 9)] }
      { quiet with ptr := 5, ram := [(1, 9), (8, 7)] } := by
  refine ⟨by decide, fun a => ?_, rfl⟩
  have e : (a + 5).toNat = (a.toNat + 5) % 16384 := by simp [BitVec.toNat_add]
  have := a.isLt
  show Memory.read [(1, 9), (8, 7)] (a + 5).toNat = Memory.read [(3, 7), (16380, 9)] a.toNat
  rw [e]
  simp only [Memory.read]
  split_ifs <;> first | rfl | omega

theorem witness_ZeroInputStaysSilent : Silent quiet := ⟨rfl, rfl, rfl, fun _ => rfl⟩

/-- An idle instance whose host makes one call. -/
def calling (op : HostOp) : State := { quiet with calls := [⟨op, false⟩] }

theorem nextCall_calling (op : HostOp) : NextCall op [] (calling op) :=
  ⟨rfl, rfl, rfl, ⟨false, rfl⟩, by simp⟩

theorem witness_SetProgramStoresSelection : NextCall (.setProgram 255) [] (calling (.setProgram 255)) :=
  nextCall_calling _

theorem witness_ProgramNameReturnsName : NextCall (.programName 64) [] (calling (.programName 64)) :=
  nextCall_calling _

theorem witness_SampleRateConfiguresOrFaults :
    (NextCall (.setSampleRate (.finite false 18917 0)) [] (calling (.setSampleRate (.finite false 18917 0))) ∧
      (Fp.finite false 18917 0).value? = some 18917 ∧ (18916 : ℚ) < 18917) ∧
    (NextCall (.setSampleRate (.finite false 18916 0)) [] (calling (.setSampleRate (.finite false 18916 0))) ∧
      (Fp.finite false 18916 0).value? = some 18916 ∧ (18916 : ℚ) ≤ 18916) ∧
    (NextCall (.setSampleRate .nan) [] (calling (.setSampleRate .nan)) ∧ Fp.nan.value? = none) :=
  ⟨⟨nextCall_calling _, by norm_num [Fp.value?, signedMant], by norm_num⟩,
    ⟨nextCall_calling _, by norm_num [Fp.value?, signedMant], by norm_num⟩, nextCall_calling _, rfl⟩

theorem witness_ConfigurationDomainIsExact : (Fp.finite false 11833 0).value? = some 11833 := by
  norm_num [Fp.value?, signedMant]

theorem witness_ConfigurationFormulas :
    svfSet binary64 stage2 (.finite false 18917 0) =
      .ok (svfConfigured binary64 stage2 (.finite false 18917 0)) := if_pos (by decide)

theorem witness_ZeroInputKeepsStageAtRest :
    restStage.c1.isFinite = true ∧ restStage.c2.isFinite = true ∧ restStage.d0.isFinite = true ∧
    restStage.z1 = .zero ∧ restStage.z2 = .zero := by decide

theorem witness_UnitImpulseReturnsD0 :
    stage1Binary64.c1 = .finite false 0x126c12d5c39814 (-52) ∧ 0 < 0x126c12d5c39814 ∧
    binary64.isValue stage1Binary64.c1 ∧ stage1Binary64.c2.isFinite = true ∧
    stage1Binary64.d0 = .finite false 0x1b5260512aa107 (-56) ∧ 0 < 0x1b5260512aa107 ∧
    binary64.isValue stage1Binary64.d0 ∧ stage1Binary64.z1 = .zero ∧ stage1Binary64.z2 = .zero :=
  ⟨rfl, by decide, .inr (by decide +kernel), rfl, rfl, by decide, .inr (by decide +kernel), rfl, rfl⟩

theorem holdsExactly_small :
    holdsExactly binary64 (.finite false (2 ^ 52) (-52)) 1 ∧
    holdsExactly binary64 (.finite false (2 ^ 52) (-51)) 2 ∧
    holdsExactly binary64 (.finite false (3 * 2 ^ 51) (-51)) 3 ∧
    holdsExactly binary64 (.finite false (2 ^ 52) (-50)) 4 := by
  refine ⟨⟨.inr (by decide +kernel), ?_⟩, ⟨.inr (by decide +kernel), ?_⟩,
    ⟨.inr (by decide +kernel), ?_⟩, .inr (by decide +kernel), ?_⟩ <;>
  norm_num [Fp.value?, signedMant]

/-- A stage whose coefficients and delays are all 1, with the input 4. -/
theorem witness_StageStepFormulaAndExactForm :
    (let one : Fp := .finite false (2 ^ 52) (-52)
     StageIsExact binary64 ⟨one, one, one, one, one⟩ ⟨1, 1, 1, 1, 1⟩ ∧
     holdsExactly binary64 (.finite false (2 ^ 52) (-50)) 4 ∧
     StepNeedsNoRounding binary64 ⟨1, 1, 1, 1, 1⟩ 4) ∧
    (let e : ExactStage := ⟨1, 1, 1, 0, 5⟩
     e.c1 ≠ 0 ∧ e.c2 ≠ 0 ∧ (exactStep e 5).2 = e) := by
  obtain ⟨h1, h2, h3, h4⟩ := holdsExactly_small
  refine ⟨⟨⟨h1, h1, h1, h1, h1⟩, h4, ?_⟩, by simp [exactStep]⟩
  exact ⟨⟨_, by norm_num; exact h3⟩, ⟨_, by norm_num; exact h2⟩, ⟨_, by norm_num; exact h1⟩,
    ⟨_, by norm_num; exact h2⟩, ⟨_, by norm_num; exact h2⟩, ⟨_, by norm_num; exact h3⟩,
    ⟨_, by norm_num; exact h2⟩, ⟨_, by norm_num; exact h4⟩⟩

theorem witness_RoundingIsNearestTiesToEven :
    (binary64.flushSubnormals = false ∧ 0 < 3 ∧
      binary64.round true 1 3 0 = .finite true 0x15555555555555 (-54)) ∧
    (∃ v w : ℚ, (binary64.ofNat 1).value? = some v ∧ (binary64.ofNat 3).value? = some w ∧ w ≠ 0 ∧
      (binary64.add (binary64.ofNat 1) (binary64.ofNat 3)).isFinite = true ∧
      (binary64.sub (binary64.ofNat 1) (binary64.ofNat 3)).isFinite = true ∧
      (binary64.mul (binary64.ofNat 1) (binary64.ofNat 3)).isFinite = true ∧
      (binary64.div (binary64.ofNat 1) (binary64.ofNat 3)).isFinite = true) ∧
    (let f : FpFormat := ⟨36, 3, true⟩
     f.flushSubnormals = true ∧ (keeping f).isValue (.finite true 1 (-1074)) ∧
       (keeping f).isValue (.finite false (2 ^ 52) (-1074))) := by
  have h1 : binary64.ofNat 1 = .finite false (2 ^ 52) (-52) := by decide +kernel
  have h3 : binary64.ofNat 3 = .finite false (3 * 2 ^ 51) (-51) := by decide +kernel
  refine ⟨⟨rfl, by decide, by decide +kernel⟩, ⟨1, 3, h1 ▸ holdsExactly_small.1.2,
    h3 ▸ holdsExactly_small.2.2.1.2, by norm_num, by decide +kernel, by decide +kernel,
    by decide +kernel, by decide +kernel⟩, rfl, .inr (by decide +kernel), .inr (by decide +kernel)⟩

theorem witness_PiIsNearest :
    binary64.isValue (.finite false (3 * 2 ^ 51) (-51)) ∧
    (Fp.finite false (3 * 2 ^ 51) (-51)).value? = some 3 := holdsExactly_small.2.2.1

/-- A stage whose output is a NaN. -/
def nanStage : SvfStage := { restStage with z1 := .nan }

theorem witness_DspInTruncatesTowardZeroOrFaults :
    ((binary64.mul (binary64.ofNat 1) (binary64.ofNat 2048)).value? = some 2048 ∧
      -32767 ≤ ⌊(2048 : ℚ)⌋ ∧ ⌊(2048 : ℚ)⌋ ≤ 32767) ∧
    ((binary64.mul (binary64.ofNat 16) (binary64.ofNat 2048)).value? = some 32768 ∧
      ¬ (-32767 ≤ ⌊(32768 : ℚ)⌋ ∧ ⌊(32768 : ℚ)⌋ ≤ 32767)) ∧
    (binary64.mul .nan (binary64.ofNat 2048)).value? = none ∧
    toDspIn binary64 (filterFrame { quiet with svf1 := nanStage } ⟨0, 4⟩ 0).1 = none := by
  have h1 : binary64.mul (binary64.ofNat 1) (binary64.ofNat 2048) = .finite false (2 ^ 52) (-41) := by
    decide +kernel
  have h2 : binary64.mul (binary64.ofNat 16) (binary64.ofNat 2048) = .finite false (2 ^ 52) (-37) := by
    decide +kernel
  have f1 : ⌊(2048 : ℚ)⌋ = 2048 := Int.floor_eq_iff.mpr (by norm_num)
  have f2 : ⌊(32768 : ℚ)⌋ = 32768 := Int.floor_eq_iff.mpr (by norm_num)
  refine ⟨⟨?_, ?_⟩, ⟨?_, ?_⟩, rfl, by decide +kernel⟩
  · rw [h1]; norm_num [Fp.value?, signedMant]
  · rw [f1]; decide
  · rw [h2]; norm_num [Fp.value?, signedMant]
  · rw [f2]; decide

theorem witness_OutputScaledBySixteen :
    (-2047 ≤ (2047#16 : Word).toInt ∧ (2047#16 : Word).toInt ≤ 2047) ∧
    (-2047 ≤ (-2047#16 : Word).toInt ∧ (-2047#16 : Word).toInt ≤ 2047) := by decide

theorem buffersOk_small : BuffersOk ⟨0, 8⟩ ⟨8, 8⟩ 2 :=
  ⟨by decide, by decide, by decide, by decide, by decide, fun a h => by simp at h; omega⟩

theorem witness_RunBeginsByContract :
    (NextCall (.run ⟨0, 8⟩ ⟨0, 8⟩ 2) [] (calling (.run ⟨0, 8⟩ ⟨0, 8⟩ 2)) ∧
      ¬ BuffersOk ⟨0, 8⟩ ⟨0, 8⟩ 2) ∧
    (NextCall (.run ⟨0, 8⟩ ⟨8, 8⟩ 0) [] (calling (.run ⟨0, 8⟩ ⟨8, 8⟩ 0)) ∧
      BuffersOk ⟨0, 8⟩ ⟨8, 8⟩ 0) ∧
    (NextCall (.run ⟨0, 8⟩ ⟨8, 8⟩ 2) [] { calling (.run ⟨0, 8⟩ ⟨8, 8⟩ 2) with scratchOk := false } ∧
      BuffersOk ⟨0, 8⟩ ⟨8, 8⟩ 2) ∧
    (NextCall (.run ⟨0, 8⟩ ⟨8, 8⟩ 2) [] (calling (.run ⟨0, 8⟩ ⟨8, 8⟩ 2)) ∧
      BuffersOk ⟨0, 8⟩ ⟨8, 8⟩ 2 ∧ (calling (.run ⟨0, 8⟩ ⟨8, 8⟩ 2)).scratchOk = true ∧ 2 ≠ 0) :=
  ⟨⟨nextCall_calling _, fun h => h.distinct rfl⟩,
    ⟨nextCall_calling _, ⟨by decide, by decide, by decide, by decide, by decide, fun a h => by simp at h; omega⟩⟩,
    ⟨⟨rfl, rfl, rfl, ⟨false, rfl⟩, by simp⟩, buffersOk_small⟩,
    nextCall_calling _, buffersOk_small, rfl, by decide⟩

/-- An instance at the head of the pair of a call of two frames, silent input. -/
def pairHead : State := { quiet with phase := .pairStart ⟨⟨0, 8⟩, ⟨8, 8⟩, 2, 0⟩ }

theorem witness_PairFiltersBothFrames :
    pairHead.mark = .clear ∧ pairHead.phase = .pairStart ⟨⟨0, 8⟩, ⟨8, 8⟩, 2, 0⟩ ∧ noOverlap pairHead ∧
    toDspIn pairHead.fp (svfStep pairHead.fp pairHead.svf2
      (svfStep pairHead.fp pairHead.svf1 (monoFrame pairHead ⟨0, 8⟩ 0)).1).1 = some 0 :=
  ⟨rfl, rfl, by intro c hc; simp [pairHead, quiet, State.boot] at hc, by decide +kernel⟩

/-- An instance at the end of the pair of frame `i` in a call of three frames. -/
def pairTail (i : Nat) : State :=
  { quiet with phase := .pairEnd ⟨⟨0, 12⟩, ⟨12, 12⟩, 3, i⟩, outL := 2047, outR := -2047 }

theorem witness_PairOutputIsWrittenAndHeld :
    ∀ i ∈ [0, 2], (pairTail i).mark = .clear ∧
      (pairTail i).phase = .pairEnd ⟨⟨0, 12⟩, ⟨12, 12⟩, 3, i⟩ ∧ noOverlap (pairTail i) ∧ i < 3 ∧
      inEngineRange (pairTail i).outL ∧ inEngineRange (pairTail i).outR := by
  intro i hi
  refine ⟨rfl, rfl, by intro c hc; simp [pairTail, quiet, State.boot] at hc, ?_, ?_, ?_⟩
  · fin_cases hi <;> decide
  · show -2047 ≤ (2047#16 : Word).toInt ∧ (2047#16 : Word).toInt ≤ 2047
    decide
  · show -2047 ≤ (-2047#16 : Word).toInt ∧ (-2047#16 : Word).toInt ≤ 2047
    decide

/-- An instance of binary64 whose filters are at rest. -/
structure AtRest (s : State) : Prop where
  fp : s.fp = binary64
  svf1 : s.svf1 = restStage
  svf2 : s.svf2 = restStage

/-- Silence leaves the filters at rest and gives a `dsp_in` of 0. -/
theorem filterFrame_silent {s : State} (h : AtRest s) (b : PcmBuffer) (k : Nat)
    (l : pcmRead s.host b (2 * k) = 0) (r : pcmRead s.host b (2 * k + 1) = 0) :
    (filterFrame s b k).1 = .zero ∧ AtRest (filterFrame s b k).2 ∧
      (filterFrame s b k).2.host = s.host := by
  have e : cascade binary64 restStage restStage (monoSum binary64 (pcmToFp binary64 0)
      (pcmToFp binary64 0)) = (.zero, restStage, restStage) := by decide +kernel
  unfold filterFrame monoFrame
  rw [l, r, h.fp, h.svf1, h.svf2, e]
  exact ⟨rfl, ⟨h.fp, rfl, rfl⟩, rfl⟩

/-- A pair of silent frames completes, with the filters at rest after it. -/
theorem pair_silent {s : State} (h : AtRest s) (c : RunCall) (i : c.i < c.frames)
    (z : ∀ k, c.i ≤ k → k < c.frames →
      pcmRead s.host c.input (2 * k) = 0 ∧ pcmRead s.host c.input (2 * k + 1) = 0) :
    ∃ t u, startPair c s = .next t ∧ engineSteps programLength t = .next u ∧ AtRest u ∧
      u.host = s.host := by
  obtain ⟨f, r, hh⟩ := filterFrame_silent h c.input c.i (z _ le_rfl i).1 (z _ le_rfl i).2
  have second : AtRest (filterSecond (filterFrame s c.input c.i).2 c) ∧
      (filterSecond (filterFrame s c.input c.i).2 c).host = s.host := by
    unfold filterSecond
    split
    · rename_i i'
      have z' := z (c.i + 1) (by omega) i'
      obtain ⟨-, r', hh'⟩ := filterFrame_silent r c.input (c.i + 1) (hh ▸ z'.1) (hh ▸ z'.2)
      exact ⟨r', hh'.trans hh⟩
    · exact ⟨r, hh⟩
  have d : toDspIn s.fp (filterFrame s c.input c.i).1 = some 0 := by
    rw [f, h.fp]; decide +kernel
  have e : startPair c s =
      .next ((filterSecond (filterFrame s c.input c.i).2 c).beginInvocation 0 c) := by
    unfold startPair; simp only [d]
  obtain ⟨u, hu⟩ := engineSteps_total programLength
    ((filterSecond (filterFrame s c.input c.i).2 c).beginInvocation 0 c)
  have fr := engineSteps_frame hu
  exact ⟨_, u, e, hu,
    ⟨(congrArg State.fp fr).trans second.1.fp, (congrArg State.svf1 fr).trans second.1.svf1,
      (congrArg State.svf2 fr).trans second.1.svf2⟩, (congrArg State.host fr).trans second.2⟩

theorem quiet_atRest : AtRest quiet := ⟨rfl, rfl, rfl⟩

theorem pcmRead_nil (b : PcmBuffer) (j : Nat) : pcmRead [] b j = 0 := by
  unfold pcmRead
  simp only [Memory.read]
  rfl

/-- A call of two silent frames completes. -/
theorem runCall_two_completes : ∃ t, runCall ⟨0, 8⟩ ⟨8, 8⟩ 2 quiet = .next t := by
  obtain ⟨t, u, h1, h2, -⟩ := pair_silent (s := pairHead) ⟨rfl, rfl, rfl⟩ ⟨⟨0, 8⟩, ⟨8, 8⟩, 2, 0⟩
    (by decide) fun _ _ _ => ⟨pcmRead_nil _ _, pcmRead_nil _ _⟩
  obtain ⟨v, h3⟩ := endPair_total ⟨⟨0, 8⟩, ⟨8, 8⟩, 2, 0⟩ u
  have hb : beginRun ⟨0, 8⟩ ⟨8, 8⟩ 2 quiet = .next pairHead := rfl
  exact ⟨v, (runCall_eq hb rfl).trans (runPairs_succ (n := 0) h1 h2 h3)⟩

/-- A call of three silent frames, two pairs, completes. -/
theorem runCall_three_completes : ∃ t, runCall ⟨0, 12⟩ ⟨12, 12⟩ 3 quiet = .next t := by
  have hb : beginRun ⟨0, 12⟩ ⟨12, 12⟩ 3 quiet =
      .next (quiet.setPhase (.pairStart ⟨⟨0, 12⟩, ⟨12, 12⟩, 3, 0⟩)) := rfl
  obtain ⟨t, u, h1, h2, r, hh⟩ := pair_silent
    (s := quiet.setPhase (.pairStart ⟨⟨0, 12⟩, ⟨12, 12⟩, 3, 0⟩)) ⟨rfl, rfl, rfl⟩
    ⟨⟨0, 12⟩, ⟨12, 12⟩, 3, 0⟩ (by decide) fun _ _ _ => ⟨pcmRead_nil _ _, pcmRead_nil _ _⟩
  obtain ⟨m, hm⟩ : ∃ m, m = pairOutput ⟨⟨0, 12⟩, ⟨12, 12⟩, 3, 0⟩ u := ⟨_, rfl⟩
  have h3 : endPair ⟨⟨0, 12⟩, ⟨12, 12⟩, 3, 0⟩ u =
      .next ((u.setHost m).setPhase (.pairStart ⟨⟨0, 12⟩, ⟨12, 12⟩, 3, 2⟩)) := by
    rcases endPair_cases ⟨⟨0, 12⟩, ⟨12, 12⟩, 3, 0⟩ u with ⟨-, h⟩ | ⟨h, -⟩
    · rw [h, hm]
    · exact absurd h (by decide)
  have input : ∀ a, a < 12 → m.read a = 0 := fun a ha => by
    have e : m.read a = u.host.read a := by
      rw [hm]
      simp only [pairOutput, writeFrame, Nat.reduceAdd, Nat.reduceMul, Nat.reduceLT, if_true]
      iterate 4 rw [read_pcmWrite_other _ _ _ _ (by simp; omega) (by simp; omega)]
    rw [e, hh]
    rfl
  obtain ⟨t', u', h4, h5, -⟩ := pair_silent
    (s := (u.setHost m).setPhase (.pairStart ⟨⟨0, 12⟩, ⟨12, 12⟩, 3, 2⟩)) ⟨r.fp, r.svf1, r.svf2⟩
    ⟨⟨0, 12⟩, ⟨12, 12⟩, 3, 2⟩ (by decide) fun k hk hk' => by
      simp only at hk hk'
      obtain rfl : k = 2 := by omega
      simp only [pcmRead, State.setPhase_host, State.setHost_host, Nat.reduceMul, Nat.reduceAdd]
      rw [input 9 (by decide), input 8 (by decide), input 11 (by decide), input 10 (by decide)]
      exact ⟨rfl, rfl⟩
  obtain ⟨v, h6⟩ := endPair_total ⟨⟨0, 12⟩, ⟨12, 12⟩, 3, 2⟩ u'
  exact ⟨v, (runCall_eq hb rfl).trans
    ((runPairs_succ (n := 1) h1 h2 h3).trans (runPairs_succ (n := 0) h4 h5 h6))⟩

theorem witness_RunHoldsOutputAcrossPairs :
    quiet.scratchOk = true ∧ (∃ t, runCall ⟨0, 8⟩ ⟨8, 8⟩ 2 quiet = .next t) ∧ 0 % 2 = 0 ∧ 0 + 1 < 2 :=
  ⟨rfl, runCall_two_completes, rfl, by decide⟩

theorem witness_RunChangesOnlyListedState : ∃ t, runCall ⟨0, 8⟩ ⟨8, 8⟩ 2 quiet = .next t :=
  runCall_two_completes

theorem witness_RunReadsInputSamplesOnly :
    quiet.scratchOk = true ∧ (∃ t, runCall ⟨0, 8⟩ ⟨8, 8⟩ 2 quiet = .next t) ∧
    ∀ j : Nat, j < 2 * 2 → pcmRead [(8, 1)] ⟨0, 8⟩ j = pcmRead quiet.host ⟨0, 8⟩ j :=
  ⟨rfl, runCall_two_completes, by decide⟩

theorem witness_MicroStepsAreTheTransaction :
    NextCall (.run ⟨0, 8⟩ ⟨8, 8⟩ 2) [] (calling (.run ⟨0, 8⟩ ⟨8, 8⟩ 2)) ∧
    (calling (.run ⟨0, 8⟩ ⟨8, 8⟩ 2)).scratchOk = true :=
  ⟨nextCall_calling _, rfl⟩

theorem witness_EvenSplitGivesSameResult :
    (∃ t, runCall ⟨0, 4 * (2 * 1 + 0)⟩ ⟨8, 4 * (2 * 1 + 0)⟩ (2 * 1 + 0) quiet = .next t) ∧
    ∃ t, runCall ⟨0, 4 * (2 * 1 + 1)⟩ ⟨12, 4 * (2 * 1 + 1)⟩ (2 * 1 + 1) quiet = .next t :=
  ⟨runCall_two_completes, runCall_three_completes⟩

theorem quiet_engineInv : EngineInv quiet where
  rom := ⟨⟨.nil, by simp [quiet, State.boot]⟩, by simp [quiet, State.boot]⟩
  ram := ⟨⟨.nil, by simp [quiet, State.boot]⟩, by simp [quiet, State.boot]⟩
  host := ⟨.nil, by simp [quiet, State.boot]⟩
  ai := by unfold inEngineRange; decide
  outL := by unfold inEngineRange; decide
  outR := by unfold inEngineRange; decide
  base := by decide
  phase := trivial

theorem witness_StepKeepsEngineInvariant : EngineInv quiet ∧ step quiet = .next quiet :=
  ⟨quiet_engineInv, rfl⟩

theorem witness_StepKeepsFilterValues : FilterInv quiet ∧ step quiet = .next quiet :=
  ⟨⟨⟨.inl ⟨rfl, rfl⟩, .inl ⟨rfl, rfl⟩, .inl ⟨rfl, rfl⟩, .inl ⟨rfl, rfl⟩, .inl ⟨rfl, rfl⟩⟩,
    ⟨.inl ⟨rfl, rfl⟩, .inl ⟨rfl, rfl⟩, .inl ⟨rfl, rfl⟩, .inl ⟨rfl, rfl⟩, .inl ⟨rfl, rfl⟩⟩⟩, rfl⟩

theorem witness_ResetHasInvariants : memoryOk 8192 ([(8191, 1)] : Memory 16) := by
  unfold memoryOk; decide

theorem witness_NewReleaseAndIdleMachine :
    ((calling .new).mark = .clear ∧ (calling .new).phase = .idle ∧
      (calling .new).calls = [⟨.new, false⟩] ∧
      ∀ c ∈ ([] : List HostCall).head?, c.overlaps = false) ∧
    NextCall .release [] (calling .release) ∧
    (let s : State := { calling (.setProgram 1) with status := .released }
     s.mark = .clear ∧ s.phase = .idle ∧ s.status ≠ .live ∧ s.calls = [⟨.setProgram 1, false⟩] ∧
     HostOp.setProgram 1 ≠ .new) ∧
    quiet.mark = .clear ∧ quiet.phase = .idle ∧ quiet.calls = [] :=
  ⟨⟨rfl, rfl, rfl, by simp⟩, nextCall_calling _, ⟨rfl, rfl, by decide, rfl, by decide⟩, rfl, rfl, rfl⟩

/-- A configuration changes a coefficient that is no value of the format. -/
theorem witness_CoefficientsChangeOnlyByConfiguration :
    let sr : Fp := .finite false 44100 0
    let s : State := { calling (.setSampleRate sr) with
      svf1 := { restStage with c1 := .finite false 1 5, z1 := .finite false 1 5 } }
    ∃ t, step s = .next t ∧ coefficients t ≠ coefficients s ∧ delays t ≠ delays s := by
  refine ⟨_, rfl, fun h => ?_, by decide⟩
  have e : (svfConfigured binary64 stage1 (.finite false 44100 0)).c1 = .finite false 1 5 :=
    congrArg (fun l => l.headD .nan) h
  have v : binary64.isValue (.finite false 1 5) := e ▸ binary64.div_isValue _ _
  rcases v with ⟨h, -⟩ | ⟨-, -, -, -, h | ⟨h, -⟩⟩
  · exact absurd h (by decide)
  · exact absurd h (by decide)
  · exact absurd h (by decide)

/-- An instance about to run WRA at step 1 with `acc = 5`. -/
def storing : State := { (engineAt 1).withFetchWord 16 0x8000 with acc := 5 }

theorem witness_MemoriesWrittenOnlyByEngine :
    ∃ t, step storing = .next t ∧ t.ram.read 0 ≠ storing.ram.read 0 := ⟨_, rfl, by decide⟩

theorem witness_SelectionAndAccumulatorWriters :
    (∃ t, step (calling (.setProgram 5)) = .next t ∧ t.progIndex ≠ (calling (.setProgram 5)).progIndex) ∧
    ∃ t, step storing = .next t ∧ t.acc ≠ storing.acc :=
  ⟨⟨_, rfl, by decide⟩, _, rfl, by decide⟩

theorem witness_OverlappingCallIsRefused :
    (let s : State := { engineAt 7 with calls := [⟨.setProgram 1, true⟩] }
     s.mark = .clear ∧ s.phase ≠ .idle ∧ s.calls = [⟨.setProgram 1, true⟩]) ∧
    let s : State := { quiet with calls := [⟨.setProgram 1, false⟩, ⟨.setProgram 2, true⟩] }
    s.mark = .clear ∧ s.phase = .idle ∧
      s.calls = ⟨.setProgram 1, false⟩ :: ⟨.setProgram 2, true⟩ :: [] :=
  ⟨⟨rfl, by decide, rfl⟩, rfl, rfl, rfl⟩

theorem witness_MarksAreSticky :
    (∀ t : State, (Host.Outcome.fault (.svfDomain .nan) : StepOutcome) ≠ .next t) ∧
    [quiet.settle (.fault (.svfDomain .nan))][0]? = some (quiet.settle (.fault (.svfDomain .nan))) :=
  ⟨fun _ => by simp, rfl⟩

theorem witness_InstancesAreIsolated : (1 : Nat) ≠ 0 := by decide

theorem witness_RomImageReadsAsWords : (List.replicate 8192 (0x4000 : Word)).length = 8192 :=
  List.length_replicate

end Sys2Proof.Tests
end

section
/-! What a step may write of the memories: the ROM, the format and `scratch_ok` never, the scratch RAM
in an invocation or a construction only (20_memory.md R62, R63; 10_state.md R30). -/

namespace Sys2Proof.Machine

/-- `t` has the ROM, the format, `scratch_ok` and the scratch RAM of `s`. -/
structure KeepsMemories (s t : State) : Prop where
  rom : t.rom = s.rom
  fp : t.fp = s.fp
  scratchOk : t.scratchOk = s.scratchOk
  ram : t.ram = s.ram

/-! ### The host calls -/

/-- The beginning of a call, where it answers a next state: a construction, or any other call
where the status is `live`. -/
theorem beginCall_next {op : HostOp} {s t : State} (h : beginCall op s = .next t) :
    (op = .new ∧ t = newInstance s) ∨ (op ≠ .new ∧ s.status = .live ∧ callLive op s = .next t) := by
  by_cases hop : op = .new
  · subst hop
    refine .inl ⟨rfl, ?_⟩
    unfold beginCall at h
    split at h <;> cases h <;> rfl
  · refine .inr ⟨hop, ?_⟩
    unfold beginCall at h
    split at h
    · exact ⟨‹_›, h⟩
    · exact absurd rfl hop
    · cases h

/-- A construction fails, and only counts its draw and reports the failure, or gives the state of
70_reset_and_hazards.md R280. -/
theorem newInstance_cases (s : State) :
    newInstance s = { s with
      draws := s.draws + 1, status := .constructionFailed, result := .constructionFailed } ∨
    newInstance s = State.renew { s with draws := s.draws + 1 } := by
  unfold newInstance
  split
  · exact .inl rfl
  · exact .inr rfl

/-- A call other than `new` writes no memory of the core. -/
theorem callLive_keepsMemories {op : HostOp} {s t : State} (hop : op ≠ .new)
    (h : callLive op s = .next t) : KeepsMemories s t := by
  cases op with
  | new => exact absurd rfl hop
  | setSampleRate sr =>
    obtain ⟨u, hu, ht⟩ := andThen_eq_next.mp h
    cases ht
    rw [setSampleRate_next hu]
    constructor <;> simp
  | setProgram i => cases h; exact ⟨rfl, rfl, rfl, rfl⟩
  | programName i => cases h; exact ⟨rfl, rfl, rfl, rfl⟩
  | run input output frames =>
    obtain ⟨-, ⟨-, rfl⟩ | ⟨-, -, rfl⟩⟩ := beginRun_next h <;> exact ⟨rfl, rfl, rfl, rfl⟩
  | release => cases h; exact ⟨rfl, rfl, rfl, rfl⟩

/-- The idle machine keeps the memories, or the host's next call is a `new` and it constructs. -/
theorem serveCall_keepsMemories_or_new {s t : State} (h : serveCall s = .next t) :
    KeepsMemories s t ∨
    ∃ c rest, s.calls = c :: rest ∧ c.op = .new ∧ t = newInstance { s with calls := rest } := by
  obtain ⟨-, rfl⟩ | ⟨c, rest, hc, hb⟩ := serveCall_next h
  · exact .inl ⟨rfl, rfl, rfl, rfl⟩
  · obtain ⟨hop, ht⟩ | ⟨hop, -, hl⟩ := beginCall_next hb
    · exact .inr ⟨c, rest, hc, hop, ht⟩
    · obtain ⟨rom, fp, ok, ram⟩ := callLive_keepsMemories hop hl
      exact .inl ⟨rom, fp, ok, ram⟩

/-! ### The run loop -/

/-- The head of a pair writes no memory of the core. -/
theorem startPair_keepsMemories {c : RunCall} {s t : State} (h : startPair c s = .next t) :
    KeepsMemories s t := by
  obtain ⟨a, b, d, -, rfl⟩ := startPair_next h
  exact ⟨rfl, rfl, rfl, rfl⟩

/-- The end of a pair writes host memory, and no memory of the core. -/
theorem endPair_keepsMemories {c : RunCall} {s t : State} (h : endPair c s = .next t) :
    KeepsMemories s t := by
  obtain ⟨-, e⟩ | ⟨-, e⟩ := endPair_cases c s <;> rw [e] at h <;> cases h <;>
    exact ⟨rfl, rfl, rfl, rfl⟩

/-! ### The instructions -/

/-- The tail of a step writes the scratch RAM only at step 0, and only at `ptr`. -/
theorem State.finishStep_ram_read_ne {s : State} {d : ScratchAddr} {a : Nat}
    (h : (s.finishStep d).ram.read a ≠ s.ram.read a) : a = s.ptr.toNat ∧ s.stepIdx = 0 := by
  obtain ⟨-, -, -, -, -, ram, -⟩ := s.finishStep_fields d
  rw [ram] at h
  split at h
  · exact ⟨not_imp_comm.mp (Memory.read_write_other _ _) h, ‹_›⟩
  · exact absurd rfl h

/-- The class action of a write and the tail after it write the scratch RAM at `ptr` only. -/
theorem State.eq_ptr_of_store_read_ne {s : State} {x y v : Word} {d : ScratchAddr} {a : Nat}
    (h : (((s.setLatches x y).ramWrite s.ptr v).finishStep d).ram.read a ≠ s.ram.read a) :
    a = s.ptr.toNat := by
  by_contra hne
  have stored : ((s.setLatches x y).ramWrite s.ptr v).ram.read a = s.ram.read a :=
    Memory.read_write_other _ v hne
  rw [← stored] at h
  exact hne (State.finishStep_ram_read_ne h).1

/-- An instruction writes the scratch RAM only at `ptr`, and only at step 0 or as WRA or WRN. -/
theorem exec_ram_read_ne {i : Instr} {s t : State} {a : Nat} (h : exec i s = .next t)
    (ha : t.ram.read a ≠ s.ram.read a) :
    a = s.ptr.toNat ∧ (s.stepIdx = 0 ∨ ∃ d, i = .wra d ∨ i = .wrn d) := by
  cases i with
  | rda d =>
    cases h
    exact (State.finishStep_ram_read_ne ha).imp_right .inl
  | rdl d =>
    cases h
    exact (State.finishStep_ram_read_ne ha).imp_right .inl
  | wra d =>
    cases h
    exact ⟨State.eq_ptr_of_store_read_ne ha, .inr ⟨d, .inl rfl⟩⟩
  | wrn d =>
    cases h
    exact ⟨State.eq_ptr_of_store_read_ne ha, .inr ⟨d, .inr rfl⟩⟩

/-! ### The step function -/

/-- A step keeps the memories, constructs, or is an instruction of an invocation. -/
theorem step_memory_cases {s t : State} (h : step s = .next t) :
    KeepsMemories s t ∨
    (∃ rest, beginsNew s ∧ t = newInstance { s with calls := rest }) ∨
    ((∃ c, s.phase = .engine c) ∧ exec s.fetchInstr s = .next t) := by
  obtain ⟨-, ⟨hp, h⟩ | ⟨c, -, h⟩ | ⟨c, hp, h⟩ | ⟨c, -, h⟩⟩ := step_next_cases h
  · obtain k | ⟨c, rest, hc, hop, ht⟩ := serveCall_keepsMemories_or_new h
    · exact .inl k
    · exact .inr (.inl ⟨rest, ⟨hp, c, rest, hc, hop⟩, ht⟩)
  · exact .inl (startPair_keepsMemories h)
  · exact .inr (.inr ⟨⟨c, hp⟩, h⟩)
  · exact .inl (endPair_keepsMemories h)

/-- Settles O54, by the three kinds of step: one that keeps the memories, a construction, which keeps
the RAM or empties it, and an instruction, whose class action and tail write at `ptr` only. -/
theorem memoriesWrittenOnlyByEngine : Obligations.MemoriesWrittenOnlyByEngine := by
  intro s t h
  obtain ⟨rom, fp, ok, ram⟩ | ⟨rest, hnew, rfl⟩ | ⟨hp, he⟩ := step_memory_cases h
  · exact ⟨⟨rom, fp, ok⟩, fun a ha => absurd (congrArg (·.read a) ram) ha⟩
  · obtain e | e := newInstance_cases { s with calls := rest }
    · rw [e]
      exact ⟨⟨rfl, rfl, rfl⟩, fun a ha => absurd rfl ha⟩
    · rw [e]
      exact ⟨⟨rfl, rfl, rfl⟩, fun a _ => .inr ⟨hnew, rfl⟩⟩
  · have frame := exec_frame he
    have rom := congrArg State.rom frame
    have fp := congrArg State.fp frame
    have ok := congrArg State.scratchOk frame
    exact ⟨⟨rom, fp, ok⟩, fun a ha => .inl ⟨hp, exec_ram_read_ne he ha⟩⟩

end Sys2Proof.Machine
end

section
/-! The filter stage against its formulas and the exact step (40_svf.md R103, R108), and which steps
of the machine write the stages (40_svf.md R107). -/

namespace Sys2Proof.Machine

/-! ### One filter step -/

/-- Where nothing rounds, the output of a filter step and the stage after it are those of the exact
step. -/
theorem svfStep_holds {f : FpFormat} {st : SvfStage} {e : ExactStage} {x : Fp} {v : ℚ}
    (hst : StageIsExact f st e) (hx : holdsExactly f x v) (h : StepNeedsNoRounding f e v) :
    holdsExactly f (svfStep f st x).1 (exactStep e v).1 ∧
    StageIsExact f (svfStep f st x).2 (exactStep e v).2 := by
  obtain ⟨c1, c2, d0, z1, z2⟩ := hst
  obtain ⟨⟨_, hdiff⟩, ⟨_, ht⟩, ⟨_, hp2⟩, ⟨_, hz2⟩, ⟨_, hp1⟩, ⟨_, hz1⟩, ⟨_, hp0⟩, ⟨_, hy⟩⟩ := h
  have t := sub_holds (sub_holds hx z1 hdiff) z2 ht
  have z2' := add_holds z2 (mul_holds c2 z1 hp2) hz2
  have z1' := add_holds z1 (mul_holds c1 t hp1) hz1
  exact ⟨add_holds (mul_holds d0 t hp0) z2' hy, ⟨c1, c2, d0, z1', z2'⟩⟩

/-- 40_svf.md R108: the exact step in state-space form. -/
theorem exactStep_stateSpace (e : ExactStage) (v : ℚ) :
    (exactStep e v).1 = (e.c2 - e.d0) * e.z1 + (1 - e.d0) * e.z2 + e.d0 * v ∧
    (exactStep e v).2.z1 = (1 - e.c1) * e.z1 - e.c1 * e.z2 + e.c1 * v ∧
    (exactStep e v).2.z2 = e.c2 * e.z1 + e.z2 := by
  simp only [exactStep]
  refine ⟨?_, ?_, ?_⟩ <;> ring

/-- The DC gain is 1: a steady state of the exact step passes its input on. -/
theorem exactStep_steady {e : ExactStage} {v : ℚ} (hc1 : e.c1 ≠ 0) (hc2 : e.c2 ≠ 0)
    (h : (exactStep e v).2 = e) : e.z1 = 0 ∧ e.z2 = v ∧ (exactStep e v).1 = v := by
  have h1 : e.z1 + e.c1 * (v - e.z1 - e.z2) = e.z1 := congrArg ExactStage.z1 h
  have h2 : e.z2 + e.c2 * e.z1 = e.z2 := congrArg ExactStage.z2 h
  have t : v - e.z1 - e.z2 = 0 := (mul_eq_zero.mp (add_eq_left.mp h1)).resolve_left hc1
  have z1 : e.z1 = 0 := (mul_eq_zero.mp (add_eq_left.mp h2)).resolve_left hc2
  have z2 : e.z2 = v := by linarith
  refine ⟨z1, z2, ?_⟩
  simp [exactStep, z1, z2]

/-- Settles O33: the formulas by definition, the exact step operation by operation, its state-space
form by algebra, and the steady state from the two delay equations. -/
theorem stageStepFormulaAndExactForm : Obligations.StageStepFormulaAndExactForm := by
  refine ⟨fun _ _ _ => rfl, fun f st e x v hst hx h => ?_, fun e v => exactStep_steady⟩
  obtain ⟨⟨-, y⟩, stage⟩ := svfStep_holds hst hx h
  obtain ⟨ey, ez1, ez2⟩ := exactStep_stateSpace e v
  exact ⟨stage, y, ey ▸ y, ez1 ▸ stage.z1.2, ez2 ▸ stage.z2.2⟩

/-! ### The steps that write the filters -/

/-- `t` has the filter stages of `s`. -/
structure KeepsFilters (s t : State) : Prop where
  svf1 : t.svf1 = s.svf1
  svf2 : t.svf2 = s.svf2

theorem KeepsFilters.coefficients {s t : State} (h : KeepsFilters s t) :
    coefficients t = coefficients s := by
  rw [Machine.coefficients, Machine.coefficients, h.svf1, h.svf2]

theorem KeepsFilters.delays {s t : State} (h : KeepsFilters s t) : delays t = delays s := by
  rw [Machine.delays, Machine.delays, h.svf1, h.svf2]

/-- A call on a live instance keeps the filters or is one that configures them. -/
theorem callLive_keepsFilters_or_configures {op : HostOp} {s t : State} (h : callLive op s = .next t) :
    KeepsFilters s t ∨ op = .new ∨ ∃ sr, op = .setSampleRate sr := by
  cases op with
  | new => exact .inr (.inl rfl)
  | setSampleRate sr => exact .inr (.inr ⟨sr, rfl⟩)
  | setProgram i => cases h; exact .inl ⟨rfl, rfl⟩
  | programName i => cases h; exact .inl ⟨rfl, rfl⟩
  | run input output frames =>
    obtain ⟨-, ⟨-, rfl⟩ | ⟨-, -, rfl⟩⟩ := beginRun_next h <;> exact .inl ⟨rfl, rfl⟩
  | release => cases h; exact .inl ⟨rfl, rfl⟩

/-- The idle machine keeps the filters or begins a configuration. -/
theorem serveCall_keepsFilters_or_configures {s t : State} (hp : s.phase = .idle)
    (h : serveCall s = .next t) : KeepsFilters s t ∨ beginsConfiguration s := by
  obtain ⟨-, rfl⟩ | ⟨c, rest, hc, hb⟩ := serveCall_next h
  · exact .inl ⟨rfl, rfl⟩
  · obtain ⟨hop, -⟩ | ⟨-, -, hl⟩ := beginCall_next hb
    · exact .inr ⟨hp, c, rest, hc, .inl hop⟩
    · obtain ⟨svf1, svf2⟩ | hop := callLive_keepsFilters_or_configures hl
      · exact .inl ⟨svf1, svf2⟩
      · exact .inr ⟨hp, c, rest, hc, hop⟩

/-- An instruction keeps the filters. -/
theorem exec_keepsFilters {i : Instr} {s t : State} (h : exec i s = .next t) : KeepsFilters s t :=
  have frame := exec_frame h
  have svf1 := congrArg State.svf1 frame
  have svf2 := congrArg State.svf2 frame
  ⟨svf1, svf2⟩

/-- The end of a pair keeps the filters. -/
theorem endPair_keepsFilters {c : RunCall} {s t : State} (h : endPair c s = .next t) :
    KeepsFilters s t := by
  obtain ⟨-, e⟩ | ⟨-, e⟩ := endPair_cases c s <;> rw [e] at h <;> cases h <;> exact ⟨rfl, rfl⟩

/-- The second frame of a pair advances the delays and keeps the coefficients. -/
theorem coefficients_filterSecond (s : State) (c : RunCall) :
    coefficients (filterSecond s c) = coefficients s := by
  unfold filterSecond
  split <;> rfl

/-- The head of a pair advances the delays and keeps the coefficients. -/
theorem startPair_coefficients {c : RunCall} {s t : State} (h : startPair c s = .next t) :
    coefficients t = coefficients s := by
  unfold startPair at h
  simp only at h
  split at h
  · cases h
    exact coefficients_filterSecond (filterFrame s c.input c.i).2 c
  · cases h

/-- A step keeps the filters, begins a configuration, or is the head of a pair. -/
theorem step_filter_cases {s t : State} (h : step s = .next t) :
    KeepsFilters s t ∨ beginsConfiguration s ∨
    ∃ c, s.phase = .pairStart c ∧ startPair c s = .next t := by
  obtain ⟨-, ⟨hp, h⟩ | hpair | ⟨c, -, h⟩ | ⟨c, -, h⟩⟩ := step_next_cases h
  · exact (serveCall_keepsFilters_or_configures hp h).imp_right .inl
  · exact .inr (.inr hpair)
  · exact .inl (exec_keepsFilters h)
  · exact .inl (endPair_keepsFilters h)

/-- Settles O53, by the three kinds of step: one that keeps the filters, a configuration, and the head
of a pair, which keeps the coefficients. -/
theorem coefficientsChangeOnlyByConfiguration : Obligations.CoefficientsChangeOnlyByConfiguration := by
  intro s t h
  obtain keeps | hconf | ⟨c, hp, hpair⟩ := step_filter_cases h
  · exact ⟨fun hc => absurd keeps.coefficients hc, fun hd => absurd keeps.delays hd⟩
  · exact ⟨fun _ => hconf, fun _ => .inl hconf⟩
  · exact ⟨fun hc => absurd (startPair_coefficients hpair) hc, fun _ => .inr ⟨c, hp⟩⟩

end Sys2Proof.Machine
end

section
/-! Rounding to nearest, ties to even (40_svf.md R102; 92_eei_decisions.md D5, D25): `RoundsAt` says
what `round` computes before it is normalised, and nearness, overflow and flushing follow from it. -/

namespace Sys2Proof.Machine

open Sys2Proof

/-! ### The rounded significand -/

/-- A quotient half-way between two integers is rounded to the even one. -/
theorem divNearestEven_even_of_tie {num den : Nat} (hd : 0 < den)
    (h : 2 * num = 2 * (divNearestEven num den * den) + den ∨
      2 * num + den = 2 * (divNearestEven num den * den)) : divNearestEven num den % 2 = 0 := by
  have hdiv := Nat.div_add_mod' num den
  have hmod := Nat.mod_lt num hd
  unfold divNearestEven at h ⊢
  generalize num / den = k at *
  generalize num % den = r at *
  have succ : (k + 1) * den = k * den + den := by ring
  split at h
  · rename_i up
    rw [if_pos up]
    omega
  · rename_i down
    rw [if_neg down]
    omega

/-- The rounded quotient is within half of the quotient, and even where it is half away. -/
theorem abs_sub_divNearestEven_le (num : Nat) {den : Nat} (hd : 0 < den) :
    |(num : ℚ) / den - divNearestEven num den| ≤ 1 / 2 ∧
    (|(num : ℚ) / den - divNearestEven num den| = 1 / 2 → divNearestEven num den % 2 = 0) := by
  have hdq : (0 : ℚ) < den := by exact_mod_cast hd
  have even := divNearestEven_even_of_tie (num := num) hd
  obtain ⟨lo, hi⟩ := divNearestEven_near num hd
  generalize divNearestEven num den = m at *
  have lo' : 2 * (num : ℚ) ≤ (2 * m + 1) * den := by exact_mod_cast lo
  have hi' : 2 * (m : ℚ) * den ≤ 2 * num + den := by exact_mod_cast hi
  have diff : (num : ℚ) / den - m = (num - m * den) / den := by field_simp
  rw [diff, abs_div, abs_of_pos hdq, div_le_iff₀ hdq, div_eq_iff hdq.ne']
  refine ⟨abs_le.mpr ⟨by linarith, by linarith⟩, fun tie => even ?_⟩
  rcases (abs_eq (by positivity)).mp tie with above | below
  · left
    have : 2 * (num : ℚ) = 2 * (m * den) + den := by linarith
    exact_mod_cast this
  · right
    have : 2 * (num : ℚ) + den = 2 * (m * den) := by linarith
    exact_mod_cast this

/-- Scaled powers of two compare as their exponents do. -/
theorem pow_mul_zpow_le {a b : Nat} {q k : Int} (h : (a : Int) + q ≤ b + k) :
    (2 : ℚ) ^ a * 2 ^ q ≤ 2 ^ b * 2 ^ k := by
  rw [← zpow_natCast, ← zpow_natCast, ← zpow_add₀ two_ne_zero, ← zpow_add₀ two_ne_zero]
  exact zpow_le_zpow_right₀ one_le_two h

/-- `d` units of the last place `2^q` are what `round` makes of the magnitude `x`: the last place is
the format's for `x`, `d` is within half of one, and even where it is half of one away. -/
structure RoundsAt (f : FpFormat) (x : ℚ) (d : Nat) (q : Int) : Prop where
  le : d ≤ 2 ^ f.precision
  qMin_le : f.qMin ≤ q
  lt : x < 2 ^ f.precision * 2 ^ q
  full : q = f.qMin ∨ (2 ^ (f.precision - 1) ≤ d ∧ 2 ^ (f.precision - 1) * 2 ^ q ≤ x)
  near : |x - d * 2 ^ q| ≤ 2 ^ q / 2
  even : |x - d * 2 ^ q| = 2 ^ q / 2 → d % 2 = 0

/-- The exponent of the last place fits the magnitude, unless it is the smallest one. -/
theorem lastPlace_bounds (f : FpFormat) {num den : Nat} (hn : 0 < num) (hd : 0 < den) (e : Int) :
    (num : ℚ) / den * 2 ^ e < 2 ^ f.precision * 2 ^ f.lastPlace num den e ∧
    (f.lastPlace num den e = f.qMin ∨
      (2 : ℚ) ^ (f.precision - 1) * 2 ^ f.lastPlace num den e ≤ num / den * 2 ^ e) := by
  have hdq : (0 : ℚ) < den := by exact_mod_cast hd
  have hp := f.precision_pos
  obtain ⟨lo, hi⟩ := floorLog2_bounds hn hd
  rw [mul_comm, ← le_div_iff₀ hdq] at lo
  rw [mul_comm, ← div_lt_iff₀ hdq] at hi
  have hq : f.lastPlace num den e = max f.qMin (floorLog2 num den + e - (f.precision - 1)) := rfl
  generalize f.lastPlace num den e = q at *
  constructor
  · calc (num : ℚ) / den * 2 ^ e < 2 ^ (floorLog2 num den + 1) * 2 ^ e := by gcongr
      _ = 2 ^ (floorLog2 num den + 1 + e) := (zpow_add₀ two_ne_zero _ _).symm
      _ ≤ 2 ^ ((f.precision : Int) + q) := zpow_le_zpow_right₀ one_le_two (by omega)
      _ = 2 ^ f.precision * 2 ^ q := by rw [zpow_add₀ two_ne_zero, zpow_natCast]
  · refine or_iff_not_imp_left.mpr fun hne => ?_
    calc (2 : ℚ) ^ (f.precision - 1) * 2 ^ q = 2 ^ (((f.precision - 1 : Nat) : Int) + q) := by
          rw [zpow_add₀ two_ne_zero, zpow_natCast]
      _ = 2 ^ (floorLog2 num den + e) := by congr 1; omega
      _ = 2 ^ floorLog2 num den * 2 ^ e := zpow_add₀ two_ne_zero _ _
      _ ≤ num / den * 2 ^ e := by gcongr

/-- `round` normalises a significand that is nearest to the exact magnitude. -/
theorem round_eq_normalise (f : FpFormat) (neg : Bool) (num : Nat) {den : Nat} (hd : 0 < den)
    (e : Int) : ∃ d q, f.round neg num den e = f.normalise neg d q ∧
      RoundsAt f ((num : ℚ) / den * 2 ^ e) d q := by
  rcases Nat.eq_zero_or_pos num with rfl | hn
  · have no_carry : (0 : Nat) ≠ 2 ^ f.precision := (by positivity : 0 < 2 ^ f.precision).ne
    refine ⟨0, f.qMin, by simp [FpFormat.round, FpFormat.normalise, no_carry], ?_⟩
    constructor <;> simp <;> positivity
  · refine ⟨_, _, if_neg hn.ne', ?_⟩
    obtain ⟨le, qMin_le, full⟩ := f.round_mant hn hd e
    obtain ⟨lt, full'⟩ := lastPlace_bounds f hn hd e
    generalize f.lastPlace num den e = q at *
    have scaled := scaled_quotient num den (e - q)
    rw [neg_sub] at scaled
    obtain ⟨near, even⟩ := abs_sub_divNearestEven_le (num * 2 ^ (e - q).toNat)
      (den := den * 2 ^ (q - e).toNat) (by positivity)
    rw [scaled] at near even
    generalize divNearestEven (num * 2 ^ (e - q).toNat) (den * 2 ^ (q - e).toNat) = d at *
    have dist : |(num : ℚ) / den * 2 ^ e - d * 2 ^ q| =
        |(num : ℚ) / den * 2 ^ (e - q) - d| * 2 ^ q := by
      have pos : (0 : ℚ) < 2 ^ q := by positivity
      rw [← abs_of_pos pos, ← abs_mul, abs_of_pos pos, sub_mul, mul_assoc,
        ← zpow_add₀ two_ne_zero, sub_add_cancel]
    refine ⟨le, qMin_le, lt, ?_, ?_, fun tie => even ?_⟩
    · tauto
    · rw [dist]
      calc _ ≤ (1 / 2 : ℚ) * 2 ^ q := by gcongr
        _ = _ := by ring
    · rw [dist] at tie
      exact mul_right_cancel₀ (b := (2 : ℚ) ^ q) (by positivity) (by rw [tie]; ring)

/-! ### Nearness -/

/-- Every value of the format is a whole number of last places `2^q`, or below the magnitudes that
have a last place of `2^q`. -/
theorem value_multiple_or_small {f : FpFormat} {y : Fp} {w : ℚ} (hy : f.isValue y)
    (hw : y.value? = some w) (q : Int) :
    (∃ n : Int, w = n * 2 ^ q) ∨ (f.qMin < q ∧ |w| < 2 ^ (f.precision - 1) * 2 ^ q) := by
  cases y with
  | nan => cases hw
  | infinite b => cases hw
  | finite b m e =>
    have hw' : (signedMant b m : ℚ) * 2 ^ e = w := Option.some.inj hw
    subst hw'
    obtain ⟨rfl, -⟩ | ⟨-, hm, hqe, -, -⟩ := hy
    · exact .inl ⟨0, by cases b <;> simp [signedMant]⟩
    rcases le_or_gt q e with h | h
    · refine .inl ⟨signedMant b m * 2 ^ (e - q).toNat, ?_⟩
      push_cast
      rw [mul_assoc, ← zpow_natCast, ← zpow_add₀ two_ne_zero, Int.toNat_of_nonneg (by omega),
        sub_add_cancel]
    · refine .inr ⟨by omega, ?_⟩
      have hp := f.precision_pos
      have mag : |((signedMant b m : Int) : ℚ)| = m := by cases b <;> simp [signedMant]
      have hm' : (m : ℚ) < 2 ^ f.precision := by exact_mod_cast hm
      rw [abs_mul, mag, abs_of_pos (by positivity)]
      calc (m : ℚ) * 2 ^ e < 2 ^ f.precision * 2 ^ e := by gcongr
        _ ≤ 2 ^ (f.precision - 1) * 2 ^ q := pow_mul_zpow_le (by omega)

/-- No whole number of last places is nearer than the rounded one. -/
theorem RoundsAt.nearest_multiple {f : FpFormat} {x : ℚ} {d : Nat} {q : Int} (h : RoundsAt f x d q)
    (n : Int) : |x - d * 2 ^ q| ≤ |x - n * 2 ^ q| ∧
      (|x - d * 2 ^ q| = |x - n * 2 ^ q| → (d : ℚ) * 2 ^ q = n * 2 ^ q ∨ d % 2 = 0) := by
  by_cases hn : n = d
  · subst hn
    exact ⟨le_rfl, fun _ => .inl rfl⟩
  have unit : (0 : ℚ) < 2 ^ q := by positivity
  have apart : (2 : ℚ) ^ q ≤ |x - d * 2 ^ q| + |x - n * 2 ^ q| := by
    have one : (1 : ℚ) ≤ |(n : ℚ) - d| := by exact_mod_cast Int.one_le_abs (sub_ne_zero.mpr hn)
    calc (2 : ℚ) ^ q ≤ |(n : ℚ) - d| * 2 ^ q := le_mul_of_one_le_left unit.le one
      _ = |(x - d * 2 ^ q) - (x - n * 2 ^ q)| := by
        rw [sub_sub_sub_cancel_left, ← sub_mul, abs_mul, abs_of_pos unit]
      _ ≤ _ := abs_sub _ _
  have near := h.near
  exact ⟨by linarith, fun tie => .inr (h.even (le_antisymm near (by linarith)))⟩

/-- No value of the format is nearer than the rounded one. -/
theorem RoundsAt.nearest {f : FpFormat} {x : ℚ} {d : Nat} {q : Int} (h : RoundsAt f x d q) {y : Fp}
    {w : ℚ} (hy : f.isValue y) (hw : y.value? = some w) : |x - d * 2 ^ q| ≤ |x - w| ∧
      (|x - d * 2 ^ q| = |x - w| → (d : ℚ) * 2 ^ q = w ∨ d % 2 = 0) := by
  obtain ⟨n, rfl⟩ | ⟨hq, small⟩ := value_multiple_or_small hy hw q
  · exact h.nearest_multiple n
  · obtain ⟨-, lo⟩ := h.full.resolve_left hq.ne'
    obtain ⟨near, -⟩ := h.nearest_multiple (2 ^ (f.precision - 1))
    push_cast at near
    have less : |x - d * 2 ^ q| < |x - w| := by
      calc _ ≤ |x - 2 ^ (f.precision - 1) * 2 ^ q| := near
        _ = x - 2 ^ (f.precision - 1) * 2 ^ q := abs_of_nonneg (by linarith)
        _ < x - w := by linarith [le_abs_self w]
        _ ≤ |x - w| := le_abs_self _
    exact ⟨less.le, fun tie => absurd tie less.ne⟩

/-- A datum with its sign reversed is a value of the format where the datum is. -/
theorem isValue_neg {f : FpFormat} {x : Fp} (h : f.isValue x) : f.isValue x.neg := by
  cases x <;> exact h

/-- Rounding to nearest, ties to even, commutes with the sign. -/
theorem nearestEven.neg {f : FpFormat} {x : ℚ} {r : Fp} (h : nearestEven f x r) :
    nearestEven f (-x) r.neg := by
  obtain ⟨hr, b, m, q, v, rfl, hv, near⟩ := h
  refine ⟨isValue_neg hr, !b, m, q, -v, rfl, neg_value? hv, fun y w hy hw => ?_⟩
  obtain ⟨le, tie⟩ := near y.neg (-w) (isValue_neg hy) (neg_value? hw)
  have flip : ∀ a, |-x - a| = |x - -a| := fun a => by rw [← abs_neg]; congr 1; ring
  rw [flip, flip, neg_neg]
  exact ⟨le, fun h => (tie h).imp_left neg_eq_iff_eq_neg.mpr⟩

/-! ### The normalised result -/

/-- A significand that carries is twice the smallest normal one. -/
theorem two_pow_precision (f : FpFormat) : 2 ^ f.precision = 2 * 2 ^ (f.precision - 1) := by
  have := f.precision_pos
  rw [← pow_succ']
  congr 1
  omega

/-- The smallest normal significand does not carry. -/
theorem half_ne_carry (f : FpFormat) : 2 ^ (f.precision - 1) ≠ 2 ^ f.precision := by
  have pos : 0 < 2 ^ (f.precision - 1) := by positivity
  have := two_pow_precision f
  omega

/-- A significand that carries is half of it at the next exponent. -/
theorem normalise_carry (f : FpFormat) (neg : Bool) (q : Int) :
    f.normalise neg (2 ^ f.precision) q = f.normalise neg (2 ^ (f.precision - 1)) (q + 1) := by
  simp [FpFormat.normalise, half_ne_carry f]

/-- A significand that does not carry is zero, overflows, is flushed, or stays as it is. -/
theorem normalise_of_ne {f : FpFormat} {d : Nat} (h : d ≠ 2 ^ f.precision) (neg : Bool) (q : Int) :
    f.normalise neg d q =
      if d = 0 then .finite neg 0 0
      else if f.qMax < q then .infinite neg
      else if f.flushSubnormals = true ∧ d < 2 ^ (f.precision - 1) then .finite neg 0 0
      else .finite neg d q := by
  simp only [FpFormat.normalise, h, if_false]

/-- `normalise_finite` for a significand that does not carry. -/
theorem normalise_finite_of_ne {f : FpFormat} {neg b : Bool} {d m : Nat} {q k : Int}
    (hd : d ≠ 2 ^ f.precision) (hk : f.flushSubnormals = false ∨ 2 ^ (f.precision - 1) ≤ d)
    (h : f.normalise neg d q = .finite b m k) :
    b = neg ∧ (m : ℚ) * 2 ^ k = d * 2 ^ q ∧ (d % 2 = 0 → m % 2 = 0) := by
  rw [normalise_of_ne hd] at h
  split at h
  · rename_i zero
    cases h
    simp [zero]
  · split at h
    · cases h
    · split at h
      · rename_i low
        obtain ⟨flushes, low⟩ := low
        rcases hk with keeps | high
        · simp [keeps] at flushes
        · omega
      · cases h
        exact ⟨rfl, rfl, id⟩

/-- Where nothing is flushed, a finite normalised datum has the sign and the value it was made from,
and an even significand stays even. -/
theorem normalise_finite {f : FpFormat} {neg b : Bool} {d m : Nat} {q k : Int}
    (hk : f.flushSubnormals = false ∨ 2 ^ (f.precision - 1) ≤ d)
    (h : f.normalise neg d q = .finite b m k) :
    b = neg ∧ (m : ℚ) * 2 ^ k = d * 2 ^ q ∧ (d % 2 = 0 → m % 2 = 0) := by
  by_cases carry : d = 2 ^ f.precision
  · have hp := f.precision_pos
    rw [carry, normalise_carry] at h
    obtain ⟨sign, value, even⟩ := normalise_finite_of_ne (half_ne_carry f) (.inr le_rfl) h
    refine ⟨sign, ?_, fun _ => even (Nat.two_pow_mod_two_eq_zero.mpr (by omega))⟩
    rw [value, carry, two_pow_precision, zpow_add_one₀ two_ne_zero]
    push_cast
    ring
  · exact normalise_finite_of_ne carry hk h

/-- Where nothing is flushed, the normalised datum is the value of the format nearest to the exact
one, ties to even. -/
theorem normalise_nearestEven {f : FpFormat} {neg b : Bool} {x : ℚ} {d m : Nat} {q k : Int}
    (hr : RoundsAt f x d q) (hk : f.flushSubnormals = false ∨ 2 ^ (f.precision - 1) ≤ d)
    (h : f.normalise neg d q = .finite b m k) :
    b = neg ∧ nearestEven f ((if neg then -1 else 1) * x) (.finite b m k) := by
  have hv : f.isValue (.finite false m k) := by
    have := f.normalise_isValue neg hr.le hr.qMin_le (hr.full.symm.imp_left And.left)
    rw [h] at this
    exact this
  obtain ⟨rfl, value, even⟩ := normalise_finite hk h
  have pos : nearestEven f x (.finite false m k) := by
    refine ⟨hv, false, m, k, d * 2 ^ q, rfl, ?_, fun y w hy hw => ?_⟩
    · rw [value?_finite, value]
      simp
    · obtain ⟨le, tie⟩ := hr.nearest hy hw
      exact ⟨le, fun h => (tie h).imp_right even⟩
  refine ⟨rfl, ?_⟩
  cases b
  · simpa using pos
  · simpa [Fp.neg] using pos.neg

/-- A format that keeps subnormals rounds to its nearest value, ties to even. -/
theorem round_nearestEven {f : FpFormat} {neg b : Bool} {num den m : Nat} {e k : Int}
    (hf : f.flushSubnormals = false) (hd : 0 < den) (h : f.round neg num den e = .finite b m k) :
    b = neg ∧
      nearestEven f ((if neg then -1 else 1) * ((num : ℚ) / den * 2 ^ e)) (.finite b m k) := by
  obtain ⟨d, q, hround, hr⟩ := round_eq_normalise f neg num hd e
  rw [hround] at h
  exact normalise_nearestEven hr (.inl hf) h

/-! ### Overflow -/

/-- `d` last places `2^q` are beyond the largest finite value, by the last place or by a carry. -/
def overflows (f : FpFormat) (d : Nat) (q : Int) : Prop :=
  f.qMax < q ∨ (q = f.qMax ∧ d = 2 ^ f.precision)

/-- The normalised datum has the given sign, and is infinite exactly where the significand
overflows. -/
theorem RoundsAt.normalise_cases {f : FpFormat} {x : ℚ} {d : Nat} {q : Int} (h : RoundsAt f x d q)
    (neg : Bool) : (f.normalise neg d q = .infinite neg ∧ overflows f d q) ∨
      ((∃ m k, f.normalise neg d q = .finite neg m k) ∧ ¬ overflows f d q) := by
  have pos : 0 < 2 ^ (f.precision - 1) := by positivity
  have bounds := f.qMin_lt_qMax
  unfold overflows
  by_cases carry : d = 2 ^ f.precision
  · rw [carry, normalise_carry, normalise_of_ne (half_ne_carry f), if_neg pos.ne']
    split
    · exact .inl ⟨rfl, by omega⟩
    · exact .inr ⟨by split <;> exact ⟨_, _, rfl⟩, by omega⟩
  · rw [normalise_of_ne carry]
    split
    · have small : q = f.qMin := h.full.resolve_right fun full => by omega
      exact .inr ⟨⟨_, _, rfl⟩, by omega⟩
    · split
      · exact .inl ⟨rfl, .inl ‹_›⟩
      · exact .inr ⟨by split <;> exact ⟨_, _, rfl⟩, by omega⟩

/-- What overflows has reached the threshold of half a last place above the largest finite value. -/
theorem RoundsAt.threshold_le {f : FpFormat} {x : ℚ} {d : Nat} {q : Int} (h : RoundsAt f x d q)
    (high : overflows f d q) : (2 ^ f.precision - 1 / 2) * 2 ^ f.qMax ≤ x := by
  have hp := f.precision_pos
  have unit : (0 : ℚ) < 2 ^ f.qMax := by positivity
  rcases high with hq | ⟨rfl, rfl⟩
  · obtain ⟨-, lo⟩ := h.full.resolve_left (by have := f.qMin_lt_qMax; omega)
    calc (2 ^ f.precision - 1 / 2 : ℚ) * 2 ^ f.qMax ≤ 2 ^ f.precision * 2 ^ f.qMax := by
          gcongr; linarith
      _ ≤ 2 ^ (f.precision - 1) * 2 ^ q := pow_mul_zpow_le (by omega)
      _ ≤ x := lo
  · have near := (abs_le.mp h.near).1
    push_cast at near
    linarith

/-- What does not overflow is below the threshold: there the tie goes to the even significand, which
carries. -/
theorem RoundsAt.lt_threshold {f : FpFormat} {x : ℚ} {d : Nat} {q : Int} (h : RoundsAt f x d q)
    (low : ¬ overflows f d q) : x < (2 ^ f.precision - 1 / 2) * 2 ^ f.qMax := by
  have hp := f.precision_pos
  have unit : (0 : ℚ) < 2 ^ f.qMax := by positivity
  obtain ⟨hle, hne⟩ := not_or.mp low
  rcases lt_or_eq_of_le (not_lt.mp hle) with hq | rfl
  · have half : (2 : ℚ) ^ f.precision = 2 * 2 ^ (f.precision - 1) := by
      exact_mod_cast two_pow_precision f
    have one : (1 : ℚ) ≤ 2 ^ (f.precision - 1) := one_le_pow₀ one_le_two
    calc x < 2 ^ f.precision * 2 ^ q := h.lt
      _ ≤ 2 ^ (f.precision - 1) * 2 ^ f.qMax := pow_mul_zpow_le (by omega)
      _ ≤ (2 ^ f.precision - 1 / 2) * 2 ^ f.qMax := by gcongr; linarith
  · by_contra! reached
    have below : d + 1 ≤ 2 ^ f.precision := by
      have := h.le
      omega
    have below' : ((d : ℚ) + 1) * 2 ^ f.qMax ≤ 2 ^ f.precision * 2 ^ f.qMax := by
      gcongr
      exact_mod_cast below
    have near := (abs_le.mp h.near).2
    have tie : x - d * 2 ^ f.qMax = 2 ^ f.qMax / 2 := by linarith
    have even : d % 2 = 0 := h.even (by rw [tie, abs_of_pos (by positivity)])
    have last : d + 1 = 2 ^ f.precision := by
      have : ((d : ℚ) + 1) * 2 ^ f.qMax = 2 ^ f.precision * 2 ^ f.qMax := by linarith
      exact_mod_cast mul_right_cancel₀ unit.ne' this
    have : 2 ^ f.precision % 2 = 0 := Nat.two_pow_mod_two_eq_zero.mpr (by omega)
    omega

/-- A rounding is an infinity from the threshold on, and a number below it. -/
theorem round_cases (f : FpFormat) (neg : Bool) (num : Nat) {den : Nat} (hd : 0 < den) (e : Int) :
    (f.round neg num den e = .infinite neg ∧
      (2 ^ f.precision - 1 / 2) * 2 ^ f.qMax ≤ (num : ℚ) / den * 2 ^ e) ∨
    ((∃ m k, f.round neg num den e = .finite neg m k) ∧
      (num : ℚ) / den * 2 ^ e < (2 ^ f.precision - 1 / 2) * 2 ^ f.qMax) := by
  obtain ⟨d, q, hround, hr⟩ := round_eq_normalise f neg num hd e
  rw [hround]
  exact (hr.normalise_cases neg).imp (And.imp_right hr.threshold_le) (And.imp_right hr.lt_threshold)

/-- The threshold in terms of the largest exponent. -/
theorem overflow_threshold (f : FpFormat) :
    (2 - 2 ^ (-(f.precision : Int)) : ℚ) * 2 ^ f.emax = (2 ^ f.precision - 1 / 2) * 2 ^ f.qMax := by
  have hmax : f.emax = f.qMax + (f.precision - 1) := by unfold FpFormat.qMax; ring
  rw [hmax, zpow_add₀ two_ne_zero, zpow_sub_one₀ two_ne_zero, zpow_neg, zpow_natCast]
  field_simp

/-- A rounding overflows exactly from the threshold on. -/
theorem round_eq_infinite_iff (f : FpFormat) (neg : Bool) (num : Nat) {den : Nat} (hd : 0 < den)
    (e : Int) : f.round neg num den e = .infinite neg ↔
      (2 - 2 ^ (-(f.precision : Int))) * 2 ^ f.emax ≤ (num : ℚ) / den * 2 ^ e := by
  rw [overflow_threshold]
  obtain ⟨inf, reached⟩ | ⟨⟨m, k, fin⟩, below⟩ := round_cases f neg num hd e
  · exact iff_of_true inf reached
  · exact iff_of_false (by rw [fin]; exact Fp.noConfusion) (not_le.mpr below)

/-! ### The operations -/

/-- `r` is the rounding of the exact value `v`, of one sign or the other. -/
def isRounding (f : FpFormat) (v : ℚ) (r : Fp) : Prop :=
  ∃ (neg : Bool) (num den : Nat) (e : Int), 0 < den ∧
    v = (if neg then -1 else 1) * ((num : ℚ) / den * 2 ^ e) ∧ r = f.round neg num den e

/-- A finite rounding is the nearest value, ties to even. -/
theorem isRounding.nearestEven {f : FpFormat} {v : ℚ} {r : Fp} (h : isRounding f v r)
    (hf : f.flushSubnormals = false) (fin : r.isFinite = true) : nearestEven f v r := by
  obtain ⟨neg, num, den, e, hd, rfl, rfl⟩ := h
  obtain ⟨inf, -⟩ | ⟨⟨m, k, hr⟩, -⟩ := round_cases f neg num hd e
  · rw [inf] at fin
    cases fin
  · rw [hr]
    exact (round_nearestEven hf hd hr).2

/-- A sum of finite data is a rounding of the exact sum. -/
theorem addCore_isRounding (f : FpFormat) {x y : Fp} {v w : ℚ} (hx : x.value? = some v)
    (hy : y.value? = some w) : isRounding f (v + w) (f.addCore x y) := by
  obtain ⟨a, m, e, rfl, rfl⟩ := exists_finite_of_value? hx
  obtain ⟨b, n, k, rfl, rfl⟩ := exists_finite_of_value? hy
  obtain ⟨neg, num, q, hv, h⟩ := addCore_finite f a b m n e k
  exact ⟨neg, num, 1, q, one_pos, hv, h⟩

theorem sign_mul_sign (a b : Bool) :
    (if a then (-1 : ℚ) else 1) * (if b then -1 else 1) = if a != b then -1 else 1 := by
  cases a <;> cases b <;> norm_num

theorem sign_div_sign (a b : Bool) :
    (if a then (-1 : ℚ) else 1) / (if b then -1 else 1) = if a != b then -1 else 1 := by
  cases a <;> cases b <;> norm_num

/-- A product of finite data is a rounding of the exact product. -/
theorem mulCore_isRounding (f : FpFormat) {x y : Fp} {v w : ℚ} (hx : x.value? = some v)
    (hy : y.value? = some w) : isRounding f (v * w) (f.mulCore x y) := by
  obtain ⟨a, m, e, rfl, rfl⟩ := exists_finite_of_value? hx
  obtain ⟨b, n, k, rfl, rfl⟩ := exists_finite_of_value? hy
  refine ⟨a != b, m * n, 1, e + k, one_pos, ?_, rfl⟩
  rw [← sign_mul_sign, zpow_add₀ two_ne_zero]
  push_cast
  ring

/-- A quotient of finite data, the divisor not zero, is a rounding of the exact quotient. -/
theorem divCore_isRounding (f : FpFormat) {x y : Fp} {v w : ℚ} (hx : x.value? = some v)
    (hy : y.value? = some w) (hw : w ≠ 0) : isRounding f (v / w) (f.divCore x y) := by
  obtain ⟨a, m, e, rfl, rfl⟩ := exists_finite_of_value? hx
  obtain ⟨b, n, k, rfl, rfl⟩ := exists_finite_of_value? hy
  have hn : n ≠ 0 := by
    rintro rfl
    simp at hw
  refine ⟨a != b, m, n, e - k, Nat.pos_of_ne_zero hn, ?_, if_neg hn⟩
  rw [← sign_div_sign, mul_div_mul_comm, zpow_sub₀ two_ne_zero, mul_div_mul_comm]

/-- A format that keeps subnormals takes its operands as they are. -/
theorem operand_of_keeps {f : FpFormat} (hf : f.flushSubnormals = false) (x : Fp) :
    f.operand x = x := by
  cases x <;> simp [FpFormat.operand, hf]

/-- In a format that keeps subnormals, a finite result of an operation is the value nearest to the
exact one, ties to even. -/
theorem operations_nearestEven {f : FpFormat} {x y : Fp} {v w : ℚ} (hf : f.flushSubnormals = false)
    (hx : x.value? = some v) (hy : y.value? = some w) :
    ((f.add x y).isFinite = true → nearestEven f (v + w) (f.add x y)) ∧
    ((f.sub x y).isFinite = true → nearestEven f (v - w) (f.sub x y)) ∧
    ((f.mul x y).isFinite = true → nearestEven f (v * w) (f.mul x y)) ∧
    (w ≠ 0 → (f.div x y).isFinite = true → nearestEven f (v / w) (f.div x y)) := by
  unfold FpFormat.add FpFormat.sub FpFormat.mul FpFormat.div
  rw [operand_of_keeps hf, operand_of_keeps hf, sub_eq_add_neg]
  exact ⟨(addCore_isRounding f hx hy).nearestEven hf,
    (addCore_isRounding f hx (neg_value? hy)).nearestEven hf,
    (mulCore_isRounding f hx hy).nearestEven hf,
    fun hw => (divCore_isRounding f hx hy hw).nearestEven hf⟩

/-! ### Flushing -/

@[simp] theorem flushed_zero (f : FpFormat) (b : Bool) : flushed f (.finite b 0 0) = .finite b 0 0 :=
  if_pos (by positivity)

/-- A flushing format takes a value as an operand flushed. -/
theorem operand_of_flushes {f : FpFormat} (hf : f.flushSubnormals = true) {x : Fp}
    (hx : (keeping f).isValue x) : f.operand x = flushed f x := by
  cases x with
  | nan => rfl
  | infinite b => rfl
  | finite b m e =>
    obtain ⟨rfl, rfl⟩ | ⟨hm, -, hq, -, hn⟩ := hx
    · simp [FpFormat.operand]
    · have small : (m.log2 : Int) + e < f.emin ↔ m < 2 ^ (f.precision - 1) := by
        have hp := f.precision_pos
        have qMin : f.qMin = f.emin - (f.precision - 1) := rfl
        rw [← Nat.log2_lt hm.ne']
        change f.qMin ≤ e at hq
        change 2 ^ (f.precision - 1) ≤ m ∨ (e = f.qMin ∧ _) at hn
        rw [← Nat.le_log2 hm.ne'] at hn
        omega
      simp [FpFormat.operand, flushed, hf, hm.ne', small]

/-- `normalise_of_flushes` for a significand that does not carry. -/
theorem normalise_of_flushes_of_ne {f : FpFormat} (hf : f.flushSubnormals = true) (neg : Bool)
    {m : Nat} (hm : m ≠ 2 ^ f.precision) (q : Int) :
    f.normalise neg m q = flushed f ((keeping f).normalise neg m q) := by
  rw [normalise_of_ne hm, normalise_of_ne (f := keeping f) hm]
  split
  · exact (flushed_zero f neg).symm
  · change _ = flushed f (if f.qMax < q then _ else if false = true ∧ _ then _ else _)
    split
    · rfl
    · simp [flushed, hf]

/-- A flushing format normalises as the one that keeps subnormals does, the result flushed. -/
theorem normalise_of_flushes {f : FpFormat} (hf : f.flushSubnormals = true) (neg : Bool) (m : Nat)
    (q : Int) : f.normalise neg m q = flushed f ((keeping f).normalise neg m q) := by
  by_cases carry : m = 2 ^ f.precision
  · have kept := normalise_carry (keeping f) neg q
    change (keeping f).normalise neg (2 ^ f.precision) q =
      (keeping f).normalise neg (2 ^ (f.precision - 1)) (q + 1) at kept
    rw [carry, kept, normalise_carry]
    exact normalise_of_flushes_of_ne hf neg (half_ne_carry f) _
  · exact normalise_of_flushes_of_ne hf neg carry q

/-- A flushing format rounds as the one that keeps subnormals does, the result flushed. -/
theorem round_of_flushes {f : FpFormat} (hf : f.flushSubnormals = true) (neg : Bool) (num den : Nat)
    (e : Int) : f.round neg num den e = flushed f ((keeping f).round neg num den e) := by
  unfold FpFormat.round
  split
  · simp
  · exact normalise_of_flushes hf _ _ _

theorem addCore_of_flushes {f : FpFormat} (hf : f.flushSubnormals = true) (x y : Fp) :
    f.addCore x y = flushed f ((keeping f).addCore x y) := by
  unfold FpFormat.addCore
  split <;> try rfl
  · split <;> rfl
  · simp only
    split
    · simp
    · exact round_of_flushes hf _ _ _ _

theorem mulCore_of_flushes {f : FpFormat} (hf : f.flushSubnormals = true) (x y : Fp) :
    f.mulCore x y = flushed f ((keeping f).mulCore x y) := by
  unfold FpFormat.mulCore
  split <;> try rfl
  · split <;> rfl
  · split <;> rfl
  · exact round_of_flushes hf _ _ _ _

theorem divCore_of_flushes {f : FpFormat} (hf : f.flushSubnormals = true) (x y : Fp) :
    f.divCore x y = flushed f ((keeping f).divCore x y) := by
  unfold FpFormat.divCore
  split <;> try rfl
  · simp
  · split
    · split <;> rfl
    · exact round_of_flushes hf _ _ _ _

/-- On values, a flushing format gives what the one that keeps subnormals gives, operands and result
flushed. -/
theorem operations_of_flushes {f : FpFormat} {x y : Fp} (hf : f.flushSubnormals = true)
    (hx : (keeping f).isValue x) (hy : (keeping f).isValue y) :
    f.add x y = flushed f ((keeping f).add (flushed f x) (flushed f y)) ∧
    f.sub x y = flushed f ((keeping f).sub (flushed f x) (flushed f y)) ∧
    f.mul x y = flushed f ((keeping f).mul (flushed f x) (flushed f y)) ∧
    f.div x y = flushed f ((keeping f).div (flushed f x) (flushed f y)) := by
  have keeps : ∀ z, (keeping f).operand z = z := operand_of_keeps rfl
  unfold FpFormat.add FpFormat.sub FpFormat.mul FpFormat.div
  rw [operand_of_flushes hf hx, operand_of_flushes hf hy, keeps, keeps]
  exact ⟨addCore_of_flushes hf _ _, addCore_of_flushes hf _ _, mulCore_of_flushes hf _ _,
    divCore_of_flushes hf _ _⟩

/-- Settles O34: nearness and overflow from what `round` normalises, the operations as roundings of
their exact results, and flushing operation by operation. -/
theorem roundingIsNearestTiesToEven : Obligations.RoundingIsNearestTiesToEven := by
  refine ⟨fun f neg b num den m e q hf hd h => ?_,
    fun f neg num den e hd => round_eq_infinite_iff f neg num hd e,
    fun f x y v w hf hx hy => operations_nearestEven hf hx hy,
    fun f x y hf hx hy => operations_of_flushes hf hx hy⟩
  rw [mul_assoc]
  exact round_nearestEven hf hd h

end Sys2Proof.Machine
end

section
/-! `PI` is the rounding of Euler's sum, which is near to π (40_svf.md R102; 92_eei_decisions.md D7). -/

namespace Sys2Proof.Machine

open Sys2Proof

/-- The sum that `PI` is rounded from. -/
def piSum (f : FpFormat) : ℚ := (piScaled f.piBits : ℚ) / (1 : Nat) * 2 ^ (-(f.piBits : Int))

/-- The sum is within four units of its last bit of π. -/
theorem abs_piSum_sub_pi_le (f : FpFormat) :
    |(piSum f : ℝ) - Real.pi| ≤ 2 ^ (2 - 42 * (f.precision : Int)) := by
  obtain ⟨hi, lo⟩ := piScaled_bounds f.piBits
  have sum : (piSum f : ℝ) = piScaled f.piBits / 2 ^ f.piBits := by
    simp [piSum, div_eq_mul_inv]
  have unit : (2 : ℝ) ^ (2 - 42 * (f.precision : Int)) = 4 / 2 ^ f.piBits := by
    rw [zpow_sub₀ two_ne_zero, ← zpow_natCast]
    norm_num [FpFormat.piBits]
  have pos : (0 : ℝ) < 2 ^ f.piBits := by positivity
  rw [sum, unit, div_sub' pos.ne', abs_div, abs_of_pos pos]
  gcongr
  rw [abs_le]
  constructor <;> linarith

/-- The sum is between 2 and 4. -/
theorem piSum_bounds (f : FpFormat) : 2 ≤ piSum f ∧ piSum f ≤ 4 := by
  have margin : (2 : ℝ) ^ (2 - 42 * (f.precision : Int)) ≤ 1 / 2 := by
    have := f.precision_pos
    calc (2 : ℝ) ^ (2 - 42 * (f.precision : Int)) ≤ 2 ^ (-1 : Int) :=
          zpow_le_zpow_right₀ one_le_two (by omega)
      _ = 1 / 2 := by norm_num
  obtain ⟨lo, hi⟩ := abs_le.mp ((abs_piSum_sub_pi_le f).trans margin)
  have three := Real.pi_gt_three
  have four := Real.pi_lt_d2
  constructor
  · have : (2 : ℝ) ≤ piSum f := by linarith
    exact_mod_cast this
  · have : (piSum f : ℝ) ≤ 4 := by linarith
    exact_mod_cast this

/-- The largest exponent of every format is at least that of binary32. -/
theorem emax_ge (f : FpFormat) : 127 ≤ f.emax := by
  have : (2 : Int) ^ 7 ≤ 2 ^ (7 + f.extraExponent) := pow_le_pow_right₀ one_le_two (by omega)
  unfold FpFormat.emax
  omega

/-- Nothing up to 4 overflows. -/
theorem four_lt_threshold (f : FpFormat) : (4 : ℚ) < (2 ^ f.precision - 1 / 2) * 2 ^ f.qMax := by
  have hp := f.precision_pos
  have hmax := emax_ge f
  have qMax : f.qMax = f.emax - (f.precision - 1) := rfl
  have half : (2 : ℚ) ^ f.precision = 2 * 2 ^ (f.precision - 1) := by
    exact_mod_cast two_pow_precision f
  have one : (1 : ℚ) ≤ 2 ^ (f.precision - 1) := one_le_pow₀ one_le_two
  calc (4 : ℚ) < 2 ^ 3 * 2 ^ (0 : Int) := by norm_num
    _ ≤ 2 ^ (f.precision - 1) * 2 ^ f.qMax := pow_mul_zpow_le (by omega)
    _ ≤ (2 ^ f.precision - 1 / 2) * 2 ^ f.qMax := by gcongr; linarith

/-- What is rounded at the smallest last place is below 1. -/
theorem RoundsAt.lt_one_of_qMin {f : FpFormat} {x : ℚ} {d : Nat} (h : RoundsAt f x d f.qMin) :
    x < 1 := by
  have hmax := emax_ge f
  have qMin : f.qMin = 1 - f.emax - (f.precision - 1) := rfl
  calc x < 2 ^ f.precision * 2 ^ f.qMin := h.lt
    _ ≤ 2 ^ 0 * 2 ^ (0 : Int) := pow_mul_zpow_le (by omega)
    _ = 1 := by norm_num

/-- `PI` is the value of the format nearest to the sum, ties to even: the sum does not overflow, and
it is not small enough to be flushed. -/
theorem pi_nearestEven (f : FpFormat) : nearestEven f (piSum f) f.pi := by
  obtain ⟨two, four⟩ := piSum_bounds f
  obtain ⟨d, q, hpi, hr⟩ :=
    round_eq_normalise f false (piScaled f.piBits) one_pos (-(f.piBits : Int))
  change f.pi = _ at hpi
  change RoundsAt f (piSum f) d q at hr
  have normal : 2 ^ (f.precision - 1) ≤ d := by
    rcases hr.full with rfl | ⟨full, -⟩
    · linarith [hr.lt_one_of_qMin]
    · exact full
  rw [hpi]
  obtain ⟨-, high⟩ | ⟨⟨m, k, fin⟩, -⟩ := hr.normalise_cases false
  · linarith [hr.threshold_le high, four_lt_threshold f]
  · rw [fin]
    simpa using (normalise_nearestEven hr (.inr normal) fin).2

/-- `PI` is as near to π as any value of the format, but for twice the error of the sum. -/
theorem pi_nearest (f : FpFormat) : ∃ v : ℚ, f.pi.value? = some v ∧ ∀ (y : Fp) (w : ℚ), f.isValue y →
    y.value? = some w →
    |(v : ℝ) - Real.pi| ≤ |(w : ℝ) - Real.pi| + 2 ^ (3 - 42 * (f.precision : Int)) := by
  obtain ⟨-, b, m, q, v, -, hv, near⟩ := pi_nearestEven f
  refine ⟨v, hv, fun y w hy hw => ?_⟩
  have le : |(piSum f : ℝ) - v| ≤ |(piSum f : ℝ) - w| := by exact_mod_cast (near y w hy hw).1
  have sum := abs_piSum_sub_pi_le f
  have twice : (2 : ℝ) ^ (3 - 42 * (f.precision : Int)) = 2 * 2 ^ (2 - 42 * (f.precision : Int)) := by
    rw [← zpow_one_add₀ two_ne_zero]
    congr 1
    ring
  calc |(v : ℝ) - Real.pi| ≤ |(v : ℝ) - piSum f| + |(piSum f : ℝ) - Real.pi| := abs_sub_le _ _ _
    _ = |(piSum f : ℝ) - v| + |(piSum f : ℝ) - Real.pi| := by rw [abs_sub_comm]
    _ ≤ |(piSum f : ℝ) - w| + |(piSum f : ℝ) - Real.pi| := by gcongr
    _ ≤ (|(piSum f : ℝ) - Real.pi| + |(w : ℝ) - Real.pi|) + |(piSum f : ℝ) - Real.pi| := by
      gcongr
      rw [abs_sub_comm (w : ℝ)]
      exact abs_sub_le _ _ _
    _ ≤ _ := by linarith

/-- A value of the format that is nearer to π than `ε` bounds the distance of `PI` by `ε`. -/
theorem abs_pi_sub_pi_le {f : FpFormat} {m : Nat} {e : Int} {ε : ℝ}
    (hv : f.isValue (.finite false m e))
    (h : |(m : ℝ) * 2 ^ e - Real.pi| + 2 ^ (-60 : Int) ≤ ε) :
    ∃ v : ℚ, f.pi.value? = some v ∧ |(v : ℝ) - Real.pi| ≤ ε := by
  obtain ⟨v, hpi, near⟩ := pi_nearest f
  have le := near _ (m * 2 ^ e) hv (by simp [value?_finite])
  have margin : (2 : ℝ) ^ (3 - 42 * (f.precision : Int)) ≤ 2 ^ (-60 : Int) :=
    zpow_le_zpow_right₀ one_le_two (by have := f.precision_pos; omega)
  push_cast at le
  exact ⟨v, hpi, by linarith⟩

/-- The `PI` of binary64 is within half a unit of its last place of π. -/
theorem pi_binary64 (flush : Bool) : ∃ v : ℚ, (FpFormat.pi ⟨36, 3, flush⟩).value? = some v ∧
    |(v : ℝ) - Real.pi| ≤ 2 ^ (-52 : Int) := by
  refine abs_pi_sub_pi_le (m := 7074237752028440) (e := -51) (.inr ?_) ?_
  · norm_num [FpFormat.precision, FpFormat.qMin, FpFormat.qMax, FpFormat.emin, FpFormat.emax]
  · have lo := Real.pi_gt_d20
    have hi := Real.pi_lt_d20
    rw [← le_sub_iff_add_le, abs_le]
    norm_num
    constructor <;> linarith

/-- The `PI` of binary32 is within half a unit of its last place of π. -/
theorem pi_binary32 (flush : Bool) : ∃ v : ℚ, (FpFormat.pi ⟨7, 0, flush⟩).value? = some v ∧
    |(v : ℝ) - Real.pi| ≤ 2 ^ (-23 : Int) := by
  refine abs_pi_sub_pi_le (m := 13176795) (e := -22) (.inr ?_) ?_
  · norm_num [FpFormat.precision, FpFormat.qMin, FpFormat.qMax, FpFormat.emin, FpFormat.emax]
  · have lo := Real.pi_gt_d20
    have hi := Real.pi_lt_d20
    rw [← le_sub_iff_add_le, abs_le]
    norm_num
    constructor <;> linarith

/-- Settles O35: `PI` is nearest to Euler's sum, the sum is near to π, and in binary64 and binary32 a
value within half a last place of π is at hand. -/
theorem piIsNearest : Obligations.PiIsNearest :=
  ⟨fun f => ⟨f.round_isValue _ _ one_pos _, pi_nearest f⟩,
    fun flush => ⟨pi_binary64 flush, pi_binary32 flush⟩⟩

end Sys2Proof.Machine
end

section
/-! Position independence (41_program_selector.md R135): moving the pointer and the scratch RAM
together by `k` words commutes with every operation of an invocation. -/

namespace Sys2Proof.Machine

/-! ### What the rotation does not move -/

section
variable {k : ScratchAddr} {s t : State}

/-- Whatever looks at neither the pointer nor the scratch RAM is the same in both states. -/
theorem Rotated.same {α : Type} (h : Rotated k s t) (f : State → α)
    (hf : ∀ p m, f { t with ptr := p, ram := m } = f t) : f t = f s :=
  (hf s.ptr s.ram).symm.trans (congrArg f h.rest)

theorem Rotated.acc (h : Rotated k s t) : t.acc = s.acc := h.same State.acc fun _ _ => rfl

theorem Rotated.ai (h : Rotated k s t) : t.ai = s.ai := h.same State.ai fun _ _ => rfl

theorem Rotated.li (h : Rotated k s t) : t.li = s.li := h.same State.li fun _ _ => rfl

theorem Rotated.dspIn (h : Rotated k s t) : t.dspIn = s.dspIn := h.same State.dspIn fun _ _ => rfl

theorem Rotated.stepIdx (h : Rotated k s t) : t.stepIdx = s.stepIdx := h.same State.stepIdx fun _ _ => rfl

theorem Rotated.outL (h : Rotated k s t) : t.outL = s.outL := h.same State.outL fun _ _ => rfl

theorem Rotated.outR (h : Rotated k s t) : t.outR = s.outR := h.same State.outR fun _ _ => rfl

theorem Rotated.fetchInstr (h : Rotated k s t) : t.fetchInstr = s.fetchInstr :=
  h.same State.fetchInstr fun _ _ => rfl

/-- Both states read the same word at their pointers. -/
theorem Rotated.mem (h : Rotated k s t) : t.mem = s.mem := by
  unfold State.mem
  rw [h.ptr]
  exact h.ram s.ptr

/-! ### Which updates keep the rotation -/

theorem Rotated.setLatches (h : Rotated k s t) (x y : Word) :
    Rotated k (s.setLatches x y) (t.setLatches x y) :=
  ⟨h.ptr, h.ram, congrArg (·.setLatches x y) h.rest⟩

theorem Rotated.setAi (h : Rotated k s t) (x : Word) : Rotated k (s.setAi x) (t.setAi x) :=
  ⟨h.ptr, h.ram, congrArg (·.setAi x) h.rest⟩

theorem Rotated.setAcc (h : Rotated k s t) (x : Word) : Rotated k (s.setAcc x) (t.setAcc x) :=
  ⟨h.ptr, h.ram, congrArg (·.setAcc x) h.rest⟩

theorem Rotated.setOutL (h : Rotated k s t) (x : Word) : Rotated k (s.setOutL x) (t.setOutL x) :=
  ⟨h.ptr, h.ram, congrArg (·.setOutL x) h.rest⟩

theorem Rotated.setOutR (h : Rotated k s t) (x : Word) : Rotated k (s.setOutR x) (t.setOutR x) :=
  ⟨h.ptr, h.ram, congrArg (·.setOutR x) h.rest⟩

/-- A read of the scratch RAM after a write. -/
theorem State.ramRead_ramWrite (s : State) (a b : ScratchAddr) (v : Word) :
    (s.ramWrite a v).ramRead b = if b = a then v else s.ramRead b := by
  simp only [State.ramRead, State.ramWrite, Memory.read_write, BitVec.toNat_inj]

/-- Both states write the same word at their pointers: `a + k` is the one's pointer exactly where `a`
is the other's, modulo 16384. -/
theorem Rotated.ramWrite (h : Rotated k s t) (v : Word) :
    Rotated k (s.ramWrite s.ptr v) (t.ramWrite t.ptr v) := by
  refine ⟨h.ptr, fun a => ?_, congrArg (·.ramWrite s.ptr v) h.rest⟩
  rw [State.ramRead_ramWrite, State.ramRead_ramWrite, h.ptr, h.ram a]
  simp only [BitVec.add_left_inj]

/-- The pointer advances modulo 16384, so the rotation is kept. -/
theorem Rotated.advance (h : Rotated k s t) (d : ScratchAddr) :
    Rotated k (s.advance d) (t.advance d) := by
  refine ⟨?_, h.ram, congrArg (·.advance d) h.rest⟩
  rw [State.advance_ptr, State.advance_ptr, h.ptr, add_right_comm]

/-! ### The instructions and the invocation -/

theorem Rotated.clampAi (h : Rotated k s t) : Rotated k s.clampAi t.clampAi := by
  unfold State.clampAi
  rw [h.ai]
  exact h.setAi _

/-- Both states take the same one of the four effects of a step. -/
theorem Rotated.hook (h : Rotated k s t) : Rotated k s.hook t.hook := by
  unfold State.hook
  rw [h.stepIdx, h.dspIn, h.ai, h.li]
  split_ifs
  · exact h.ramWrite _
  · exact h.setOutR _
  · exact h.setOutL _
  · exact h.setAcc _

theorem Rotated.finishStep (h : Rotated k s t) (d : ScratchAddr) :
    Rotated k (s.finishStep d) (t.finishStep d) :=
  h.clampAi.hook.advance d

/-- Two states and two outcomes: both go on, and the next states are rotated in the same way. -/
def BothNextRotated (k : ScratchAddr) (o p : StepOutcome) : Prop :=
  ∃ s' t' : State, o = .next s' ∧ p = .next t' ∧ Rotated k s' t'

/-- Every instruction keeps the rotation: it reads and writes the scratch RAM at the pointer only. -/
theorem Rotated.exec (h : Rotated k s t) (i : Instr) :
    BothNextRotated k (exec i s) (exec i t) := by
  cases i with
  | rda d =>
    refine ⟨_, _, rfl, rfl, ?_⟩
    rw [h.mem, h.acc]
    exact (h.setLatches _ _).finishStep d
  | rdl d =>
    refine ⟨_, _, rfl, rfl, ?_⟩
    rw [h.mem]
    exact (h.setLatches _ _).finishStep d
  | wra d =>
    refine ⟨_, _, rfl, rfl, ?_⟩
    rw [h.acc]
    exact ((h.setLatches _ _).ramWrite _).finishStep d
  | wrn d =>
    refine ⟨_, _, rfl, rfl, ?_⟩
    rw [h.acc]
    exact ((h.setLatches _ _).ramWrite _).finishStep d

end

/-- Any number of opcode steps keeps the rotation: both states fetch the same instruction at each. -/
theorem Rotated.engineSteps {k : ScratchAddr} {s t : State} (h : Rotated k s t) (n : Nat) :
    BothNextRotated k (engineSteps n s) (engineSteps n t) := by
  induction n generalizing s t with
  | zero => exact ⟨s, t, rfl, rfl, h⟩
  | succ n ih =>
    obtain ⟨s', t', hs, ht, h'⟩ := h.exec s.fetchInstr
    unfold Machine.engineSteps
    rw [h.fetchInstr, hs, ht]
    exact ih h'

/-- The beginning of an invocation writes the operand and the step index alone. -/
theorem Rotated.withOperand {k : ScratchAddr} {s t : State} (h : Rotated k s t) (d : Word) :
    Rotated k { s with dspIn := d, stepIdx := 0 } { t with dspIn := d, stepIdx := 0 } :=
  ⟨h.ptr, h.ram, congrArg (fun u : State => { u with dspIn := d, stepIdx := 0 }) h.rest⟩

/-- Settles O23, by the rotation as a simulation: every update of an opcode step keeps it, so every
instruction does, and the invocation by induction on its steps. -/
theorem rotatedScratchGivesSameOutputs : Obligations.RotatedScratchGivesSameOutputs := by
  intro k d s t h
  obtain ⟨s', t', hs, ht, h'⟩ := (h.withOperand d).engineSteps programLength
  exact ⟨s', t', hs, ht, h'.outL, h'.outR, h'⟩

end Sys2Proof.Machine
end

section
/-! The program selector (41_program_selector.md R130 to R133): the normalised index, and the host
calls that use it. -/

namespace Sys2Proof.Machine

/-! ### The normalised index -/

/-- `i & 0x3F` is `i` modulo 64. -/
@[simp] theorem normalIndex_toNat (i : BitVec 8) : (normalIndex i).toNat = i.toNat % 64 := by
  have mask : i.toNat &&& 63 = i.toNat % 64 := Nat.and_two_pow_sub_one_eq_mod i.toNat 6
  show (i.toNat &&& 63) % 64 = i.toNat % 64
  rw [mask, Nat.mod_mod]

/-- The base of a program is its index times 128, with no wrap. -/
@[simp] theorem baseOf_toNat (p : ProgIndex) : (baseOf p).toNat = 128 * p.toNat := by
  have hp := p.isLt
  simp only [baseOf, BitVec.toNat_shiftLeft, BitVec.toNat_setWidth, Nat.shiftLeft_eq]
  omega

/-- Normalising twice is normalising once. -/
theorem normalIndex_and_mask (i : BitVec 8) : normalIndex (i &&& 0x3F) = normalIndex i := by
  unfold normalIndex indexMask
  rw [BitVec.and_assoc, BitVec.and_self]

/-! ### A call of one step -/

/-- The next step of an idle machine begins the host's next call. -/
theorem NextCall.step_eq {op : HostOp} {rest : List HostCall} {s : State} (h : NextCall op rest s) :
    step s = callLive op { s with calls := rest } := by
  obtain ⟨overlaps, calls⟩ := h.calls
  have serve : step s = serveCall s := by
    unfold step
    rw [h.mark, h.phase]
  rw [serve, serveCall_eq calls h.alone]
  unfold beginCall
  rw [h.status]

/-- Where no call was in progress, the end of a call writes the result alone. -/
theorem State.finishCall_eq_of_idle {s : State} (h : s.phase = .idle) (r : HostResult) :
    s.finishCall r = { s with result := r } := by
  unfold State.finishCall
  rw [← h]

/-- Settles O25: the step is the call's only one, and it writes the selection pair. -/
theorem setProgramStoresSelection : Obligations.SetProgramStoresSelection := by
  intro s i rest h
  refine ⟨normalIndex i, baseOf (normalIndex i), normalIndex_toNat i, ?_, ?_⟩
  · rw [baseOf_toNat, normalIndex_toNat]
  · rw [h.step_eq]
    exact congrArg Host.Outcome.next
      (State.finishCall_eq_of_idle (s := setProgram i { s with calls := rest }) h.phase _)

/-- `set_program` uses the index only modulo 64. -/
theorem setProgram_and_mask (i : BitVec 8) (s : State) :
    setProgram i s = setProgram (i &&& 0x3F) s := by
  unfold setProgram
  rw [normalIndex_and_mask]

/-- Settles O26: the index is masked, so 64 is 0, and the second write of the pair writes the same
values. -/
theorem setProgramAliases : Obligations.SetProgramAliases :=
  ⟨setProgram_and_mask, fun _ _ => rfl, fun s => (setProgram_and_mask 64 s).symm⟩

/-! ### Program names -/

/-- A name has a first character. -/
theorem nameBytes_ne_nil (n : ProgramName) : nameBytes n ≠ [] := List.cons_ne_nil _ _

/-- Every byte of a name is an ASCII code other than NUL. -/
theorem nameBytes_ascii {n : ProgramName} {b : Byte} (h : b ∈ nameBytes n) :
    1 ≤ b.toNat ∧ b.toNat ≤ 127 := by
  obtain ⟨c, -, rfl⟩ := List.mem_map.mp h
  have hc := c.isLt
  rw [BitVec.toNat_ofNat]
  omega

/-- Settles O27: the step is the call's only one and writes the result; what a name's bytes are stands
in its type. -/
theorem programNameReturnsName : Obligations.ProgramNameReturnsName := by
  intro s i rest h
  refine ⟨normalIndex i, normalIndex_toNat i, ?_, nameBytes_ne_nil _, fun _ => nameBytes_ascii⟩
  rw [h.step_eq]
  exact congrArg Host.Outcome.next
    (State.finishCall_eq_of_idle (s := { s with calls := rest }) h.phase _)

end Sys2Proof.Machine
end

section
/-! What every instruction leaves behind, whatever its class: the common tail read off `exec` (42_dsp_engine.md
R147 to R152), and the instruction that a step of an invocation runs (R141). -/

namespace Sys2Proof.Machine

/-! ### The tail, seen from `exec` -/

/-- The I/O steps as the tail compares them. -/
theorem isIoStep_iff (k : StepIndex) : isIoStep k ↔ k = 0 ∨ k = 96 ∨ k = 112 := by
  simp [isIoStep, BitVec.toNat_eq]

/-- The clamp of R147 as a minimum and a maximum. -/
theorem clampWord_toInt_eq_max_min (v : Word) :
    (clampWord v).toInt = max (-2047) (min 2047 v.toInt) := by
  rw [clampWord_toInt, clamp]
  split_ifs <;> omega

theorem clampWord_inEngineRange (v : Word) : inEngineRange (clampWord v) := by
  rw [inEngineRange, clampWord_toInt]
  exact clamp_bounds (by decide) _

/-- What an instruction with delta `d` makes of `s`, whatever its class: the part of
`State.finishStep_fields` that does not depend on the class action. -/
structure CommonTail (d : ScratchAddr) (s t : State) : Prop where
  aiRange : inEngineRange t.ai
  accAtIo : isIoStep s.stepIdx → t.acc = s.acc
  accElse : ¬ isIoStep s.stepIdx → t.acc = t.li
  outR : t.outR = if s.stepIdx = 96 then t.ai else s.outR
  outL : t.outL = if s.stepIdx = 112 then t.ai else s.outL
  input : s.stepIdx = 0 → t.ram.read s.ptr.toNat = s.dspIn
  ptr : t.ptr = s.ptr + d
  stepIdx : t.stepIdx = s.stepIdx + 1
  phase : t.phase = s.phase.afterStep s.stepIdx

/-- The tail of a step from the step's own start has these properties. -/
theorem State.finishStep_commonTail (s : State) (d : ScratchAddr) :
    CommonTail d s (s.finishStep d) := by
  obtain ⟨ai, li, acc, outR, outL, ram, ptr, stepIdx, phase⟩ := s.finishStep_fields d
  rw [← ai] at outR outL
  exact {
    aiRange := ai ▸ clampWord_inEngineRange _
    accAtIo := fun h => acc.trans (if_pos ((isIoStep_iff _).mp h))
    accElse := fun h => (acc.trans (if_neg (mt (isIoStep_iff _).mpr h))).trans li.symm
    outR, outL, ptr, stepIdx, phase
    input := fun h => by rw [ram, if_pos h, Memory.read_write_same] }

/-- The class action writes `ai`, `li` and the scratch RAM alone, so the tail sees the rest as it was
at the start of the step. -/
theorem exec_commonTail (i : Instr) (s : State) :
    ∃ t : State, exec i s = .next t ∧ CommonTail i.deltaBits s t := by
  obtain ⟨a, he, ptr, stepIdx, acc, phase, frame, -⟩ := exec_cases i s
  have outL : a.outL = s.outL := (congrArg State.outL frame :)
  have outR : a.outR = s.outR := (congrArg State.outR frame :)
  have dspIn : a.dspIn = s.dspIn := (congrArg State.dspIn frame :)
  have tail := a.finishStep_commonTail i.deltaBits
  exact ⟨_, he, {
    aiRange := tail.aiRange
    accAtIo := by simpa only [stepIdx, acc] using tail.accAtIo
    accElse := by simpa only [stepIdx] using tail.accElse
    outR := by simpa only [stepIdx, outR] using tail.outR
    outL := by simpa only [stepIdx, outL] using tail.outL
    input := by simpa only [stepIdx, ptr, dspIn] using tail.input
    ptr := by simpa only [ptr] using tail.ptr
    stepIdx := by simpa only [stepIdx] using tail.stepIdx
    phase := by simpa only [stepIdx, phase] using tail.phase }⟩

/-- What no instruction writes; the phase moves on after step 127 only. -/
theorem exec_engineFrame {i : Instr} {s t : State} (h : exec i s = .next t) : EngineFrame s t := by
  have frame := exec_frame h
  obtain ⟨u, hu, tail⟩ := exec_commonTail i s
  obtain rfl : t = u := Host.Outcome.next.inj (h.symm.trans hu)
  exact {
    rom := (congrArg State.rom frame :)
    fp := (congrArg State.fp frame :)
    scratchOk := (congrArg State.scratchOk frame :)
    dspIn := (congrArg State.dspIn frame :)
    progIndex := (congrArg State.progIndex frame :)
    baseOffset := (congrArg State.baseOffset frame :)
    svf1 := (congrArg State.svf1 frame :)
    svf2 := (congrArg State.svf2 frame :)
    mark := (congrArg State.mark frame :)
    status := (congrArg State.status frame :)
    calls := (congrArg State.calls frame :)
    result := (congrArg State.result frame :)
    host := (congrArg State.host frame :)
    draws := (congrArg State.draws frame :)
    phase := fun hk => tail.phase.trans (if_neg fun e => hk (congrArg BitVec.toNat e)) }

/-- RDA and RDL leave in `ai` the clamped word that the scratch RAM held at the start of the step. -/
theorem exec_read_ai {i : Instr} {d : ScratchAddr} {s t : State} (hi : i = .rda d ∨ i = .rdl d)
    (h : exec i s = .next t) : t.ai = clampWord s.mem := by
  obtain rfl | rfl := hi <;> cases h <;> exact (State.finishStep_fields _ d).1

/-! ### The hooks -/

/-- Settles O13: step 0 is an I/O step but neither output step, and its hook stores after the class
action has read. -/
theorem stepZeroStoresInput : Obligations.StepZeroStoresInput := by
  intro i s h0
  obtain ⟨t, he, tail⟩ := exec_commonTail i s
  have acc := tail.accAtIo ((isIoStep_iff _).mpr (.inl h0))
  have outL := tail.outL
  have outR := tail.outR
  rw [if_neg (by rw [h0]; decide)] at outL outR
  refine ⟨t, he, tail.input h0, acc, outL, outR, fun ⟨d, hi⟩ => ?_⟩
  rw [exec_read_ai hi he]
  exact clampWord_toInt_eq_max_min _

/-- Settles O14: steps 96 and 112 are I/O steps, and each writes its own output latch only. -/
theorem outputHooksLatchClampedAi : Obligations.OutputHooksLatchClampedAi := by
  intro i s
  obtain ⟨t, he, tail⟩ := exec_commonTail i s
  have outL := tail.outL
  have outR := tail.outR
  refine ⟨fun h => ?_, fun h => ?_⟩
  · have hk : s.stepIdx = 96 := BitVec.eq_of_toNat_eq h
    rw [if_pos hk] at outR
    rw [if_neg (by rw [hk]; decide)] at outL
    exact ⟨t, he, outR, tail.aiRange, outL, tail.accAtIo (.inr (.inl h))⟩
  · have hk : s.stepIdx = 112 := BitVec.eq_of_toNat_eq h
    rw [if_neg (by rw [hk]; decide)] at outR
    rw [if_pos hk] at outL
    exact ⟨t, he, outL, tail.aiRange, outR, tail.accAtIo (.inr (.inr h))⟩

/-- Settles O15: the accumulator's clauses of the common tail. -/
theorem accumulatorLatchedAtOrdinarySteps : Obligations.AccumulatorLatchedAtOrdinarySteps := by
  intro i s
  obtain ⟨t, he, tail⟩ := exec_commonTail i s
  refine ⟨t, he, fun h0 h96 h112 => tail.accElse ?_, tail.accAtIo⟩
  rintro (h | h | h)
  exacts [h0 h, h96 h, h112 h]

/-! ### The fetch -/

/-- A step of an invocation is the instruction that it fetches. -/
theorem step_eq_exec_fetchInstr {s : State} {c : RunCall} (hm : s.mark = .clear)
    (hp : s.phase = .engine c) (ho : noOverlap s) : step s = exec s.fetchInstr s := by
  unfold step
  rw [hm, hp]
  exact whileBusy_eq ho _

/-- Under a program's base the fetched word is the one at `base_offset + s`. -/
theorem State.fetchInstr_eq {s : State} (h : s.baseOffset.toNat = 128 * s.progIndex.toNat) :
    s.fetchInstr = decodeWord (s.rom.read (s.baseOffset.toNat + s.stepIdx.toNat)) := by
  rw [State.fetchInstr, State.fetchWord, (State.fetchAddr_toNat h).1]

/-- Settles O6: the fetch address does not wrap under a program's base, and no call overlaps. -/
theorem stepRunsFetchedInstruction : Obligations.StepRunsFetchedInstruction := by
  intro s c hm hp ho hb
  obtain ⟨addr, inRom⟩ := State.fetchAddr_toNat hb
  refine ⟨?_, ?_⟩
  · omega
  · rw [step_eq_exec_fetchInstr hm hp ho, State.fetchInstr_eq hb]

end Sys2Proof.Machine
end

section
/-! An invocation as a whole (42_dsp_engine.md R140): its 128 steps in order, and how far they move the
pointer (R152).  The step index of step `k` is `BitVec.ofNat 7 k`, which after the last step, `k = 128`,
is 0 again. -/

namespace Sys2Proof.Machine

/-! ### The steps in order -/

/-- A step that answers a next state is the first of a run. -/
theorem run_succ_of_step {M : Host.Core} {s t : M.State} (h : M.step s = .next t) (n : Nat) :
    M.run (n + 1) s = M.run n t := by
  rw [Host.Core.run, h]

/-- In the invocation of the pair of `c`, before its step `k`; at `k = 128`, after its last one. -/
structure InvocationAt (c : RunCall) (k : Nat) (s : State) : Prop where
  mark : s.mark = .clear
  alone : noOverlap s
  stepIdx : s.stepIdx = BitVec.ofNat 7 k
  phase : s.phase = if k < 128 then .engine c else .pairEnd c

/-- The phase moves on after step 127 and at no other step. -/
theorem afterStep_engine (c : RunCall) {k : Nat} (hk : k < 128) :
    (Phase.engine c).afterStep (BitVec.ofNat 7 k) =
      if k + 1 < 128 then .engine c else .pairEnd c := by
  have last : BitVec.ofNat 7 k = lastStep ↔ ¬ k + 1 < 128 := by
    rw [BitVec.toNat_eq, BitVec.toNat_ofNat]
    change k % 128 = 127 ↔ _
    omega
  unfold Phase.afterStep
  rw [if_congr last rfl rfl, ite_not]

/-- Each of the 128 steps is an instruction, after which the next step is due. -/
theorem InvocationAt.step {c : RunCall} {k : Nat} {s : State} (h : InvocationAt c k s)
    (hk : k < 128) :
    ∃ t : State, step s = .next t ∧ exec s.fetchInstr s = .next t ∧ InvocationAt c (k + 1) t := by
  have phase : s.phase = .engine c := h.phase.trans (if_pos hk)
  obtain ⟨t, he, tail⟩ := exec_commonTail s.fetchInstr s
  have frame := exec_engineFrame he
  refine ⟨t, (step_eq_exec_fetchInstr h.mark phase h.alone).trans he, he,
    frame.mark.trans h.mark, ?_, ?_, ?_⟩
  · unfold noOverlap
    rw [frame.calls]
    exact h.alone
  · rw [tail.stepIdx, h.stepIdx]
    exact (BitVec.ofNat_add k 1).symm
  · rw [tail.phase, phase, h.stepIdx]
    exact afterStep_engine c hk

/-- Up to the end of the invocation, `n` steps of the machine are `n` opcode steps. -/
theorem InvocationAt.run {c : RunCall} {n k : Nat} {s : State} (h : InvocationAt c k s)
    (hn : k + n ≤ 128) :
    ∃ t : State, core.run n s = .next t ∧ engineSteps n s = .next t ∧ InvocationAt c (k + n) t := by
  induction n generalizing k s with
  | zero => exact ⟨s, rfl, rfl, h⟩
  | succ n ih =>
    obtain ⟨u, hu, he, hnext⟩ := h.step (by omega)
    obtain ⟨t, hrun, hsteps, hat⟩ := ih hnext (by omega)
    refine ⟨t, (run_succ_of_step (M := core) hu n).trans hrun, ?_, ?_⟩
    · rw [engineSteps, he, andThen_next, hsteps]
    · rwa [Nat.add_assoc, Nat.add_comm 1] at hat

/-- Settles O22, by induction on the steps of the invocation; the frame is that of the opcode steps,
with the step index back at 0. -/
theorem invocationRunsAllSteps : Obligations.InvocationRunsAllSteps := by
  intro s c hm hp h0 ho
  have start : InvocationAt c 0 s := ⟨hm, ho, h0, hp⟩
  refine ⟨?_, fun n hn => ?_⟩
  · obtain ⟨t, hrun, hsteps, hend⟩ := start.run (n := 128) (by omega)
    have stepIdx : t.stepIdx = 0 := hend.stepIdx
    have frame := engineSteps_frame hsteps
    rw [h0, ← stepIdx] at frame
    exact ⟨t, hrun, hsteps, hend.phase, stepIdx, frame⟩
  · obtain ⟨u, hrun, -, hat⟩ := start.run (n := n) (by omega)
    rw [Nat.zero_add] at hat
    refine ⟨u, hrun, hat.phase.trans (if_pos hn), ?_⟩
    rw [hat.stepIdx, BitVec.toNat_ofNat]
    exact Nat.mod_eq_of_lt hn

/-! ### The pointer over an invocation -/

/-- The delta of a decoded word is the word's low 14 bits (30_encoding.md R82). -/
theorem decodeWord_deltaBits_toNat (op : Word) :
    (decodeWord op).deltaBits.toNat = op.toNat % 16384 := by
  have low : (decodeWord op).deltaBits = delta op := by
    unfold decodeWord
    split_ifs <;> rfl
  rw [low, delta, BitVec.extractLsb'_toNat, Nat.shiftRight_zero]

/-- The delta of the word at step `k` of the selected program. -/
def State.programDelta (s : State) (k : Nat) : Nat :=
  (s.rom.read (s.baseOffset.toNat + k)).toNat % 16384

/-- The instruction fetched at a step has the program's delta of that step. -/
theorem State.fetchInstr_deltaBits_toNat {s : State}
    (h : s.baseOffset.toNat = 128 * s.progIndex.toNat) :
    s.fetchInstr.deltaBits.toNat = s.programDelta s.stepIdx.toNat := by
  rw [State.fetchInstr_eq h, decodeWord_deltaBits_toNat, State.programDelta]

/-- An instruction advances the pointer by its delta modulo 16384. -/
theorem CommonTail.ptr_toNat {d : ScratchAddr} {s t : State} (h : CommonTail d s t) :
    t.ptr.toNat = (s.ptr.toNat + d.toNat) % 16384 := by
  rw [h.ptr, BitVec.toNat_add]

/-- From step `k` on, `n` steps advance the pointer by the sum of their deltas. -/
theorem engineSteps_ptr_toNat {n k : Nat} {s : State}
    (hb : s.baseOffset.toNat = 128 * s.progIndex.toNat) (hs : s.stepIdx = BitVec.ofNat 7 k)
    (hn : k + n ≤ 128) :
    ∃ t : State, engineSteps n s = .next t ∧
      t.ptr.toNat = (s.ptr.toNat + ((List.range' k n).map s.programDelta).sum) % 16384 := by
  induction n generalizing k s with
  | zero => exact ⟨s, rfl, (Nat.mod_eq_of_lt s.ptr.isLt).symm⟩
  | succ n ih =>
    obtain ⟨u, he, tail⟩ := exec_commonTail s.fetchInstr s
    have frame := exec_engineFrame he
    have deltas : u.programDelta = s.programDelta := by
      unfold State.programDelta
      rw [frame.rom, frame.baseOffset]
    have stepIdx : u.stepIdx = BitVec.ofNat 7 (k + 1) := by
      rw [tail.stepIdx, hs]
      exact (BitVec.ofNat_add k 1).symm
    have hk : s.stepIdx.toNat = k := by
      rw [hs, BitVec.toNat_ofNat]
      omega
    have ptr : u.ptr.toNat = (s.ptr.toNat + s.programDelta k) % 16384 := by
      rw [tail.ptr_toNat, State.fetchInstr_deltaBits_toNat hb, hk]
    obtain ⟨t, hsteps, hptr⟩ := ih (by rw [frame.baseOffset, frame.progIndex, hb]) stepIdx (by omega)
    refine ⟨t, by rw [engineSteps, he, andThen_next, hsteps], ?_⟩
    rw [hptr, deltas, ptr, Nat.mod_add_mod, List.range'_succ, List.map_cons, List.sum_cons,
      Nat.add_assoc]

/-- Settles O17: an instruction by the common tail, an invocation by induction on its steps, the
deltas still to come being summed from the step reached. -/
theorem pointerAdvancesByDeltas : Obligations.PointerAdvancesByDeltas := by
  refine ⟨fun i s => ?_, fun d s hb => ?_⟩
  · obtain ⟨t, he, tail⟩ := exec_commonTail i s
    exact ⟨t, he, tail.ptr_toNat⟩
  · rw [List.range_eq_range']
    exact engineSteps_ptr_toNat (n := programLength) (k := 0)
      (s := { s with dspIn := d, stepIdx := 0 }) hb rfl (by decide)

end Sys2Proof.Machine
end

section
/-! The fixed-point scaler (43_fixed_point_scaler.md R180 to R183).  Its float conversions never round:
every result is a quotient `n / 2^k` that fits the 17 significand bits any admitted format has. -/

namespace Sys2Proof.Machine

/-! ### Operations that need no rounding -/

/-- An exact value that the format has rounds to itself. -/
theorem isRounding.holds {f : FpFormat} {v : ℚ} {r x : Fp} (h : isRounding f v r)
    (hx : holdsExactly f x v) : holdsExactly f r v := by
  obtain ⟨neg, num, den, e, hd, hv, rfl⟩ := h
  exact round_holds hd hv hx

/-- The quotient, where it needs no rounding. -/
theorem div_holds {f : FpFormat} {x y r : Fp} {v w : ℚ} (hx : holdsExactly f x v)
    (hy : holdsExactly f y w) (hw : w ≠ 0) (hr : holdsExactly f r (v / w)) :
    holdsExactly f (f.div x y) (v / w) := by
  rw [FpFormat.div, hx.operand, hy.operand]
  exact (divCore_isRounding f hx.2 hy.2 hw).holds hr

/-- +0 over a positive value is +0. -/
theorem zero_div_of_pos {f : FpFormat} {y : Fp} {w : ℚ} (hy : holdsExactly f y w) (hw : 0 < w) :
    f.div .zero y = .zero := by
  have hz : f.operand .zero = .zero := operand_of_isValue (f.isValue_zero false)
  rw [FpFormat.div, hz, hy.operand]
  obtain ⟨b, m, e, rfl, rfl⟩ := exists_finite_of_value? hy.2
  have hm : m ≠ 0 := by
    rintro rfl
    simp at hw
  have hb : b = false := by
    cases b with
    | false => rfl
    | true =>
      have : (0 : ℚ) ≤ m * 2 ^ e := by positivity
      simp only [if_true] at hw
      linarith
  subst hb
  exact if_neg hm

/-! ### The values that every format has -/

/-- Every format has the 17-bit naturals over `2^k`, up to `k = 16`: shifted up to the whole
significand they are normal. -/
theorem exists_holdsExactly_natCast_div (f : FpFormat) {n k : Nat} (hn : n < 2 ^ 17) (hk : k ≤ 16) :
    ∃ r, holdsExactly f r ((n : ℚ) / 2 ^ k) := by
  rcases Nat.eq_zero_or_pos n with rfl | pos
  · exact ⟨.zero, f.isValue_zero false, by simp [Fp.zero, Fp.value?, signedMant]⟩
  · have bits : n.log2 < 17 := (Nat.log2_lt pos.ne').mpr hn
    obtain ⟨j, hj⟩ : ∃ j, f.precision = n.log2 + 1 + j :=
      Nat.exists_eq_add_of_le (bits.trans_le f.precision_pos)
    have small : n * 2 ^ j < 2 ^ f.precision := by
      rw [hj, pow_add]
      exact Nat.mul_lt_mul_of_pos_right Nat.lt_log2_self (by positivity)
    have normal : 2 ^ (f.precision - 1) ≤ n * 2 ^ j := by
      rw [show f.precision - 1 = n.log2 + j by omega, pow_add]
      exact Nat.mul_le_mul_right _ (Nat.log2_self_le pos.ne')
    have range : f.qMin ≤ -(k : Int) - j ∧ -(k : Int) - j ≤ f.qMax := by
      have := emax_ge f
      unfold FpFormat.qMin FpFormat.qMax FpFormat.emin
      omega
    refine ⟨.finite false (n * 2 ^ j) (-(k : Int) - j),
      .inr ⟨by positivity, small, range.1, range.2, .inl normal⟩, ?_⟩
    rw [value?_finite, zpow_sub₀ two_ne_zero, zpow_neg, zpow_natCast, zpow_natCast]
    push_cast
    field_simp

/-- The same for the integers of 17 bits and a sign. -/
theorem exists_holdsExactly_intCast_div (f : FpFormat) {n : Int} {k : Nat} (hn : n.natAbs < 2 ^ 17)
    (hk : k ≤ 16) : ∃ r, holdsExactly f r ((n : ℚ) / 2 ^ k) := by
  obtain ⟨r, value, exact⟩ := exists_holdsExactly_natCast_div f hn hk
  obtain h | h := n.natAbs_eq
  · exact ⟨r, value, by rwa [h, Int.cast_natCast]⟩
  · refine ⟨r.neg, isValue_neg value, ?_⟩
    rw [h, Int.cast_neg, Int.cast_natCast, neg_div]
    exact neg_value? exact

/-- An integer is converted by one rounding. -/
theorem ofInt_isRounding (f : FpFormat) (n : Int) : isRounding f n (f.ofInt n) := by
  refine ⟨n < 0, n.natAbs, 1, 0, one_pos, ?_, rfl⟩
  have mag : ((n.natAbs : Nat) : ℚ) = |(n : ℚ)| := by simp
  rw [mag]
  rcases lt_or_ge n 0 with neg | pos
  · have : (n : ℚ) < 0 := mod_cast neg
    simp [neg, abs_of_neg this]
  · have : (0 : ℚ) ≤ n := mod_cast pos
    simp [not_lt.mpr pos, abs_of_nonneg this]

theorem ofNat_isRounding (f : FpFormat) (n : Nat) : isRounding f n (f.ofNat n) :=
  ⟨false, n, 1, 0, one_pos, by simp, rfl⟩

/-- An integer of 17 bits and a sign converts exactly. -/
theorem ofInt_holds (f : FpFormat) {n : Int} (hn : n.natAbs < 2 ^ 17) : holdsExactly f (f.ofInt n) n := by
  obtain ⟨r, hr⟩ := exists_holdsExactly_intCast_div f hn (Nat.zero_le 16)
  rw [pow_zero, div_one] at hr
  exact (ofInt_isRounding f n).holds hr

/-- A natural number of 17 bits converts exactly. -/
theorem ofNat_holds (f : FpFormat) {n : Nat} (hn : n < 2 ^ 17) : holdsExactly f (f.ofNat n) n := by
  obtain ⟨r, hr⟩ := exists_holdsExactly_natCast_div f hn (Nat.zero_le 16)
  rw [pow_zero, div_one] at hr
  exact (ofNat_isRounding f n).holds hr

/-! ### PCM to float -/

/-- The divisor of a sample. -/
theorem pcmScale_holds (f : FpFormat) : holdsExactly f (f.ofNat pcmScale) 32768 :=
  ofNat_holds f (n := 32768) (by decide)

/-- The float of a sample is the sample over 32768. -/
theorem pcmToFp_holds (f : FpFormat) (v : Word) :
    holdsExactly f (pcmToFp f v) ((v.toInt : ℚ) / 32768) := by
  have hv : v.toInt.natAbs < 2 ^ 17 := by
    have := v.toInt_lt
    have := v.le_toInt
    omega
  obtain ⟨r, hr⟩ := exists_holdsExactly_intCast_div f hv (k := 15) (by decide)
  rw [show (2 : ℚ) ^ 15 = 32768 by norm_num] at hr
  exact div_holds (ofInt_holds f hv) (pcmScale_holds f) (by norm_num) hr

/-- Settles O36: sample and divisor are exact, and so is their quotient. -/
theorem pcmToFloatIsExact : Obligations.PcmToFloatIsExact := by
  intro f v
  have lo : (-32768 : ℚ) ≤ v.toInt := mod_cast v.le_toInt
  have hi : (v.toInt : ℚ) < 32768 := mod_cast v.toInt_lt
  refine ⟨(pcmToFp_holds f v).2, ?_, ?_, zero_div_of_pos (pcmScale_holds f) (by norm_num)⟩
  · rw [le_div_iff₀ (by norm_num)]; linarith
  · rw [div_lt_iff₀ (by norm_num)]; linarith

/-! ### The mono sum -/

/-- The sum of two samples takes 17 bits and a sign, and halving it moves the point only: neither
operation rounds. -/
theorem monoSum_holds (f : FpFormat) (l r : Word) :
    holdsExactly f (monoSum f (pcmToFp f l) (pcmToFp f r))
      (((l.toInt + r.toInt : Int) : ℚ) / 65536) := by
  have hn : (l.toInt + r.toInt).natAbs < 2 ^ 17 := by
    have := l.le_toInt
    have := l.toInt_lt
    have := r.le_toInt
    have := r.toInt_lt
    omega
  have sum_eq : ((l.toInt + r.toInt : Int) : ℚ) / 2 ^ 15 = l.toInt / 32768 + r.toInt / 32768 := by
    push_cast; ring
  have half_eq : ((l.toInt + r.toInt : Int) : ℚ) / 2 ^ 16 = (l.toInt / 32768 + r.toInt / 32768) / 2 := by
    push_cast; ring
  obtain ⟨y, hy⟩ := exists_holdsExactly_intCast_div f hn (k := 15) (by decide)
  obtain ⟨z, hz⟩ := exists_holdsExactly_intCast_div f hn (k := 16) (by decide)
  have sum := add_holds (pcmToFp_holds f l) (pcmToFp_holds f r) (sum_eq ▸ hy)
  have half := div_holds sum (ofNat_holds f (n := 2) (by decide)) two_ne_zero (half_eq ▸ hz)
  rw [show (65536 : ℚ) = 2 ^ 16 by norm_num, half_eq]
  exact half

/-- Settles O37: the mono sum is exact, and each sample is within `[-32768, 32767]`. -/
theorem monoSumIsExact : Obligations.MonoSumIsExact := by
  intro f l r
  have lo : (-65536 : ℚ) ≤ ((l.toInt + r.toInt : Int) : ℚ) :=
    mod_cast add_le_add l.le_toInt r.le_toInt
  have hi : ((l.toInt + r.toInt : Int) : ℚ) < 65536 :=
    mod_cast add_lt_add l.toInt_lt r.toInt_lt
  refine ⟨(monoSum_holds f l r).2, ?_, ?_⟩
  · rw [le_div_iff₀ (by norm_num)]; linarith
  · rw [div_lt_iff₀ (by norm_num)]; linarith

/-! ### Float to engine input -/

/-- Rounding a negated value toward zero negates what a value from 0 up is rounded down to. -/
theorem neg_toward_zero {x : ℚ} (h : 0 ≤ x) : (if -x < 0 then ⌈-x⌉ else ⌊-x⌋) = -⌊x⌋ := by
  split
  · exact Int.ceil_neg
  · have : x = 0 := by linarith
    simp [this]

/-- An exact value rounded toward zero. -/
theorem trunc_of_value? {x : Fp} {v : ℚ} (h : x.value? = some v) :
    x.trunc = some (if v < 0 then ⌈v⌉ else ⌊v⌋) := by
  obtain ⟨b, m, e, rfl, rfl⟩ := exists_finite_of_value? h
  have floor : ⌊(m : ℚ) * 2 ^ e⌋ = ((m * 2 ^ e.toNat / 2 ^ (-e).toNat : Nat) : Int) := by
    have quot := scaled_quotient m 1 e
    rw [Nat.cast_one, div_one, one_mul] at quot
    rw [← quot, Rat.floor_natCast_div_natCast, Int.natCast_div]
  have nonneg : (0 : ℚ) ≤ m * 2 ^ e := by positivity
  cases b with
  | false => simp [Fp.trunc, signedMant, floor, not_lt.mpr nonneg]
  | true =>
    rw [if_pos rfl, neg_one_mul, neg_toward_zero nonneg, floor]
    rfl

/-- A datum with no exact value is a NaN or an infinity. -/
theorem trunc_of_value?_none {x : Fp} (h : x.value? = none) : x.trunc = none := by
  cases x with
  | nan => rfl
  | infinite b => rfl
  | finite b m e => cases h

/-- `dsp_in` is the truncated product, where that is within ±32767. -/
theorem toDspIn_of_trunc {f : FpFormat} {x : Fp} {n : Int}
    (h : (f.mul x (f.ofNat 2048)).trunc = some n) :
    toDspIn f x = if -32767 ≤ n ∧ n ≤ 32767 then some (wrap16 n) else none := by
  unfold toDspIn engineInScale
  rw [h]
  rfl

/-- There is no `dsp_in` where the product does not truncate. -/
theorem toDspIn_of_trunc_none {f : FpFormat} {x : Fp} (h : (f.mul x (f.ofNat 2048)).trunc = none) :
    toDspIn f x = none := by
  unfold toDspIn engineInScale
  rw [h]

/-- The head of a pair whose first output gives no `dsp_in` faults. -/
theorem startPair_of_toDspIn_none {c : RunCall} {s : State}
    (h : toDspIn s.fp (filterFrame s c.input c.i).1 = none) :
    startPair c s = .fault (.dspInRange c.i (filterFrame s c.input c.i).1) := by
  unfold startPair
  simp only [h]

/-- Settles O38: the product's exact value truncates to `n`, and the range of `n` decides; a product
without one truncates to nothing, and the head of a pair then faults. -/
theorem dspInTruncatesTowardZeroOrFaults : Obligations.DspInTruncatesTowardZeroOrFaults := by
  refine ⟨fun f x v hv => ?_, fun f x hv => toDspIn_of_trunc_none (trunc_of_value?_none hv),
    fun s c => startPair_of_toDspIn_none⟩
  intro n
  have dspIn := toDspIn_of_trunc (trunc_of_value? hv)
  refine ⟨fun hn => ⟨wrap16 n, dspIn.trans (if_pos hn), ?_⟩, fun hn => dspIn.trans (if_neg hn)⟩
  exact wrap16_toInt_of_range (by omega) (by omega)

/-! ### Engine output to PCM -/

/-- An output latch in its range is scaled without wrapping. -/
theorem toPcm_toInt {v : Word} (h : inEngineRange v) : (toPcm v).toInt = 16 * v.toInt := by
  obtain ⟨lo, hi⟩ := h
  unfold toPcm engineOutScale
  rw [wrap16_toInt_of_range (by omega) (by omega), mul_comm]

/-- Settles O39: the scaled latch fits the sample. -/
theorem outputScaledBySixteen : Obligations.OutputScaledBySixteen := by
  intro v lo hi
  rw [toPcm_toInt ⟨lo, hi⟩]
  omega

end Sys2Proof.Machine
end

section
/-! The end of a pair (44_run_loop.md R205): which samples its output gives, and which bytes it leaves
alone. -/

namespace Sys2Proof.Machine

/-! ### Samples and frames -/

/-- A sample write leaves every other sample of the buffer. -/
theorem pcmRead_pcmWrite_other (m : Memory 8) (b : PcmBuffer) {j k : Nat} (v : Word) (h : k ≠ j) :
    pcmRead (pcmWrite m b j v) b k = pcmRead m b k := by
  unfold pcmRead
  rw [read_pcmWrite_other _ _ _ _ (by omega) (by omega),
    read_pcmWrite_other _ _ _ _ (by omega) (by omega)]

/-- A frame written reads back. -/
theorem pcmRead_writeFrame_same (m : Memory 8) (b : PcmBuffer) (k : Nat) (l r : Word) :
    pcmRead (writeFrame m b k l r) b (2 * k) = l ∧
    pcmRead (writeFrame m b k l r) b (2 * k + 1) = r := by
  unfold writeFrame
  refine ⟨?_, pcmRead_pcmWrite_same _ b _ r⟩
  rw [pcmRead_pcmWrite_other _ b r (by omega), pcmRead_pcmWrite_same]

/-- A frame write leaves every sample of the other frames. -/
theorem pcmRead_writeFrame_other (m : Memory 8) (b : PcmBuffer) {j k : Nat} (l r : Word)
    (left : j ≠ 2 * k) (right : j ≠ 2 * k + 1) :
    pcmRead (writeFrame m b k l r) b j = pcmRead m b j := by
  unfold writeFrame
  rw [pcmRead_pcmWrite_other _ _ _ right, pcmRead_pcmWrite_other _ _ _ left]

/-- A frame write changes no byte outside the frame's four. -/
theorem read_writeFrame_other (m : Memory 8) (b : PcmBuffer) (k : Nat) (l r : Word) {a : Nat}
    (h : a < b.base + 4 * k ∨ b.base + 4 * k + 4 ≤ a) :
    (writeFrame m b k l r).read a = m.read a := by
  unfold writeFrame
  rw [read_pcmWrite_other _ b _ r (by omega) (by omega),
    read_pcmWrite_other _ b _ l (by omega) (by omega)]

/-! ### The output of a pair -/

/-- The frames of the pair that exist read as the two scaled latches. -/
theorem pcmRead_pairOutput {c : RunCall} {k : Nat} (s : State)
    (h : k = c.i ∨ k = c.i + 1 ∧ k < c.frames) :
    pcmRead (pairOutput c s) c.output (2 * k) = toPcm s.outL ∧
    pcmRead (pairOutput c s) c.output (2 * k + 1) = toPcm s.outR := by
  unfold pairOutput
  simp only
  split
  · obtain rfl | ⟨rfl, -⟩ := h
    · rw [pcmRead_writeFrame_other (j := 2 * c.i) _ _ _ _ (by omega) (by omega),
        pcmRead_writeFrame_other (j := 2 * c.i + 1) _ _ _ _ (by omega) (by omega)]
      exact pcmRead_writeFrame_same _ _ _ _ _
    · exact pcmRead_writeFrame_same _ _ _ _ _
  · obtain rfl : k = c.i := by omega
    exact pcmRead_writeFrame_same _ _ _ _ _

/-- The output of a pair changes no byte outside the frames of the pair that exist. -/
theorem read_pairOutput_other {c : RunCall} {a : Nat} (s : State) (hi : c.i < c.frames)
    (h : a < c.output.base + 4 * c.i ∨ c.output.base + 4 * min (c.i + 2) c.frames ≤ a) :
    (pairOutput c s).read a = s.host.read a := by
  unfold pairOutput
  simp only
  split
  · rw [read_writeFrame_other _ _ _ _ _ (by omega), read_writeFrame_other _ _ _ _ _ (by omega)]
  · exact read_writeFrame_other _ _ _ _ _ (by omega)

/-- Where no call overlaps, the step after an invocation is the end of its pair. -/
theorem step_eq_endPair {s : State} {c : RunCall} (hm : s.mark = .clear) (hp : s.phase = .pairEnd c)
    (ho : noOverlap s) : step s = endPair c s := by
  unfold step
  rw [hm, hp]
  exact whileBusy_eq ho _

/-- Settles O42: the end of a pair writes the pair's output to host memory, and then only the phase
and the result. -/
theorem pairOutputIsWrittenAndHeld : Obligations.PairOutputIsWrittenAndHeld := by
  intro s c hm hp ho hi hl hr
  have samples (k : Nat) (hk : k = c.i ∨ k = c.i + 1 ∧ k < c.frames) :
      (pcmRead (pairOutput c s) c.output (2 * k)).toInt = 16 * s.outL.toInt ∧
      (pcmRead (pairOutput c s) c.output (2 * k + 1)).toInt = 16 * s.outR.toInt := by
    obtain ⟨left, right⟩ := pcmRead_pairOutput s hk
    rw [left, right]
    exact ⟨toPcm_toInt hl, toPcm_toInt hr⟩
  rw [step_eq_endPair hm hp ho]
  obtain ⟨more, he⟩ | ⟨last, he⟩ := endPair_cases c s
  · exact ⟨_, he, samples, fun _ => read_pairOutput_other s hi, rfl, fun _ => rfl, fun h => by omega⟩
  · exact ⟨_, he, samples, fun _ => read_pairOutput_other s hi, rfl, fun h => by omega,
      fun _ => ⟨rfl, rfl⟩⟩

end Sys2Proof.Machine
end

section
/-! The head of a pair (44_run_loop.md R202 to R204): both frames go through the cascade, and the first
one's output begins the invocation. -/

namespace Sys2Proof.Machine

/-- Where no call overlaps, a step in the phase `pairStart` is the head of its pair. -/
theorem step_eq_startPair {s : State} {c : RunCall} (hm : s.mark = .clear)
    (hp : s.phase = .pairStart c) (ho : noOverlap s) : step s = startPair c s := by
  unfold step
  rw [hm, hp]
  exact whileBusy_eq ho _

/-- The head of a pair whose first output gives a `dsp_in` begins the invocation, with both frames
filtered. -/
theorem startPair_of_toDspIn {c : RunCall} {s : State} {d : Word}
    (h : toDspIn s.fp (filterFrame s c.input c.i).1 = some d) :
    startPair c s =
      .next ((filterSecond (filterFrame s c.input c.i).2 c).beginInvocation d c) := by
  unfold startPair
  simp only [h]

/-- Settles O41: with a second frame the stages have filtered both frames, without one the first
alone. -/
theorem pairFiltersBothFrames : Obligations.PairFiltersBothFrames := by
  intro s c hm hp ho mono first1 first2 second1 second2 d hd
  rw [step_eq_startPair hm hp ho, startPair_of_toDspIn hd]
  unfold filterSecond
  split <;> rfl

end Sys2Proof.Machine
end

section
/-! The pairs of a call in order, and a call cut in two (44_run_loop.md R201, R209).  What a pair does
depends neither on the phase nor on the last result, nor on where in a call its frames stand: a pair of
one call and a pair of another do the same where they read and write the same samples. -/

namespace Sys2Proof.Machine

/-! ### What an invocation does not look at -/

/-- The same state at another place of the run loop and with another last result. -/
def State.inPhase (s : State) (p : Phase) (r : HostResult) : State :=
  { s with phase := p, result := r }

/-- `t` is `s` but for the phase and the last result. -/
def SameUpToPhase (s t : State) : Prop := ∃ p r, t = s.inPhase p r

theorem SameUpToPhase.refl (s : State) : SameUpToPhase s s := ⟨s.phase, s.result, rfl⟩

theorem SameUpToPhase.symm {s t : State} (h : SameUpToPhase s t) : SameUpToPhase t s := by
  obtain ⟨p, r, rfl⟩ := h
  exact ⟨s.phase, s.result, rfl⟩

theorem SameUpToPhase.trans {s t u : State} (h : SameUpToPhase s t) (h' : SameUpToPhase t u) :
    SameUpToPhase s u := by
  obtain ⟨p, r, rfl⟩ := h
  obtain ⟨p', r', rfl⟩ := h'
  exact ⟨p', r', rfl⟩

theorem SameUpToPhase.setPhase (s : State) (p : Phase) : SameUpToPhase s (s.setPhase p) :=
  ⟨p, s.result, rfl⟩

theorem SameUpToPhase.finishCall (s : State) (r : HostResult) : SameUpToPhase s (s.finishCall r) :=
  ⟨.idle, r, rfl⟩

/-- The end of a call forgets the phase and the last result. -/
theorem SameUpToPhase.finishCall_eq {s t : State} (h : SameUpToPhase s t) (r : HostResult) :
    t.finishCall r = s.finishCall r := by
  obtain ⟨p, q, rfl⟩ := h
  rfl

/-- The effect of a step looks at neither. -/
theorem State.hook_inPhase (s : State) (p : Phase) (r : HostResult) :
    (s.inPhase p r).hook = s.hook.inPhase p r := by
  unfold State.hook
  rw [show (s.inPhase p r).stepIdx = s.stepIdx from rfl]
  split_ifs <;> rfl

theorem State.sameUpToPhase_finishStep (s : State) (p : Phase) (r : HostResult) (d : ScratchAddr) :
    SameUpToPhase (s.finishStep d) ((s.inPhase p r).finishStep d) := by
  have hook : (s.inPhase p r).clampAi.hook = s.clampAi.hook.inPhase p r := s.clampAi.hook_inPhase p r
  unfold State.finishStep
  rw [hook]
  exact ⟨_, _, rfl⟩

/-- An instruction does the same in every phase: its class action reads neither the phase nor the last
result, and its tail does not either. -/
theorem SameUpToPhase.exec {s s' t : State} (h : SameUpToPhase s s') {i : Instr}
    (ht : exec i s = .next t) : ∃ t', exec i s' = .next t' ∧ SameUpToPhase t t' := by
  obtain ⟨p, r, rfl⟩ := h
  cases i <;> cases ht <;> exact ⟨_, rfl, State.sameUpToPhase_finishStep _ p r _⟩

/-- So does any number of opcode steps. -/
theorem SameUpToPhase.engineSteps {n : Nat} {s s' t : State} (h : SameUpToPhase s s')
    (ht : engineSteps n s = .next t) : ∃ t', engineSteps n s' = .next t' ∧ SameUpToPhase t t' := by
  induction n generalizing s s' with
  | zero => cases ht; exact ⟨s', rfl, h⟩
  | succ n ih =>
    obtain ⟨u, hu, ht⟩ := andThen_eq_next.mp ht
    have fetch : s'.fetchInstr = s.fetchInstr := by obtain ⟨p, r, rfl⟩ := h; rfl
    obtain ⟨u', hu', hs⟩ := h.exec hu
    obtain ⟨t', ht', hs⟩ := ih hs ht
    exact ⟨t', by rw [Machine.engineSteps, fetch, hu', andThen_next, ht'], hs⟩

/-! ### Pairs that read and write the same samples -/

/-- The next `n` pairs of two calls read and write the same samples. -/
structure SamePairs (n : Nat) (c c' : RunCall) : Prop where
  input : c'.input.base + 4 * c'.i = c.input.base + 4 * c.i
  output : c'.output.base + 4 * c'.i = c.output.base + 4 * c.i
  second : ∀ j < n, c'.i + 2 * j + 1 < c'.frames ↔ c.i + 2 * j + 1 < c.frames

theorem SamePairs.refl (n : Nat) (c : RunCall) : SamePairs n c c := ⟨rfl, rfl, fun _ _ => Iff.rfl⟩

/-- The first of the pairs has a second frame in both calls or in neither. -/
theorem SamePairs.second_zero {n : Nat} {c c' : RunCall} (h : SamePairs (n + 1) c c') :
    c'.i + 1 < c'.frames ↔ c.i + 1 < c.frames := h.second 0 n.succ_pos

/-- The pairs after the first. -/
theorem SamePairs.tail {n : Nat} {c c' : RunCall} (h : SamePairs (n + 1) c c') :
    SamePairs n { c with i := c.i + 2 } { c' with i := c'.i + 2 } := by
  obtain ⟨input, output, second⟩ := h
  refine ⟨by simp only; omega, by simp only; omega, fun j hj => ?_⟩
  have := second (j + 1) (by omega)
  simp only
  omega

/-- A sample is its two bytes, wherever its buffer starts. -/
theorem pcmRead_congr (m : Memory 8) {b b' : PcmBuffer} {j j' : Nat}
    (h : b'.base + 2 * j' = b.base + 2 * j) : pcmRead m b' j' = pcmRead m b j := by
  unfold pcmRead
  rw [h]

theorem pcmWrite_congr (m : Memory 8) {b b' : PcmBuffer} {j j' : Nat} (v : Word)
    (h : b'.base + 2 * j' = b.base + 2 * j) : pcmWrite m b' j' v = pcmWrite m b j v := by
  unfold pcmWrite
  rw [h]

theorem writeFrame_congr (m : Memory 8) {b b' : PcmBuffer} {k k' : Nat} (l r : Word)
    (h : b'.base + 4 * k' = b.base + 4 * k) : writeFrame m b' k' l r = writeFrame m b k l r := by
  unfold writeFrame
  rw [pcmWrite_congr m l (by omega : b'.base + 2 * (2 * k') = b.base + 2 * (2 * k)),
    pcmWrite_congr _ r (by omega : b'.base + 2 * (2 * k' + 1) = b.base + 2 * (2 * k + 1))]

theorem monoFrame_congr (s : State) {b b' : PcmBuffer} {k k' : Nat}
    (h : b'.base + 4 * k' = b.base + 4 * k) : monoFrame s b' k' = monoFrame s b k := by
  unfold monoFrame
  rw [pcmRead_congr s.host (by omega : b'.base + 2 * (2 * k') = b.base + 2 * (2 * k)),
    pcmRead_congr s.host (by omega : b'.base + 2 * (2 * k' + 1) = b.base + 2 * (2 * k + 1))]

theorem filterFrame_congr (s : State) {b b' : PcmBuffer} {k k' : Nat}
    (h : b'.base + 4 * k' = b.base + 4 * k) : filterFrame s b' k' = filterFrame s b k := by
  unfold filterFrame
  rw [monoFrame_congr s h]

section
variable {n : Nat} {c c' : RunCall} {s s' t : State}

theorem SamePairs.filterSecond_eq (hc : SamePairs (n + 1) c c') (s : State) :
    filterSecond s c' = filterSecond s c := by
  have first := hc.input
  have second : c'.input.base + 4 * (c'.i + 1) = c.input.base + 4 * (c.i + 1) := by omega
  unfold filterSecond
  simp only [filterFrame_congr s second, hc.second_zero]

theorem SamePairs.pairOutput_eq (hc : SamePairs (n + 1) c c') (s : State) :
    pairOutput c' s = pairOutput c s := by
  have first := hc.output
  have second : c'.output.base + 4 * (c'.i + 1) = c.output.base + 4 * (c.i + 1) := by omega
  unfold pairOutput
  simp only [writeFrame_congr _ _ _ first, writeFrame_congr _ _ _ second, hc.second_zero]

/-- The head of the same pair, from states that differ in the phase and the result. -/
theorem SamePairs.startPair (hc : SamePairs (n + 1) c c') (hs : SameUpToPhase s s')
    (h : startPair c s = .next t) : ∃ t', startPair c' s' = .next t' ∧ SameUpToPhase t t' := by
  obtain ⟨p, r, rfl⟩ := hs
  obtain ⟨_, _, d, hd, -⟩ := startPair_next h
  rw [startPair_of_toDspIn hd] at h
  cases h
  have first : filterFrame (s.inPhase p r) c'.input c'.i =
      ((filterFrame s c.input c.i).1, (filterFrame s c.input c.i).2.inPhase p r) :=
    filterFrame_congr _ hc.input
  refine ⟨_, startPair_of_toDspIn (d := d) (by rw [first]; exact hd), ?_⟩
  rw [first, hc.filterSecond_eq]
  unfold filterSecond
  split <;> exact ⟨_, _, rfl⟩

/-- The end of a pair writes its output, and the phase and the result. -/
theorem endPair_sameUpToPhase {c : RunCall} {s t : State} (h : endPair c s = .next t) :
    SameUpToPhase (s.setHost (pairOutput c s)) t := by
  obtain ⟨-, e⟩ | ⟨-, e⟩ := endPair_cases c s <;> rw [e] at h <;> cases h
  · exact .setPhase _ _
  · exact .finishCall _ _

/-- The end of the same pair, from states that differ in the phase and the result. -/
theorem SamePairs.endPair (hc : SamePairs (n + 1) c c') (hs : SameUpToPhase s s')
    (h : endPair c s = .next t) : ∃ t', endPair c' s' = .next t' ∧ SameUpToPhase t t' := by
  obtain ⟨t', ht'⟩ := endPair_total c' s'
  have written : SameUpToPhase (s.setHost (pairOutput c s)) (s'.setHost (pairOutput c' s')) := by
    obtain ⟨p, r, rfl⟩ := hs
    rw [hc.pairOutput_eq]
    exact ⟨p, r, rfl⟩
  exact ⟨t', ht', ((endPair_sameUpToPhase h).symm.trans written).trans (endPair_sameUpToPhase ht')⟩

/-! ### The pairs of a call -/

/-- Pairs that complete are one pair and the rest. -/
theorem runPairs_succ_eq_next (h : runPairs (n + 1) c s = .next t) :
    ∃ a b u, startPair c s = .next a ∧ engineSteps programLength a = .next b ∧
      endPair c b = .next u ∧ runPairs n { c with i := c.i + 2 } u = .next t := by
  obtain ⟨a, ha, h⟩ := andThen_eq_next.mp h
  obtain ⟨b, hb, h⟩ := andThen_eq_next.mp h
  obtain ⟨u, hu, h⟩ := andThen_eq_next.mp h
  exact ⟨a, b, u, ha, hb, hu, h⟩

/-- The same pairs, from states that differ in the phase and the result. -/
theorem SamePairs.runPairs (hc : SamePairs n c c') (hs : SameUpToPhase s s')
    (h : runPairs n c s = .next t) : ∃ t', runPairs n c' s' = .next t' ∧ SameUpToPhase t t' := by
  induction n generalizing c c' s s' with
  | zero => cases h; exact ⟨s', rfl, hs⟩
  | succ n ih =>
    obtain ⟨a, b, u, ha, hb, hu, h⟩ := runPairs_succ_eq_next h
    obtain ⟨a', ha', hs⟩ := hc.startPair hs ha
    obtain ⟨b', hb', hs⟩ := hs.engineSteps hb
    obtain ⟨u', hu', hs⟩ := hc.endPair hs hu
    obtain ⟨t', ht', hs⟩ := ih hc.tail hs h
    exact ⟨t', (runPairs_succ ha' hb' hu').trans ht', hs⟩

/-- Pairs in a row that complete: the first `m`, then the next `n`. -/
theorem runPairs_add_eq_next {m : Nat} (h : runPairs (m + n) c s = .next t) :
    ∃ u, runPairs m c s = .next u ∧ runPairs n { c with i := c.i + 2 * m } u = .next t := by
  induction m generalizing c s with
  | zero => exact ⟨s, rfl, by rwa [Nat.zero_add] at h⟩
  | succ m ih =>
    rw [Nat.add_right_comm] at h
    obtain ⟨a, b, v, ha, hb, hv, h⟩ := runPairs_succ_eq_next h
    obtain ⟨u, hu, ht⟩ := ih h
    refine ⟨u, (runPairs_succ ha hb hv).trans hu, ?_⟩
    rwa [show c.i + 2 * (m + 1) = c.i + 2 + 2 * m by omega]

/-- Pairs keep `scratch_ok`. -/
theorem runPairs_scratchOk (h : runPairs n c s = .next t) : t.scratchOk = s.scratchOk := by
  induction n generalizing c s with
  | zero => cases h; rfl
  | succ n ih =>
    obtain ⟨a, b, u, ha, hb, hu, h⟩ := runPairs_succ_eq_next h
    have steps := congrArg State.scratchOk (engineSteps_frame hb)
    simp only at steps
    rw [ih h, (endPair_keepsMemories hu).scratchOk, steps, (startPair_keepsMemories ha).scratchOk]

/-- After the last pair the call has finished. -/
theorem runPairs_finished (hn : 0 < n) (last : c.frames ≤ c.i + 2 * n)
    (h : runPairs n c s = .next t) : t.finishCall .returned = t := by
  induction n generalizing c s with
  | zero => exact absurd hn (Nat.lt_irrefl 0)
  | succ n ih =>
    obtain ⟨a, b, u, -, -, hu, h⟩ := runPairs_succ_eq_next h
    obtain rfl | hn := n.eq_zero_or_pos
    · cases h
      obtain ⟨more, -⟩ | ⟨-, e⟩ := endPair_cases c b
      · omega
      · rw [e] at hu; cases hu; rfl
    · exact ih hn (by simp only; omega) h

end

/-! ### A whole call -/

section
variable {input output : PcmBuffer} {frames : Nat} {s t : State}

/-- A call that completes had buffers that meet the contract. -/
theorem runCall_contract (h : runCall input output frames s = .next t) :
    RunCall.contract ⟨input, output, frames, 0⟩ = true := by
  obtain ⟨u, hu, -⟩ := andThen_eq_next.mp h
  exact (beginRun_next hu).1

/-- With no scratch RAM a call only returns. -/
theorem runCall_of_no_ram (hc : RunCall.contract ⟨input, output, frames, 0⟩ = true)
    (ok : s.scratchOk = false) : runCall input output frames s = .next (s.finishCall .returned) := by
  simp [runCall, beginRun, hc, ok]

/-- With its scratch RAM a call makes its pairs and then has finished.  (A call of no frames has no
pair, and finishes at its beginning.) -/
theorem runCall_eq_next_iff (hc : RunCall.contract ⟨input, output, frames, 0⟩ = true)
    (ok : s.scratchOk = true) : runCall input output frames s = .next t ↔
      ∃ u, runPairs ((frames + 1) / 2) ⟨input, output, frames, 0⟩ s = .next u ∧
        t = u.finishCall .returned := by
  obtain rfl | pos := frames.eq_zero_or_pos
  · have begin_eq : beginRun input output 0 s = .next (s.finishCall .returned) := by
      simp [beginRun, hc, ok]
    rw [runCall_eq begin_eq ok]
    simp [runPairs, eq_comm]
  · have begin_eq : beginRun input output frames s =
        .next (s.setPhase (.pairStart ⟨input, output, frames, 0⟩)) := by
      simp [beginRun, hc, ok, pos.ne']
    have same := SamePairs.refl ((frames + 1) / 2) ⟨input, output, frames, 0⟩
    have begun := SameUpToPhase.setPhase s (.pairStart ⟨input, output, frames, 0⟩)
    have finished {v w : State} (h : runPairs _ ⟨input, output, frames, 0⟩ v = .next w) :=
      runPairs_finished (n := (frames + 1) / 2) (by omega) (by simp only; omega) h
    rw [runCall_eq begin_eq ok]
    constructor
    · intro h
      obtain ⟨u, hu, hs⟩ := same.runPairs begun.symm h
      exact ⟨u, hu, (finished h).symm.trans (hs.symm.finishCall_eq _)⟩
    · rintro ⟨u, hu, rfl⟩
      obtain ⟨t, ht, hs⟩ := same.runPairs begun hu
      rw [ht, ← hs.finishCall_eq, finished ht]

end

/-! ### A call cut in two -/

/-- The contract of two buffers of just the size that the frames take. -/
theorem contract_iff_of_bytes {b o bytes frames : Nat} (h : bytes = 4 * frames) :
    RunCall.contract ⟨⟨b, bytes⟩, ⟨o, bytes⟩, frames, 0⟩ = true ↔
      b % 2 = 0 ∧ o % 2 = 0 ∧ b ≠ o ∧ (frames = 0 ∨ b + 4 * frames ≤ o ∨ o + 4 * frames ≤ b) := by
  simp only [RunCall.contract, PcmBuffer.holds, PcmBuffer.disjoint, Bool.and_eq_true,
    Bool.or_eq_true, decide_eq_true_eq, ne_eq, PcmBuffer.mk.injEq, and_true]
  omega

/-- Where the buffers of the whole meet the contract, those of the first `2 m` frames do, and those of
the rest. -/
theorem contract_split {b o m n : Nat}
    (h : RunCall.contract ⟨⟨b, 4 * (2 * m + n)⟩, ⟨o, 4 * (2 * m + n)⟩, 2 * m + n, 0⟩ = true) :
    RunCall.contract ⟨⟨b, 8 * m⟩, ⟨o, 8 * m⟩, 2 * m, 0⟩ = true ∧
    RunCall.contract ⟨⟨b + 8 * m, 4 * n⟩, ⟨o + 8 * m, 4 * n⟩, n, 0⟩ = true := by
  rw [contract_iff_of_bytes rfl] at h
  rw [contract_iff_of_bytes (by omega), contract_iff_of_bytes rfl]
  omega

/-- The first `m` pairs of the whole are those of the first call. -/
theorem samePairs_first (b o m n : Nat) :
    SamePairs m ⟨⟨b, 4 * (2 * m + n)⟩, ⟨o, 4 * (2 * m + n)⟩, 2 * m + n, 0⟩
      ⟨⟨b, 8 * m⟩, ⟨o, 8 * m⟩, 2 * m, 0⟩ :=
  ⟨rfl, rfl, fun j hj => by simp only; omega⟩

/-- The pairs of the whole after its first `m` are those of the second call. -/
theorem samePairs_rest (b o m n k : Nat) :
    SamePairs k ⟨⟨b, 4 * (2 * m + n)⟩, ⟨o, 4 * (2 * m + n)⟩, 2 * m + n, 0 + 2 * m⟩
      ⟨⟨b + 8 * m, 4 * n⟩, ⟨o + 8 * m, 4 * n⟩, n, 0⟩ :=
  ⟨by simp only; omega, by simp only; omega, fun j hj => by simp only; omega⟩

/-- Settles O47: the pairs of the whole call are those of the first call and then those of the second,
and the end of the first call changes only the phase and the result, which no pair looks at. -/
theorem evenSplitGivesSameResult : Obligations.EvenSplitGivesSameResult := by
  intro s t b o m n h
  have whole := runCall_contract h
  obtain ⟨first, rest⟩ := contract_split whole
  cases ok : s.scratchOk with
  | false =>
    rw [runCall_of_no_ram whole ok] at h
    cases h
    rw [runCall_of_no_ram first ok, andThen_next]
    exact runCall_of_no_ram (s := s.finishCall .returned) rest ok
  | true =>
    obtain ⟨u, hu, rfl⟩ := (runCall_eq_next_iff whole ok).mp h
    rw [show (2 * m + n + 1) / 2 = m + (n + 1) / 2 by omega] at hu
    obtain ⟨v, hv, hu⟩ := runPairs_add_eq_next hu
    obtain ⟨v', hv', same⟩ := (samePairs_first b o m n).runPairs (.refl s) hv
    have call1 : runCall ⟨b, 8 * m⟩ ⟨o, 8 * m⟩ (2 * m) s = .next (v'.finishCall .returned) :=
      (runCall_eq_next_iff first ok).mpr
        ⟨v', by rwa [show (2 * m + 1) / 2 = m by omega], rfl⟩
    obtain ⟨u', hu', same'⟩ :=
      (samePairs_rest b o m n _).runPairs (same.trans (.finishCall v' .returned)) hu
    have ok' : (v'.finishCall .returned).scratchOk = true := (runPairs_scratchOk hv').trans ok
    rw [call1, andThen_next, runCall_eq_next_iff rest ok']
    exact ⟨u', hu', (same'.finishCall_eq _).symm⟩

end Sys2Proof.Machine
end

section
/-! Several instances side by side (45_host_interface.md R235): stepping one of them is a list update at
its index, so the list's own lemmas say what the other instances see of it. -/

namespace Sys2Proof.Machine

/-- A step of the `k`-th instance is an update of the `k`-th place of the list, none where the list
has no such place. -/
theorem stepInstance_eq_modify (bank : List State) (k : Nat) :
    stepInstance bank k = bank.modify k (fun s => s.settle (step s)) := by
  rw [List.modify_eq_set_getElem?, stepInstance]
  cases bank[k]? <;> rfl

/-- Settles O58: an update at index `k` keeps the length and every other index. -/
theorem instancesAreIsolated : Obligations.InstancesAreIsolated := by
  intro bank k
  rw [stepInstance_eq_modify]
  exact ⟨List.length_modify .., List.getElem?_modify_eq .., fun j hj =>
    List.getElem?_modify_ne _ _ hj.symm⟩

end Sys2Proof.Machine
end

section
/-! The encoding both ways: fields of a word as numbers, the decoder and the encoder as inverses, and the
assembler's listing of a program (30_encoding.md R80 to R92). -/

namespace Sys2Proof.Machine

/-! ### The fields of a word -/

theorem opclass_toNat (op : Word) : (opclass op).toNat = op.toNat / 16384 := by
  have := op.isLt
  rw [opclass, BitVec.extractLsb'_toNat, Nat.shiftRight_eq_div_pow]
  omega

theorem delta_eq (op : Word) : delta op = BitVec.ofNat 14 (op.toNat % 16384) := by
  apply BitVec.eq_of_toNat_eq
  rw [delta, BitVec.extractLsb'_toNat, Nat.shiftRight_zero, BitVec.toNat_ofNat, Nat.mod_mod]

/-- The instruction of a class and a delta: what `Instr.opclassBits` and `Instr.deltaBits` take apart. -/
def instrOfFields (c : BitVec 2) (d : ScratchAddr) : Instr :=
  if c = 0b00#2 then .rda d else if c = 0b01#2 then .rdl d else if c = 0b10#2 then .wra d else .wrn d

theorem decodeWord_eq (op : Word) : decodeWord op = instrOfFields (opclass op) (delta op) := rfl

theorem instrOfFields_fields (i : Instr) : instrOfFields i.opclassBits i.deltaBits = i := by
  cases i <;> rfl

/-- A word is the encoding of its two fields. -/
theorem encode_toNat (i : Instr) :
    (encode i).toNat = 16384 * i.opclassBits.toNat + i.deltaBits.toNat :=
  Laws.append_toNat _ _

theorem opclass_encode (i : Instr) : opclass (encode i) = i.opclassBits := by
  apply BitVec.eq_of_toNat_eq
  have := i.deltaBits.isLt
  rw [opclass_toNat, encode_toNat]
  omega

theorem delta_encode (i : Instr) : delta (encode i) = i.deltaBits := by
  apply BitVec.eq_of_toNat_eq
  have := i.deltaBits.isLt
  rw [delta_eq, encode_toNat, BitVec.toNat_ofNat]
  omega

/-- Decoding the word of an instruction gives the instruction back. -/
theorem decodeWord_encode (i : Instr) : decodeWord (encode i) = i := by
  rw [decodeWord_eq, opclass_encode, delta_encode, instrOfFields_fields]

theorem opclassBits_instrOfFields (c : BitVec 2) (d : ScratchAddr) :
    (instrOfFields c d).opclassBits = c := by
  have classes : ∀ c : BitVec 2, c = 0b00#2 ∨ c = 0b01#2 ∨ c = 0b10#2 ∨ c = 0b11#2 := by decide
  obtain rfl | rfl | rfl | rfl := classes c <;> rfl

/-- Encoding what a word decodes to gives the word back: the two fields are the whole word. -/
theorem encode_decodeWord (op : Word) : encode (decodeWord op) = op := by
  apply BitVec.eq_of_toNat_eq
  rw [encode_toNat, decodeWord_deltaBits_toNat, decodeWord_eq, opclassBits_instrOfFields,
    opclass_toNat]
  omega

/-! ### Bytes -/

theorem wordOfBytes_toNat (lo hi : Byte) : (wordOfBytes lo hi).toNat = lo.toNat + 256 * hi.toNat := by
  have := lo.isLt
  rw [wordOfBytes, BitVec.toNat_append, ← Nat.shiftLeft_add_eq_or_of_lt lo.isLt, Nat.shiftLeft_eq]
  omega

/-- The two bytes of a word, least significant first, are the word. -/
theorem wordOfBytes_extractLsb' (w : Word) :
    wordOfBytes (w.extractLsb' 0 8) (w.extractLsb' 8 8) = w := by
  apply BitVec.eq_of_toNat_eq
  have := w.isLt
  rw [wordOfBytes_toNat, BitVec.extractLsb'_toNat, BitVec.extractLsb'_toNat, Nat.shiftRight_zero,
    Nat.shiftRight_eq_div_pow]
  omega

/-- Settles O1: the bytes are those of the encoded word, and decoding inverts the encoding. -/
theorem decodeOfEncodeGivesInstruction : Obligations.DecodeOfEncodeGivesInstruction := by
  intro i _ rest
  change Except.ok (decodeWord (wordOfBytes _ _), rest) = _
  rw [wordOfBytes_extractLsb', decodeWord_encode]

/-- Settles O2: the class is the word's quotient by `2^14`, and the delta its remainder. -/
theorem everyWordDecodesToItsRow : Obligations.EveryWordDecodesToItsRow := by
  intro lo hi rest w d
  have decoded (c : BitVec 2) (hc : w / 16384 = c.toNat) :
      decode (lo :: hi :: rest) = .ok (instrOfFields c d, rest) := by
    have hw : (wordOfBytes lo hi).toNat = w := wordOfBytes_toNat lo hi
    have class_eq : opclass (wordOfBytes lo hi) = c :=
      BitVec.eq_of_toNat_eq (by rw [opclass_toNat, hw, hc])
    rw [decode, decodeWord_eq, class_eq, delta_eq, hw]
  exact ⟨decoded 0, decoded 1, decoded 2, decoded 3⟩

/-- Settles O3: six closed evaluations of the decoder. -/
theorem specWordsDecode : Obligations.SpecWordsDecode := by
  unfold Obligations.SpecWordsDecode
  decide

/-! ### The assembler -/

/-- The decimal spelling of a delta means that delta. -/
theorem meaning_unsigned_toNat (d : ScratchAddr) :
    (DeltaSpelling.unsigned d.toNat).meaning = some d := by
  have hd : d.toNat ≤ 16383 := Nat.le_of_lt_succ d.isLt
  rw [DeltaSpelling.meaning, if_pos hd, BitVec.ofNat_toNat, BitVec.setWidth_eq]

/-- A disassembled line stands for the one instruction of its word. -/
theorem expand_disassemble (op : Word) : (disassemble op).expand = some [decodeWord op] := by
  unfold disassemble
  cases decodeWord op <;> simp [AsmLine.expand, meaning_unsigned_toNat, Mnemonic.instr]

/-- A disassembled program stands for the instructions of its words. -/
theorem expandListing_disassemble (ws : List Word) :
    expandListing (ws.map disassemble) = some (ws.map decodeWord) := by
  induction ws with
  | nil => rfl
  | cons w ws ih =>
    rw [List.map_cons, expandListing, expand_disassemble, ih]
    rfl

/-- A program is well formed where it has its 128 instructions. -/
theorem programWf_of_length {p : List Instr} (h : p.length = 128) : programWf p = true := by
  have wf (i : Instr) : i.wf = true := by cases i <;> rfl
  simp [programWf, h, wf]

/-- Settles O4: the listing stands for the decoded words, and encoding them gives the words back. -/
theorem assembleOfDisassembleGivesWords : Obligations.AssembleOfDisassembleGivesWords := by
  intro ws h
  have words : (ws.map decodeWord).map encode = ws := by
    rw [List.map_map, (funext encode_decodeWord : encode ∘ decodeWord = id), List.map_id]
  rw [assemble, expandListing_disassemble]
  simp only
  rw [if_pos (programWf_of_length (by rw [List.length_map, h])), words]

theorem deltaBits_instr (m : Mnemonic) (d : ScratchAddr) : (m.instr d).deltaBits = d := by
  cases m <;> rfl

/-- Settles O5: `16384 - k` is a delta, and adding it modulo 16384 takes `k` away. -/
theorem signedDeltaMovesPointerBack : Obligations.SignedDeltaMovesPointerBack := by
  refine ⟨fun k lo hi => ⟨BitVec.ofNat 14 (16384 - k), if_pos ⟨lo, hi⟩, ?_⟩, by decide⟩
  have hd : (BitVec.ofNat 14 (16384 - k)).toNat = 16384 - k := by
    rw [BitVec.toNat_ofNat]
    omega
  refine ⟨hd, fun m s => ?_⟩
  obtain ⟨t, he, tail⟩ := exec_commonTail (m.instr (BitVec.ofNat 14 (16384 - k))) s
  refine ⟨t, he, ?_⟩
  rw [tail.ptr_toNat, deltaBits_instr, hd]
  omega

end Sys2Proof.Machine
end

section
/-! The two invariants of `Safety.lean`: what each kind of step keeps of the engine's, and of the filters'
(10_state.md R22, R25 to R28; 20_memory.md R60). -/

namespace Sys2Proof.Machine

/-! ### The call in progress -/

theorem phaseOk_of_idle {s : State} (h : s.phase = .idle) : phaseOk s := by
  unfold phaseOk
  rw [h]
  trivial

/-- Wherever a call in progress is, the same has to hold of it. -/
theorem phaseOk_iff {s : State} {c : RunCall}
    (h : s.phase = .pairStart c ∨ s.phase = .engine c ∨ s.phase = .pairEnd c) :
    phaseOk s ↔ callOk c ∧ s.scratchOk = true ∧ s.status = .live := by
  unfold phaseOk
  obtain h | h | h := h <;> rw [h]

/-- After a step of the invocation of `c` the machine is still in it, or at its end. -/
theorem afterStep_engine_cases (c : RunCall) (k : StepIndex) :
    (Phase.engine c).afterStep k = .engine c ∨ (Phase.engine c).afterStep k = .pairEnd c := by
  unfold Phase.afterStep
  split
  · exact .inr rfl
  · exact .inl rfl

/-! ### The engine's invariant and the host calls -/

theorem inEngineRange_zero : inEngineRange 0 := by unfold inEngineRange; decide

/-- The memory that lists nothing is canonical, and inside any space. -/
theorem memoryOk_nil {w : Nat} (n : Nat) : memoryOk n ([] : Memory w) :=
  ⟨⟨.nil, List.forall_mem_nil _⟩, List.forall_mem_nil _⟩

/-- A new instance has the engine's invariant, where its ROM is canonical. -/
theorem State.boot_engineInv {rom : Memory 16} (f : FpFormat) (ok : Bool) (h : memoryOk 8192 rom) :
    EngineInv (State.boot rom f ok) where
  rom := h
  ram := memoryOk_nil _
  host := (memoryOk_nil 0).1
  ai := inEngineRange_zero
  outL := inEngineRange_zero
  outR := inEngineRange_zero
  base := rfl
  phase := trivial

/-- A construction keeps the ROM and host memory, and gives every other field its reset value or, where
it fails, leaves it. -/
theorem EngineInv.newInstance {s : State} (h : EngineInv s) (hp : s.phase = .idle) :
    EngineInv (newInstance s) := by
  obtain e | e := newInstance_cases s <;> rw [e]
  · exact { h with phase := phaseOk_of_idle hp }
  · exact { State.boot_engineInv s.fp s.scratchOk h.rom with host := h.host, phase := trivial }

/-- The selection that `set_program` writes is a program's. -/
theorem EngineInv.setProgram {s : State} (h : EngineInv s) (hp : s.phase = .idle) (i : BitVec 8) :
    EngineInv (setProgram i s) :=
  { h with base := baseOf_toNat _, phase := phaseOk_of_idle hp }

/-- The end of a call leaves none in progress. -/
theorem EngineInv.finishCall {s : State} (h : EngineInv s) (r : HostResult) :
    EngineInv (s.finishCall r) :=
  { h with phase := trivial }

/-- A call that meets the contract and has frames begins in order. -/
theorem callOk_first {input output : PcmBuffer} {frames : Nat}
    (hc : RunCall.contract ⟨input, output, frames, 0⟩ = true) (hf : frames ≠ 0) :
    callOk ⟨input, output, frames, 0⟩ :=
  ⟨hc, rfl, Nat.pos_of_ne_zero hf⟩

/-- The beginning of a call on a live instance keeps the engine's invariant. -/
theorem EngineInv.callLive {op : HostOp} {s t : State} (h : EngineInv s) (hp : s.phase = .idle)
    (live : s.status = .live) (ht : callLive op s = .next t) : EngineInv t := by
  cases op with
  | new => cases ht; exact h.newInstance hp
  | setSampleRate sr =>
    obtain ⟨u, hu, ht⟩ := andThen_eq_next.mp ht
    cases ht
    rw [setSampleRate_next hu]
    have configured (a b : SvfStage) : EngineInv (s.setFilters a b) := { h with phase := h.phase }
    exact (configured _ _).finishCall _
  | setProgram i => cases ht; exact (h.setProgram hp i).finishCall _
  | programName i => cases ht; exact h.finishCall _
  | run input output frames =>
    obtain ⟨hc, ⟨-, rfl⟩ | ⟨ok, hf, rfl⟩⟩ := beginRun_next ht
    · exact h.finishCall _
    · exact { h with phase := (phaseOk_iff (.inl rfl)).mpr ⟨callOk_first hc hf, ok, live⟩ }
  | release => cases ht; exact { h with phase := phaseOk_of_idle hp }

/-- The idle machine keeps the engine's invariant. -/
theorem EngineInv.serveCall {s t : State} (h : EngineInv s) (hp : s.phase = .idle)
    (ht : serveCall s = .next t) : EngineInv t := by
  obtain ⟨-, rfl⟩ | ⟨c, rest, -, hb⟩ := serveCall_next ht
  · exact h
  · have begun : EngineInv { s with calls := rest } := { h with phase := phaseOk_of_idle hp }
    obtain ⟨-, rfl⟩ | ⟨-, live, hl⟩ := beginCall_next hb
    · exact begun.newInstance hp
    · exact begun.callLive hp live hl

/-! ### The engine's invariant and a call in progress -/

/-- The head of a pair keeps the engine's invariant. -/
theorem EngineInv.startPair {c : RunCall} {s t : State} (h : EngineInv s)
    (hp : s.phase = .pairStart c) (ht : startPair c s = .next t) : EngineInv t := by
  obtain ⟨a, b, d, -, rfl⟩ := startPair_next ht
  have call := (phaseOk_iff (.inl hp)).mp h.phase
  exact { h with phase := (phaseOk_iff (.inr (.inl rfl))).mpr call }

/-- An instruction stores inside the scratch RAM, and keeps it canonical. -/
theorem exec_memoryOk {i : Instr} {s t : State} (h : memoryOk 16384 s.ram)
    (ht : exec i s = .next t) : memoryOk 16384 t.ram := by
  have write {m : Memory 16} (h : memoryOk 16384 m) (v : Word) :
      memoryOk 16384 (m.write s.ptr.toNat v) :=
    ⟨Memory.write_wf h.1 _ v, Memory.write_below h.2 s.ptr.isLt v⟩
  obtain ⟨a, he, ptr, -, -, -, -, action⟩ := exec_cases i s
  obtain rfl := Host.Outcome.next.inj (ht.symm.trans he)
  obtain ⟨-, -, -, -, -, ram, -⟩ := a.finishStep_fields i.deltaBits
  have acted : memoryOk 16384 a.ram := by
    obtain ⟨e, -⟩ | ⟨v, e, -⟩ := action <;> rw [e]
    · exact h
    · exact write h v
  rw [ram, ptr]
  split
  · exact write acted _
  · exact acted

/-- An instruction keeps the engine's invariant. -/
theorem EngineInv.exec {c : RunCall} {i : Instr} {s t : State} (h : EngineInv s)
    (hp : s.phase = .engine c) (ht : exec i s = .next t) : EngineInv t := by
  obtain ⟨u, hu, tail⟩ := exec_commonTail i s
  obtain rfl := Host.Outcome.next.inj (ht.symm.trans hu)
  have frame := exec_engineFrame ht
  have latch {k : StepIndex} {v w : Word} (hv : inEngineRange v)
      (hw : w = if s.stepIdx = k then t.ai else v) : inEngineRange w := by
    rw [hw]
    split
    · exact tail.aiRange
    · exact hv
  have phase : phaseOk t := by
    rw [phaseOk_iff (c := c), frame.scratchOk, frame.status]
    · exact (phaseOk_iff (.inr (.inl hp))).mp h.phase
    · rw [tail.phase, hp]
      exact .inr (afterStep_engine_cases c s.stepIdx)
  exact {
    rom := by rw [frame.rom]; exact h.rom
    ram := exec_memoryOk h.ram ht
    host := by rw [frame.host]; exact h.host
    ai := tail.aiRange
    outL := latch h.outL tail.outL
    outR := latch h.outR tail.outR
    base := by rw [frame.baseOffset, frame.progIndex]; exact h.base
    phase }

/-- The end of a pair keeps the engine's invariant: the next pair's frame is even and inside the call. -/
theorem EngineInv.endPair {c : RunCall} {s t : State} (h : EngineInv s)
    (hp : s.phase = .pairEnd c) (ht : endPair c s = .next t) : EngineInv t := by
  have written : (pairOutput c s).wf := pairOutput_wf h.host c
  obtain ⟨more, e⟩ | ⟨-, e⟩ := endPair_cases c s <;> rw [e] at ht <;> cases ht
  · obtain ⟨⟨contract, even, -⟩, ok, live⟩ := (phaseOk_iff (.inr (.inr hp))).mp h.phase
    have next : callOk { c with i := c.i + 2 } := ⟨contract, by simp only; omega, more⟩
    exact { h with host := written, phase := (phaseOk_iff (.inl rfl)).mpr ⟨next, ok, live⟩ }
  · exact { h with host := written, phase := trivial }

/-- Settles O48, by the four kinds of step. -/
theorem stepKeepsEngineInvariant : Obligations.StepKeepsEngineInvariant := by
  intro s t h ht
  obtain ⟨-, ⟨hp, ht⟩ | ⟨c, hp, ht⟩ | ⟨c, hp, ht⟩ | ⟨c, hp, ht⟩⟩ := step_next_cases ht
  · exact h.serveCall hp ht
  · exact h.startPair hp ht
  · exact h.exec hp ht
  · exact h.endPair hp ht

/-! ### The filters' invariant -/

/-- A configured stage has values of the format in every register. -/
theorem stageInv_svfConfigured (f : FpFormat) (k : StageConst) (sr : Fp) :
    StageInv f (svfConfigured f k sr) where
  c1 := f.div_isValue _ _
  c2 := f.div_isValue _ _
  d0 := f.div_isValue _ _
  z1 := f.isValue_zero _
  z2 := f.isValue_zero _

/-- A filter step keeps the coefficients and leaves sums in the delays. -/
theorem StageInv.svfStep {f : FpFormat} {st : SvfStage} (h : StageInv f st) (x : Fp) :
    StageInv f (svfStep f st x).2 :=
  { h with z1 := f.add_isValue _ _, z2 := f.add_isValue _ _ }

theorem FilterInv.of_configured {s : State} (sr : Fp)
    (h1 : s.svf1 = svfConfigured s.fp Machine.stage1 sr)
    (h2 : s.svf2 = svfConfigured s.fp Machine.stage2 sr) : FilterInv s :=
  ⟨h1 ▸ stageInv_svfConfigured _ _ _, h2 ▸ stageInv_svfConfigured _ _ _⟩

theorem FilterInv.of_keeps {s t : State} (h : FilterInv s) (filters : KeepsFilters s t)
    (fp : t.fp = s.fp) : FilterInv t := by
  constructor
  · rw [fp, filters.svf1]; exact h.stage1
  · rw [fp, filters.svf2]; exact h.stage2

/-- Filtering a frame keeps the filters' invariant. -/
theorem FilterInv.filterFrame {s : State} (h : FilterInv s) (b : PcmBuffer) (k : Nat) :
    FilterInv (filterFrame s b k).2 :=
  ⟨h.stage1.svfStep _, h.stage2.svfStep _⟩

/-- The head of a pair keeps the filters' invariant. -/
theorem FilterInv.startPair {c : RunCall} {s t : State} (h : FilterInv s)
    (ht : startPair c s = .next t) : FilterInv t := by
  have second {u : State} (h : FilterInv u) : FilterInv (filterSecond u c) := by
    unfold filterSecond
    split
    · exact h.filterFrame _ _
    · exact h
  obtain ⟨-, -, d, hd, -⟩ := startPair_next ht
  rw [startPair_of_toDspIn hd] at ht
  cases ht
  obtain ⟨stage1, stage2⟩ := second (h.filterFrame c.input c.i)
  exact ⟨stage1, stage2⟩

/-- The beginning of a call, where it configures the filters, does so by 40_svf.md R100. -/
theorem FilterInv.callLive {op : HostOp} {s t : State} (h : FilterInv s) (hop : op ≠ .new)
    (ht : callLive op s = .next t) : FilterInv t := by
  obtain keeps | new | ⟨sr, rfl⟩ := callLive_keepsFilters_or_configures ht
  · exact h.of_keeps keeps (callLive_keepsMemories hop ht).fp
  · exact absurd new hop
  · obtain ⟨u, hu, ht⟩ := andThen_eq_next.mp ht
    cases ht
    rw [setSampleRate_next hu]
    exact .of_configured sr (by simp) (by simp)

/-- The idle machine keeps the filters' invariant. -/
theorem FilterInv.serveCall {s t : State} (h : FilterInv s) (ht : serveCall s = .next t) :
    FilterInv t := by
  obtain ⟨-, rfl⟩ | ⟨c, rest, -, hb⟩ := serveCall_next ht
  · exact h
  · have begun : FilterInv { s with calls := rest } := h.of_keeps ⟨rfl, rfl⟩ rfl
    obtain ⟨-, rfl⟩ | ⟨hop, -, hl⟩ := beginCall_next hb
    · obtain e | e := newInstance_cases { s with calls := rest } <;> rw [e]
      · exact h.of_keeps ⟨rfl, rfl⟩ rfl
      · exact .of_configured (s.fp.ofNat defaultRate) rfl rfl
    · exact begun.callLive hop hl

/-- Settles O50, by the four kinds of step; an instruction and the end of a pair keep the filters. -/
theorem stepKeepsFilterValues : Obligations.StepKeepsFilterValues := by
  intro s t h ht
  obtain ⟨-, ⟨-, ht⟩ | ⟨c, -, ht⟩ | ⟨c, -, ht⟩ | ⟨c, -, ht⟩⟩ := step_next_cases ht
  · exact h.serveCall ht
  · exact h.startPair ht
  · exact h.of_keeps (exec_keepsFilters ht) (exec_engineFrame ht).fp
  · exact h.of_keeps (endPair_keepsFilters ht) (endPair_keepsMemories ht).fp

/-! ### Reset -/

/-- A new instance has the filters' invariant. -/
theorem State.boot_filterInv (rom : Memory 16) (f : FpFormat) (ok : Bool) :
    FilterInv (State.boot rom f ok) :=
  .of_configured (f.ofNat defaultRate) rfl rfl

/-- Settles O49: reset is a new instance with an empty ROM. -/
theorem resetHasInvariants : Obligations.ResetHasInvariants :=
  ⟨State.boot_engineInv _ _ (memoryOk_nil _), State.boot_filterInv _ _ _,
    fun rom f ok => ⟨State.boot_filterInv rom f ok, State.boot_engineInv f ok⟩⟩

end Sys2Proof.Machine
end

section
/-! The configuration of the filters: its domain on exact values, the call that makes it and the stages it
gives (40_svf.md R100, R101; 45_host_interface.md R233, R234); and a stage at rest under the inputs 0 and 1
(40_svf.md R103). -/

namespace Sys2Proof.Machine

/-! ### The domain of a configuration -/

/-- A datum exceeds a number where it has an exact value, and that value is above the number. -/
theorem exceeds_iff (x : Fp) (n : Nat) :
    x.exceeds n = true ↔ ∃ v : ℚ, x.value? = some v ∧ (n : ℚ) < v := by
  cases x with
  | nan => simp [Fp.exceeds, Fp.value?]
  | infinite b => simp [Fp.exceeds, Fp.value?]
  | finite b m e =>
    simp only [value?_finite, Option.some.injEq, exists_eq_left']
    cases b with
    | false =>
      rw [Fp.exceeds, decide_eq_true_eq, ← not_le, scaled_le_iff, not_le]
      simp
    | true =>
      have nonpos : -((m : ℚ) * 2 ^ e) ≤ n := by
        have : (0 : ℚ) ≤ m * 2 ^ e := by positivity
        have : (0 : ℚ) ≤ n := by positivity
        linarith
      simpa [Fp.exceeds] using nonpos

theorem exceeds_iff_of_value? {x : Fp} {v : ℚ} (h : x.value? = some v) (n : Nat) :
    x.exceeds n = true ↔ (n : ℚ) < v := by
  rw [exceeds_iff, h]
  simp

theorem isFinite_of_value? {x : Fp} {v : ℚ} (h : x.value? = some v) : x.isFinite = true := by
  obtain ⟨b, m, e, rfl, -⟩ := exists_finite_of_value? h
  rfl

theorem svfInDomain_iff (k : StageConst) (sr : Fp) : svfInDomain k sr = true ↔
    0 < k.cutoff ∧ 0 < k.qNum ∧ 0 < k.qDen ∧ sr.exceeds (2 * k.cutoff) = true := by
  simp [svfInDomain, and_assoc]

/-- The domain of stage 1 is the rates above 11832 Hz. -/
theorem svfInDomain_stage1 (sr : Fp) : svfInDomain stage1 sr = sr.exceeds 11832 := rfl

/-- The domain of stage 2, and so of both, is the rates above 18916 Hz. -/
theorem svfInDomain_stage2 (sr : Fp) : svfInDomain stage2 sr = sr.exceeds 18916 := rfl

/-- Settles O29: a rate exceeds twice the cutoff where the cutoff is below half of its value. -/
theorem configurationDomainIsExact : Obligations.ConfigurationDomainIsExact := by
  refine ⟨fun k sr => ?_, fun sr v hv => ⟨?_, ?_⟩⟩
  · have q_pos (hd : 0 < k.qDen) : (0 : ℚ) < (k.qNum : ℚ) / k.qDen ↔ 0 < k.qNum := by
      rw [div_pos_iff_of_pos_right (by exact_mod_cast hd), Nat.cast_pos]
    have half (v : ℚ) : ((2 * k.cutoff : Nat) : ℚ) < v ↔ (k.cutoff : ℚ) < v / 2 := by
      push_cast
      constructor <;> intro h <;> linarith
    rw [svfInDomain_iff, exceeds_iff]
    simp only [half]
    constructor
    · rintro ⟨hc, hq, hd, v, hv, below⟩
      exact ⟨v, hv, hc, hd, (q_pos hd).mpr hq, below⟩
    · rintro ⟨v, hv, hc, hd, hq, below⟩
      exact ⟨hc, (q_pos hd).mp hq, hd, v, hv, below⟩
  · rw [svfInDomain_stage1, svfInDomain_stage2, exceeds_iff_of_value? hv, exceeds_iff_of_value? hv]
    push_cast
    constructor
    · exact And.right
    · intro h
      exact ⟨by linarith, h⟩
  · rw [svfInDomain_stage1, exceeds_iff_of_value? hv]
    norm_num

/-! ### The configuration -/

theorem svfSet_eq_ok_iff {f : FpFormat} {k : StageConst} {sr : Fp} {st : SvfStage} :
    svfSet f k sr = .ok st ↔ svfInDomain k sr = true ∧ st = svfConfigured f k sr := by
  unfold svfSet
  split
  · rename_i domain
    rw [Except.ok.injEq]
    exact ⟨fun h => ⟨domain, h.symm⟩, fun h => h.2.symm⟩
  · rename_i domain
    simp [domain]

/-- Settles O30: the configured stage is the formulas' by definition. -/
theorem configurationFormulas : Obligations.ConfigurationFormulas := by
  intro f k sr st h
  obtain ⟨-, rfl⟩ := svfSet_eq_ok_iff.mp h
  exact ⟨rfl, rfl, _, _, _, _, rfl, rfl, rfl, rfl, rfl, rfl, rfl⟩

/-- Settles O51: the default rate is exact in every format and above 18916 Hz, so both stages are
configured; the other values stand in the definition of `new()`. -/
theorem resetValues : Obligations.ResetValues := by
  intro rom f ok s
  have rate := (ofNat_holds f (n := 44100) (by decide)).2
  have domain1 : svfInDomain stage1 (f.ofNat 44100) = true := by
    rw [svfInDomain_stage1, exceeds_iff_of_value? rate]
    norm_num
  have domain2 : svfInDomain stage2 (f.ofNat 44100) = true := by
    rw [svfInDomain_stage2, exceeds_iff_of_value? rate]
    norm_num
  exact ⟨rfl, rfl, rfl, rfl, rfl, rfl, rfl, rfl, fun _ => rfl, svfSet_eq_ok_iff.mpr ⟨domain1, rfl⟩,
    svfSet_eq_ok_iff.mpr ⟨domain2, rfl⟩⟩

/-! ### `set_sample_rate` -/

/-- A rate above 18916 Hz configures both stages. -/
theorem setSampleRate_of_lt {sr : Fp} {v : ℚ} (hv : sr.value? = some v) (h : 18916 < v) (s : State) :
    setSampleRate sr s =
      .next (s.setFilters (svfConfigured s.fp stage1 sr) (svfConfigured s.fp stage2 sr)) := by
  have domain2 : sr.exceeds 18916 = true := (exceeds_iff_of_value? hv _).mpr (by exact_mod_cast h)
  have domain1 : sr.exceeds 11832 = true :=
    (exceeds_iff_of_value? hv _).mpr (by push_cast; linarith)
  have set1 : svfSet s.fp stage1 sr = .ok _ := svfSet_eq_ok_iff.mpr ⟨domain1, rfl⟩
  have set2 : svfSet s.fp stage2 sr = .ok _ := svfSet_eq_ok_iff.mpr ⟨domain2, rfl⟩
  rw [setSampleRate, if_pos (by rw [isFinite_of_value? hv]; exact domain2), set1, set2]

/-- Any other rate faults. -/
theorem setSampleRate_of_not_exceeds {sr : Fp} (h : ¬ sr.exceeds 18916 = true) (s : State) :
    setSampleRate sr s = .fault (.svfDomain sr) := by
  rw [setSampleRate, if_neg]
  rw [Bool.and_eq_true]
  exact fun both => h both.2

/-- Settles O28: the call is one step, and whether the rate exceeds 18916 Hz decides it. -/
theorem sampleRateConfiguresOrFaults : Obligations.SampleRateConfiguresOrFaults := by
  intro s sr rest h
  have fault (low : ¬ sr.exceeds 18916 = true) : step s = .fault (.svfDomain sr) := by
    rw [h.step_eq, callLive, setSampleRate_of_not_exceeds low, andThen_fault]
  refine ⟨fun v hv high => ?_, fun v hv low => fault ?_, fun none => fault ?_⟩
  · rw [h.step_eq, callLive, setSampleRate_of_lt hv high, andThen_next]
    exact congrArg Host.Outcome.next (State.finishCall_eq_of_idle
      (s := State.setFilters { s with calls := rest } _ _) h.phase _)
  · rw [exceeds_iff_of_value? hv, not_lt]
    exact_mod_cast low
  · rw [exceeds_iff, none]
    simp

/-! ### A stage at rest -/

theorem zero_holds (f : FpFormat) : holdsExactly f .zero 0 :=
  ⟨f.isValue_zero false, by simp [Fp.zero, Fp.value?, signedMant]⟩

/-- `+0 - +0` is +0. -/
theorem sub_zero_zero (f : FpFormat) : f.sub .zero .zero = .zero := by
  rw [FpFormat.sub, (zero_holds f).operand]
  rfl

/-- A finite factor times +0 is a zero of the factor's sign. -/
theorem exists_mul_zero (f : FpFormat) {x : Fp} (h : x.isFinite = true) :
    ∃ b, f.mul x .zero = .finite b 0 0 := by
  have operand : ∃ b m e, f.operand x = .finite b m e := by
    cases x with
    | nan => cases h
    | infinite b => cases h
    | finite b m e =>
      simp only [FpFormat.operand]
      split
      · exact ⟨_, _, _, rfl⟩
      · exact ⟨_, _, _, rfl⟩
  obtain ⟨b, m, e, hx⟩ := operand
  refine ⟨b != false, ?_⟩
  rw [FpFormat.mul, hx, (zero_holds f).operand]
  change f.round (b != false) (m * 0) 1 _ = _
  rw [Nat.mul_zero, FpFormat.round, if_pos rfl]

/-- The sum of +0 and a zero of either sign is +0. -/
theorem zero_add_signedZero (f : FpFormat) (b : Bool) : f.add .zero (.finite b 0 0) = .zero := by
  rw [FpFormat.add, (zero_holds f).operand, operand_of_isValue (f.isValue_zero b)]
  cases b <;> rfl

theorem signedZero_add_zero (f : FpFormat) (b : Bool) : f.add (.finite b 0 0) .zero = .zero := by
  rw [FpFormat.add, (zero_holds f).operand, operand_of_isValue (f.isValue_zero b)]
  cases b <;> rfl

/-- A delay of +0 stays +0 where its coefficient is multiplied with +0. -/
theorem zero_add_mul_zero (f : FpFormat) {c : Fp} (h : c.isFinite = true) :
    f.add .zero (f.mul c .zero) = .zero := by
  obtain ⟨b, e⟩ := exists_mul_zero f h
  rw [e, zero_add_signedZero]

/-- Settles O31: every product is a zero, and every sum has a +0 in it. -/
theorem zeroInputKeepsStageAtRest : Obligations.ZeroInputKeepsStageAtRest := by
  intro f ⟨c1, c2, d0, z1, z2⟩ hc1 hc2 hd0 hz1 hz2
  simp only at hc1 hc2 hd0 hz1 hz2
  subst hz1 hz2
  obtain ⟨b, hd⟩ := exists_mul_zero f hd0
  simp only [svfStep, sub_zero_zero, zero_add_mul_zero f hc1, zero_add_mul_zero f hc2, hd,
    signedZero_add_zero]

/-- A value of the format other than zero is the only one with its exact value. -/
theorem holdsExactly.unique {f : FpFormat} {x y : Fp} {v : ℚ} (hx : holdsExactly f x v)
    (hy : holdsExactly f y v) (hv : v ≠ 0) : x = y := by
  obtain ⟨b, m, e, rfl, rfl⟩ := exists_finite_of_value? hx.2
  obtain ⟨c, n, k, rfl, h⟩ := exists_finite_of_value? hy.2
  have hm : 0 < m := Nat.pos_of_ne_zero (by rintro rfl; simp at hv)
  have hn : 0 < n := Nat.pos_of_ne_zero (by rintro rfl; simp [h] at hv)
  have px : (0 : ℚ) < m * 2 ^ e := by positivity
  have py : (0 : ℚ) < n * 2 ^ k := by positivity
  obtain ⟨rfl, mag⟩ : b = c ∧ (m : ℚ) * 2 ^ e = n * 2 ^ k := by
    cases b <;> cases c <;> simp at h ⊢ <;> linarith
  have rx := f.round_exact b (num := m) (den := 1) (e := e) one_pos hm hx.1 (by simp)
  have ry := f.round_exact b (num := m) (den := 1) (e := e) one_pos hn hy.1 (by simpa using mag)
  exact rx.symm.trans ry

/-- A datum that is no zero keeps its value where it is multiplied with 1 or added to +0. -/
theorem mul_one_of_holds {f : FpFormat} {x y : Fp} {v : ℚ} (hx : holdsExactly f x v) (hv : v ≠ 0)
    (hy : holdsExactly f y 1) : f.mul x y = x := by
  have product := mul_holds hx hy (r := x) (by rwa [mul_one])
  rw [mul_one] at product
  exact product.unique hx hv

theorem zero_add_of_holds {f : FpFormat} {x : Fp} {v : ℚ} (hx : holdsExactly f x v) (hv : v ≠ 0) :
    f.add .zero x = x := by
  have sum := add_holds (zero_holds f) hx (r := x) (by rwa [zero_add])
  rw [zero_add] at sum
  exact sum.unique hx hv

theorem add_zero_of_holds {f : FpFormat} {x : Fp} {v : ℚ} (hx : holdsExactly f x v) (hv : v ≠ 0) :
    f.add x .zero = x := by
  have sum := add_holds hx (zero_holds f) (r := x) (by rwa [add_zero])
  rw [add_zero] at sum
  exact sum.unique hx hv

theorem sub_zero_holds {f : FpFormat} {x : Fp} {v : ℚ} (hx : holdsExactly f x v) :
    holdsExactly f (f.sub x .zero) v := by
  have difference := sub_holds hx (zero_holds f) (r := x) (by rwa [sub_zero])
  rwa [sub_zero] at difference

/-- A datum of a positive significand has an exact value, and that is not 0. -/
theorem exists_holds_ne_zero {f : FpFormat} {b : Bool} {m : Nat} {e : Int} (hm : 0 < m)
    (h : f.isValue (.finite b m e)) : ∃ v, holdsExactly f (.finite b m e) v ∧ v ≠ 0 := by
  refine ⟨_, ⟨h, value?_finite b m e⟩, ?_⟩
  have pow : (2 : ℚ) ^ e ≠ 0 := by positivity
  cases b <;> simp [hm.ne', pow]

/-- Settles O32: `t` is 1, so each product is its coefficient, and adding +0 changes nothing. -/
theorem unitImpulseReturnsD0 : Obligations.UnitImpulseReturnsD0 := by
  intro f ⟨c1, c2, d0, z1, z2⟩ n1 n0 m1 m0 e1 e0 hc1 hm1 v1 hc2 hd0 hm0 v0 hz1 hz2
  simp only at hc1 v1 hc2 hd0 v0 hz1 hz2
  subst hc1 hd0 hz1 hz2
  obtain ⟨v, c1, hv⟩ := exists_holds_ne_zero hm1 v1
  obtain ⟨w, d0, hw⟩ := exists_holds_ne_zero hm0 v0
  have t : holdsExactly f (f.sub (f.sub (f.ofNat 1) .zero) .zero) 1 :=
    sub_zero_holds (sub_zero_holds (ofNat_holds f (n := 1) (by decide)))
  simp only [svfStep, mul_one_of_holds c1 hv t, mul_one_of_holds d0 hw t, zero_add_mul_zero f hc2,
    zero_add_of_holds c1 hv, add_zero_of_holds d0 hw]

end Sys2Proof.Machine
end

section
/-! The results of the four instructions (42_dsp_engine.md R143 to R157): the arithmetic of the class
actions, what each class computes and stores, and what an instruction leaves unchanged. -/

namespace Sys2Proof.Machine

/-! ### The arithmetic -/

theorem asr1_toInt (v : Word) : (asr1 v).toInt = v.toInt / 2 := by
  rw [asr1, BitVec.toInt_sshiftRight, Int.shiftRight_eq_div_pow]
  rfl

theorem asr1_bounds (v : Word) : -16384 ≤ (asr1 v).toInt ∧ (asr1 v).toInt ≤ 16383 := by
  have lo := v.le_toInt
  have hi := v.toInt_lt
  rw [asr1_toInt]
  omega

/-- Settles O18: an arithmetic shift is the floor of the half, and replicates bit 15. -/
theorem asrIsFloorOfHalf : Obligations.AsrIsFloorOfHalf :=
  fun v => ⟨asr1_toInt v, BitVec.msb_sshiftRight, asr1_bounds v⟩

/-- Halving leaves room for the sign, so the negation of a shifted word is exact. -/
theorem wrap16_neg_asr1_toInt (v : Word) : (wrap16 (-(asr1 v).toInt)).toInt = -(asr1 v).toInt := by
  have bounds := asr1_bounds v
  exact wrap16_toInt_of_range (by omega) (by omega)

/-- Settles O19: `wrap16` is the balanced remainder, and of the negations only that of -32768 is out
of range. -/
theorem wrapIsCongruence : Obligations.WrapIsCongruence := by
  refine ⟨fun n => ?_, fun v hv => ?_, by decide, wrap16_neg_asr1_toInt⟩
  · rw [wrap16_toInt_eq_bmod, Int.bmod_def]
    omega
  · have lo := v.le_toInt
    have hi := v.toInt_lt
    exact wrap16_toInt_of_range (by omega) (by omega)

/-- `acc + asr1(ai)`, wrapped. -/
theorem wrap16_add_asr1_toInt (v w : Word) :
    (wrap16 (v.toInt + (asr1 w).toInt)).toInt = (v.toInt + w.toInt / 2).bmod 65536 := by
  rw [wrap16_toInt_eq_bmod, asr1_toInt]

/-! ### The class actions -/

/-- What a class action leaves in `ai`, in `li` and in the scratch word at `ptr`. -/
structure ClassAction where
  ai : Word
  li : Word
  word : Word

/-- The class actions of 42_dsp_engine.md R143 to R146. -/
def classAction (i : Instr) (s : State) : ClassAction :=
  match i with
  | .rda _ => ⟨s.mem, wrap16 (s.acc.toInt + (asr1 s.mem).toInt), s.mem⟩
  | .rdl _ => ⟨s.mem, asr1 s.mem, s.mem⟩
  | .wra _ => ⟨s.acc, wrap16 (s.acc.toInt + (asr1 s.acc).toInt), s.acc⟩
  | .wrn _ => ⟨s.acc, wrap16 (-(asr1 s.acc).toInt), wrap16 (-s.acc.toInt)⟩

/-- The tail clamps `ai`, keeps `li`, and stores `dsp_in` at step 0 alone. -/
theorem State.finishStep_latches (s : State) (d : ScratchAddr) :
    (s.finishStep d).ai = clampWord s.ai ∧ (s.finishStep d).li = s.li ∧
    (s.finishStep d).ram.read s.ptr.toNat =
      if s.stepIdx = 0 then s.dspIn else s.ram.read s.ptr.toNat := by
  obtain ⟨ai, li, -, -, -, ram, -⟩ := s.finishStep_fields d
  refine ⟨ai, li, ?_⟩
  rw [ram]
  split
  · exact Memory.read_write_same _ _ _
  · rfl

/-- An instruction is its class action, `ai` clamped after it, and at step 0 the input stored over it. -/
theorem exec_classAction {i : Instr} {s t : State} (h : exec i s = .next t) :
    t.ai = clampWord (classAction i s).ai ∧ t.li = (classAction i s).li ∧
    t.ram.read s.ptr.toNat = if s.stepIdx = 0 then s.dspIn else (classAction i s).word := by
  have stored (x y v : Word) (d : ScratchAddr) :
      let t := ((s.setLatches x y).ramWrite s.ptr v).finishStep d
      t.ai = clampWord x ∧ t.li = y ∧ t.ram.read s.ptr.toNat = if s.stepIdx = 0 then s.dspIn else v := by
    obtain ⟨ai, li, word⟩ := State.finishStep_latches ((s.setLatches x y).ramWrite s.ptr v) d
    rw [State.ramWrite_ram, State.ramWrite_ptr, State.setLatches_ptr, Memory.read_write_same] at word
    exact ⟨ai, li, word⟩
  cases i with
  | rda d => cases h; exact State.finishStep_latches (s.setLatches _ _) d
  | rdl d => cases h; exact State.finishStep_latches (s.setLatches _ _) d
  | wra d => cases h; exact stored _ _ _ d
  | wrn d => cases h; exact stored _ _ _ d

/-! ### Results -/

theorem stepIdx_toNat_eq_iff (s : State) {n : Nat} (hn : n < 128) :
    s.stepIdx.toNat = n ↔ s.stepIdx = BitVec.ofNat 7 n := by
  rw [BitVec.toNat_eq, BitVec.toNat_ofNat, Nat.mod_eq_of_lt hn]

/-- Every instruction completes with what its class action computes, and with the common tail. -/
theorem exec_stepResult (i : Instr) (s : State) : ∃ t : State, exec i s = .next t ∧
    StepResult i.deltaBits (classAction i s).ai.toInt (classAction i s).li.toInt s t ∧
    t.ram.read s.ptr.toNat = if s.stepIdx.toNat = 0 then s.dspIn else (classAction i s).word := by
  obtain ⟨t, he, tail⟩ := exec_commonTail i s
  obtain ⟨ai, li, word⟩ := exec_classAction he
  refine ⟨t, he, ?_, ?_⟩
  · exact {
      ai := by rw [ai, clampWord_toInt_eq_max_min]
      li := by rw [li]
      accAtIo := tail.accAtIo
      accElse := fun h => by rw [tail.accElse h, li]
      outR := by rw [tail.outR, if_congr (stepIdx_toNat_eq_iff s (by decide)) rfl rfl]; rfl
      outL := by rw [tail.outL, if_congr (stepIdx_toNat_eq_iff s (by decide)) rfl rfl]; rfl
      ptr := tail.ptr_toNat
      stepIdx := by rw [tail.stepIdx, BitVec.toNat_add]; rfl }
  · rw [word, if_congr (stepIdx_toNat_eq_iff s (by decide)) rfl rfl]
    rfl

/-- Settles O7: the result of every instruction, for the class action of RDA. -/
theorem rdaResult : Obligations.RdaResult := by
  intro d s
  obtain ⟨t, he, result, -⟩ := exec_stepResult (.rda d) s
  refine ⟨by simp [encode_toNat, Instr.opclassBits, Instr.deltaBits], t, he, ?_⟩
  rwa [classAction, wrap16_add_asr1_toInt] at result

/-- Settles O8: the same for RDL, whose `li` does not add `acc`. -/
theorem rdlResult : Obligations.RdlResult := by
  intro d s
  obtain ⟨t, he, result, -⟩ := exec_stepResult (.rdl d) s
  refine ⟨by simp [encode_toNat, Instr.opclassBits, Instr.deltaBits], t, he, ?_⟩
  rwa [classAction, asr1_toInt] at result

/-- Settles O9: the same for WRA, with the word stored. -/
theorem wraResult : Obligations.WraResult := by
  intro d s
  obtain ⟨t, he, result, word⟩ := exec_stepResult (.wra d) s
  refine ⟨by simp [encode_toNat, Instr.opclassBits, Instr.deltaBits], t, he, ?_, word⟩
  rwa [classAction, wrap16_add_asr1_toInt] at result

/-- Settles O10: the same for WRN; `li` never wraps, the word stored may. -/
theorem wrnResult : Obligations.WrnResult := by
  intro d s
  obtain ⟨t, he, result, word⟩ := exec_stepResult (.wrn d) s
  refine ⟨by simp [encode_toNat, Instr.opclassBits, Instr.deltaBits], t, he, ?_, ?_⟩
  · rwa [classAction, wrap16_neg_asr1_toInt, asr1_toInt] at result
  · rw [word, apply_ite BitVec.toInt, classAction, wrap16_toInt_eq_bmod]

/-- Settles O16: only `ai` is clamped after the class action; `li` and the word stored are the action's
own, and `acc` is by the common tail. -/
theorem clampActsOnAiAlone : Obligations.ClampActsOnAiAlone := by
  intro i s
  obtain ⟨t, he, tail⟩ := exec_commonTail i s
  obtain ⟨ai, li, word⟩ := exec_classAction he
  have clamped := congrArg BitVec.toInt ai
  rw [clampWord_toInt_eq_max_min] at clamped
  have later (h : s.stepIdx ≠ 0) := word.trans (if_neg h)
  refine ⟨t, he, tail.aiRange, ?_, ?_, ?_, ?_, ?_, ?_, tail.accAtIo, tail.accElse, ?_, ?_, tail.input⟩
  · rintro d (rfl | rfl) <;> exact clamped
  · rintro d (rfl | rfl) <;> exact clamped
  · rintro d rfl
    rw [li]
    exact wrap16_add_asr1_toInt _ _
  · rintro d rfl
    rw [li]
    exact asr1_toInt _
  · rintro d rfl
    rw [li]
    exact wrap16_add_asr1_toInt _ _
  · rintro d rfl
    rw [li, classAction, wrap16_neg_asr1_toInt, asr1_toInt]
  · rintro d rfl
    exact later
  · rintro d rfl h
    rw [later h]
    exact wrap16_toInt_eq_bmod _

/-! ### Frames -/

/-- Outside the output steps no output latch changes, and of the scratch RAM only the word at `ptr` may
change, by a write class or at step 0. -/
theorem exec_unchanged {i : Instr} {s t : State} (h : exec i s = .next t) :
    EngineFrame s t ∧
    (s.stepIdx.toNat ≠ 96 → t.outR = s.outR) ∧ (s.stepIdx.toNat ≠ 112 → t.outL = s.outL) ∧
    ∀ a : Nat, ¬ (a = s.ptr.toNat ∧ (s.stepIdx = 0 ∨ ∃ d, i = .wra d ∨ i = .wrn d)) →
      t.ram.read a = s.ram.read a := by
  obtain ⟨u, hu, result, -⟩ := exec_stepResult i s
  obtain rfl := Host.Outcome.next.inj (h.symm.trans hu)
  exact ⟨exec_engineFrame h, fun hk => result.outR.trans (if_neg hk),
    fun hk => result.outL.trans (if_neg hk), fun a => not_imp_comm.mp (exec_ram_read_ne h)⟩

/-- Settles O11: a read class writes the scratch RAM at step 0 alone. -/
theorem readingInstructionsFrame : Obligations.ReadingInstructionsFrame := by
  intro i d s t hi h
  obtain ⟨frame, outR, outL, ram⟩ := exec_unchanged h
  refine ⟨frame, outR, outL, fun a ha => ram a ?_⟩
  rintro ⟨at_ptr, h0 | ⟨e, hw⟩⟩
  · exact ha (congrArg BitVec.toNat h0) at_ptr
  · obtain rfl | rfl := hi <;> simp at hw

/-- Settles O12: a write class writes the scratch RAM at `ptr` alone. -/
theorem writingInstructionsFrame : Obligations.WritingInstructionsFrame := by
  intro i d s t _ h
  obtain ⟨frame, outR, outL, ram⟩ := exec_unchanged h
  exact ⟨frame, outR, outL, fun a ha => ram a fun at_ptr => ha at_ptr.1⟩

/-! ### From one step to the next -/

/-- No class action reads `ai` or `li`, and each writes both. -/
theorem exec_setLatches (i : Instr) (s : State) (x y : Word) :
    exec i (s.setLatches x y) = exec i s := by
  cases i <;> rfl

/-- Settles O20: the first of the 128 steps overwrites both latches. -/
theorem carriedLatchesNotObservable : Obligations.CarriedLatchesNotObservable := by
  intro d s x y
  exact congrArg (andThen · (engineSteps 127))
    (exec_setLatches _ { s with dspIn := d, stepIdx := 0 } x y)

/-- Settles O21: WRA 0 leaves `ptr` on the word it stored, and latches `li` into `acc`. -/
theorem nextStepSeesStoreAndAccumulator : Obligations.NextStepSeesStoreAndAccumulator := by
  intro s d ordinary _
  obtain ⟨t, ht, tail⟩ := exec_commonTail (.wra 0) s
  obtain ⟨-, -, word⟩ := exec_classAction ht
  have not_first : s.stepIdx ≠ 0 := fun h => ordinary ((isIoStep_iff _).mpr (.inl h))
  have ptr : t.ptr = s.ptr := tail.ptr.trans (BitVec.add_zero _)
  have seen : t.mem = s.acc := by
    rw [State.mem, State.ramRead, ptr, word, if_neg not_first]
    rfl
  obtain ⟨u, hu, -⟩ := exec_commonTail (.rdl d) t
  obtain ⟨v, hv, -⟩ := exec_commonTail (.wrn d) t
  refine ⟨t, u, v, ht, hu, ?_, hv, ?_⟩
  · rw [(exec_classAction hu).2.1, classAction, seen, asr1_toInt]
  · rw [(exec_classAction hv).2.1, classAction, tail.accElse ordinary, wrap16_neg_asr1_toInt,
      asr1_toInt]

/-! ### Silence -/

/-- From zeros every class action computes zeros. -/
theorem Silent.classAction_eq {s : State} (h : Silent s) (i : Instr) : classAction i s = ⟨0, 0, 0⟩ := by
  have mem : s.mem = 0 := h.ram _
  unfold classAction
  rw [h.acc, mem]
  cases i <;> rfl

/-- From zeros an instruction with input 0 leaves zeros. -/
theorem Silent.exec {i : Instr} {s t : State} (h : Silent s) (input : s.dspIn = 0)
    (ht : exec i s = .next t) : Silent t := by
  obtain ⟨u, hu, tail⟩ := exec_commonTail i s
  obtain rfl := Host.Outcome.next.inj (ht.symm.trans hu)
  obtain ⟨ai, li, word⟩ := exec_classAction ht
  rw [h.classAction_eq] at ai li word
  have ai : t.ai = 0 := ai.trans (by decide)
  refine ⟨?_, ?_, ?_, fun a => ?_⟩
  · by_cases io : isIoStep s.stepIdx
    · rw [tail.accAtIo io, h.acc]
    · rw [tail.accElse io, li]
  · rw [tail.outL, ai, h.outL, ite_self]
  · rw [tail.outR, ai, h.outR, ite_self]
  · by_cases ha : a = s.ptr.toNat
    · rw [ha, word, input, ite_self]
    · obtain ⟨-, -, -, ram⟩ := exec_unchanged ht
      rw [ram a fun at_ptr => ha at_ptr.1, h.ram]

theorem Silent.engineSteps {n : Nat} {s : State} (h : Silent s) (input : s.dspIn = 0) :
    ∃ t, engineSteps n s = .next t ∧ Silent t := by
  induction n generalizing s with
  | zero => exact ⟨s, rfl, h⟩
  | succ n ih =>
    obtain ⟨u, hu, -⟩ := exec_commonTail s.fetchInstr s
    obtain ⟨t, ht, silent⟩ := ih (h.exec input hu) ((exec_engineFrame hu).dspIn.trans input)
    exact ⟨t, by rw [Machine.engineSteps, hu, andThen_next, ht], silent⟩

/-- Settles O24, by induction on the steps of the invocation. -/
theorem zeroInputStaysSilent : Obligations.ZeroInputStaysSilent := by
  intro s h
  have start : Silent { s with dspIn := 0, stepIdx := 0 } := ⟨h.acc, h.outL, h.outR, h.ram⟩
  exact start.engineSteps rfl

end Sys2Proof.Machine
end

section
/-! The host's calls (45_host_interface.md R230 to R232, 60_exceptions.md R251 to R257): how each begins,
which steps write the selection and the accumulator, overlapping calls, and the sticky marks. -/

namespace Sys2Proof.Machine

/-- With no mark and no call in progress a step serves the host. -/
theorem step_eq_serveCall {s : State} (hm : s.mark = .clear) (hp : s.phase = .idle) :
    step s = serveCall s := by
  unfold step
  rw [hm, hp]

/-! ### The beginning of `run` -/

theorem PcmBuffer.holds_iff (b : PcmBuffer) (frames : Nat) :
    b.holds frames = true ↔ (b.base % 2 = 0 ∧ b.bytes % 2 = 0) ∧ 4 * frames ≤ b.bytes := by
  simp only [PcmBuffer.holds, Bool.and_eq_true, decide_eq_true_eq]
  omega

/-- The contract that the model decides is that of the buffers. -/
theorem contract_iff (input output : PcmBuffer) (frames : Nat) :
    RunCall.contract ⟨input, output, frames, 0⟩ = true ↔ BuffersOk input output frames := by
  simp only [RunCall.contract, Bool.and_eq_true, PcmBuffer.holds_iff, PcmBuffer.disjoint_iff,
    decide_eq_true_eq]
  constructor
  · rintro ⟨⟨⟨⟨inputEven, inputLong⟩, outputEven, outputLong⟩, distinct⟩, apart⟩
    exact ⟨inputEven, outputEven, inputLong, outputLong, distinct, apart⟩
  · rintro ⟨inputEven, outputEven, inputLong, outputLong, distinct, apart⟩
    exact ⟨⟨⟨⟨inputEven, inputLong⟩, outputEven, outputLong⟩, distinct⟩, apart⟩

/-- Settles O40, by the order in which the beginning of a call decides. -/
theorem runBeginsByContract : Obligations.RunBeginsByContract := by
  intro s input output frames rest h
  rw [h.step_eq, callLive, beginRun, ← contract_iff]
  refine ⟨fun broken => if_neg broken, fun kept nothing => ?_, fun kept ok some => ?_⟩
  · have returned : State.finishCall { s with calls := rest } .returned =
        { s with calls := rest, result := .returned } :=
      State.finishCall_eq_of_idle (s := { s with calls := rest }) h.phase _
    rw [if_pos kept, returned]
    obtain ok | rfl := nothing
    · rw [if_neg (by simp [ok])]
    · rw [if_pos rfl, ite_self]
  · rw [if_pos kept, if_pos ok, if_neg some]
    rfl

/-! ### The other calls, and no call -/

/-- `new` begins on every instance and on none. -/
theorem beginCall_new (s : State) : beginCall .new s = .next (newInstance s) := by
  unfold beginCall
  cases s.status <;> rfl

/-- With no instance any other call is refused. -/
theorem beginCall_of_no_instance {op : HostOp} {s : State} (h : s.status ≠ .live) (hop : op ≠ .new) :
    beginCall op s = .refused (.noInstance op) := by
  unfold beginCall
  split
  · exact absurd ‹_› h
  · exact absurd rfl hop
  · rfl

/-- Settles O52: each clause is what the idle machine does with the call at the head of its queue. -/
theorem newReleaseAndIdleMachine : Obligations.NewReleaseAndIdleMachine := by
  refine ⟨fun s o rest hm hp hc alone => ?_, fun s rest h => h.step_eq,
    fun s c rest hm hp dead hc hop alone => ?_, fun s hm hp hc => ?_⟩
  · rw [step_eq_serveCall hm hp, serveCall_eq hc alone, beginCall_new]
    rfl
  · rw [step_eq_serveCall hm hp, serveCall_eq hc alone]
    exact beginCall_of_no_instance dead hop
  · rw [step_eq_serveCall hm hp, serveCall, hc]

/-! ### The writers of the selection and of the accumulator -/

/-- `t` has the program selection of `s`. -/
structure KeepsSelection (s t : State) : Prop where
  progIndex : t.progIndex = s.progIndex
  baseOffset : t.baseOffset = s.baseOffset

/-- A call other than `new` keeps the accumulator, and the selection too unless it is `set_program`. -/
theorem callLive_selection {op : HostOp} {s t : State} (hop : op ≠ .new)
    (h : callLive op s = .next t) :
    t.acc = s.acc ∧ (KeepsSelection s t ∨ ∃ i, op = .setProgram i) := by
  cases op with
  | new => exact absurd rfl hop
  | setSampleRate sr =>
    obtain ⟨u, hu, ht⟩ := andThen_eq_next.mp h
    cases ht
    rw [setSampleRate_next hu]
    exact ⟨by simp, .inl ⟨by simp, by simp⟩⟩
  | setProgram i => cases h; exact ⟨rfl, .inr ⟨i, rfl⟩⟩
  | programName i => cases h; exact ⟨rfl, .inl ⟨rfl, rfl⟩⟩
  | run input output frames =>
    obtain ⟨-, ⟨-, rfl⟩ | ⟨-, -, rfl⟩⟩ := beginRun_next h <;> exact ⟨rfl, .inl ⟨rfl, rfl⟩⟩
  | release => cases h; exact ⟨rfl, .inl ⟨rfl, rfl⟩⟩

/-- The step begins a `set_program`. -/
def beginsSetProgram (s : State) : Prop :=
  s.phase = .idle ∧ ∃ i o rest, s.calls = ⟨.setProgram i, o⟩ :: rest

/-- The idle machine constructs, or keeps the accumulator, and the selection too unless the next call
is `set_program`. -/
theorem serveCall_selection {s t : State} (hp : s.phase = .idle) (h : serveCall s = .next t) :
    beginsNew s ∨ t.acc = s.acc ∧ (KeepsSelection s t ∨ beginsSetProgram s) := by
  obtain ⟨-, rfl⟩ | ⟨⟨op, o⟩, rest, hc, hb⟩ := serveCall_next h
  · exact .inr ⟨rfl, .inl ⟨rfl, rfl⟩⟩
  · obtain ⟨hop, -⟩ | ⟨hop, -, hl⟩ := beginCall_next hb
    · exact .inl ⟨hp, _, rest, hc, hop⟩
    · obtain ⟨acc, ⟨index, base⟩ | ⟨i, rfl⟩⟩ := callLive_selection hop hl
      · exact .inr ⟨acc, .inl ⟨index, base⟩⟩
      · exact .inr ⟨acc, .inr ⟨hp, i, o, rest, hc⟩⟩

/-- An instruction keeps the selection, and at an I/O step the accumulator. -/
theorem exec_selection {i : Instr} {s t : State} (h : exec i s = .next t) :
    KeepsSelection s t ∧ (t.acc ≠ s.acc → ¬ isIoStep s.stepIdx) := by
  obtain ⟨u, hu, tail⟩ := exec_commonTail i s
  obtain rfl := Host.Outcome.next.inj (h.symm.trans hu)
  have frame := exec_engineFrame h
  exact ⟨⟨frame.progIndex, frame.baseOffset⟩, fun hne io => hne (tail.accAtIo io)⟩

/-- A step constructs, keeps the accumulator and, unless it begins a `set_program`, the selection, or is
an instruction of an invocation. -/
theorem step_selection_cases {s t : State} (h : step s = .next t) :
    beginsNew s ∨ (t.acc = s.acc ∧ (KeepsSelection s t ∨ beginsSetProgram s)) ∨
    ((∃ c, s.phase = .engine c) ∧ exec s.fetchInstr s = .next t) := by
  obtain ⟨-, ⟨hp, h⟩ | ⟨c, -, h⟩ | ⟨c, hp, h⟩ | ⟨c, -, h⟩⟩ := step_next_cases h
  · exact (serveCall_selection hp h).imp_right .inl
  · obtain ⟨a, b, d, -, rfl⟩ := startPair_next h
    exact .inr (.inl ⟨rfl, .inl ⟨rfl, rfl⟩⟩)
  · exact .inr (.inr ⟨⟨c, hp⟩, h⟩)
  · obtain ⟨-, e⟩ | ⟨-, e⟩ := endPair_cases c s <;> rw [e] at h <;> cases h <;>
      exact .inr (.inl ⟨rfl, .inl ⟨rfl, rfl⟩⟩)

/-- Settles O55, by the three kinds of step: a construction, one that keeps the accumulator, and an
instruction, which keeps the selection. -/
theorem selectionAndAccumulatorWriters : Obligations.SelectionAndAccumulatorWriters := by
  intro s t h
  have changed (keeps : KeepsSelection s t) :
      ¬ (t.progIndex ≠ s.progIndex ∨ t.baseOffset ≠ s.baseOffset) :=
    fun ne => ne.elim (absurd keeps.progIndex) (absurd keeps.baseOffset)
  obtain hnew | ⟨acc, keeps | hset⟩ | ⟨hp, he⟩ := step_selection_cases h
  · exact ⟨fun _ => .inl hnew, fun _ => .inl hnew⟩
  · exact ⟨fun ne => absurd ne (changed keeps), fun ne => absurd acc ne⟩
  · exact ⟨fun _ => .inr hset, fun ne => absurd acc ne⟩
  · obtain ⟨keeps, ordinary⟩ := exec_selection he
    exact ⟨fun ne => absurd ne (changed keeps), fun ne => .inr ⟨hp, ordinary ne⟩⟩

/-! ### Overlapping calls and marks -/

/-- Settles O56: a call in progress looks at the head of the queue first, also in its first step. -/
theorem overlappingCallIsRefused : Obligations.OverlappingCallIsRefused := by
  intro s op rest hm
  refine ⟨fun busy hc => ?_, fun c hp hc => ?_⟩
  · have refused := whileBusy_overlap hc rfl
    unfold step
    rw [hm]
    cases hp : s.phase with
    | idle => exact absurd hp busy
    | pairStart c => exact refused _
    | engine c => exact refused _
    | pairEnd c => exact refused _
  · rw [step_eq_serveCall hm hp, serveCall, hc]
    exact whileBusy_overlap (s := { s with calls := ⟨op, true⟩ :: rest }) rfl rfl _

/-- An instance that a step leaves as it is leaves the bank as it is. -/
theorem stepInstance_of_settled {bank : List State} {k : Nat} {s : State} (h : bank[k]? = some s)
    (settled : s.settle (step s) = s) : stepInstance bank k = bank := by
  obtain ⟨hk, rfl⟩ := List.getElem?_eq_some_iff.mp h
  rw [stepInstance, h]
  simp only
  rw [settled, List.set_getElem_self]

/-- Settles O57: a step of a marked instance answers its mark, and settling that sets the mark it has. -/
theorem marksAreSticky : Obligations.MarksAreSticky := by
  intro s o stopped
  have settled : step (s.settle o) = o ∧ (s.settle o).settle o = s.settle o := by
    cases o with
    | next t => exact absurd rfl (stopped t)
    | fault r => exact ⟨rfl, rfl⟩
    | refused r => exact ⟨rfl, rfl⟩
  obtain ⟨answers, keeps⟩ := settled
  have stays : (s.settle o).settle (step (s.settle o)) = s.settle o := by rw [answers, keeps]
  exact ⟨answers, stays, fun _ _ h => stepInstance_of_settled h stays⟩

end Sys2Proof.Machine
end

section
/-! The external formats (20_memory.md R61, R65, R66): the ROM image and the PCM sample, both least
significant byte first. -/

namespace Sys2Proof.Machine

/-- The words of an image are those it was made from. -/
theorem imageWords_wordImage (ws : List Word) : imageWords (wordImage ws) = ws := by
  induction ws with
  | nil => rfl
  | cons w ws ih => rw [wordImage, imageWords, wordOfBytes_extractLsb', ih]

/-- The ROM of an image holds its words from address 0 on. -/
theorem romOfImage_wordImage {ws : List Word} (h : ws.length ≤ romWords) :
    romOfImage (wordImage ws) = Memory.ofCells 0 ws := by
  rw [romOfImage, imageWords_wordImage, List.take_of_length_le h]

/-- Settles O59: the ROM is made of the 8192 words in order. -/
theorem romImageReadsAsWords : Obligations.RomImageReadsAsWords := by
  intro ws h
  rw [romOfImage_wordImage h.le]
  refine ⟨⟨Memory.ofCells_wf ws 0, fun c hc => ?_⟩, fun a ha => ?_⟩
  · have bound := (Memory.ofCells_le ws 0 c hc).2
    omega
  · have inside : a < ws.length := h ▸ ha
    have read := Memory.read_ofCells ws 0 a inside
    rw [Nat.zero_add] at read
    rw [read, List.getElem?_eq_getElem inside]

/-- Settles O60: the two bytes are written at their own addresses, and no other sample has either. -/
theorem pcmSamplesAreLittleEndian : Obligations.PcmSamplesAreLittleEndian := by
  intro m b j v
  refine ⟨?_, ?_, fun k => ?_⟩
  · rw [pcmWrite, Memory.read_write_other _ _ (by omega), Memory.read_write_same,
      BitVec.extractLsb'_toNat, Nat.shiftRight_zero]
  · have hv := v.isLt
    rw [pcmWrite, Memory.read_write_same, BitVec.extractLsb'_toNat, Nat.shiftRight_eq_div_pow]
    omega
  · split
    · rename_i hk
      rw [hk, pcmRead_pcmWrite_same]
    · exact pcmRead_pcmWrite_other m b v ‹_›

end Sys2Proof.Machine
end

section
/-! A `run` call as a whole (44_run_loop.md R201, R205, R212, R213): what its pairs write, what of host memory
they read, and the micro-steps of `step` against the call in one piece (92_eei_decisions.md D1). -/

namespace Sys2Proof.Machine

/-! ### What the pairs of a call write -/

/-- The part of the state that no pair of a call writes; every field that one may write is blank. -/
def State.outsideRun (s : State) : State :=
  { s with
    svf1 := { s.svf1 with z1 := .zero, z2 := .zero }
    svf2 := { s.svf2 with z1 := .zero, z2 := .zero }
    acc := 0, li := 0, ai := 0, ptr := 0, stepIdx := 0, dspIn := 0, outL := 0, outR := 0
    ram := [], host := [], phase := .idle, result := .returned }

section
variable {n : Nat} {c : RunCall} {s t : State}

/-- The head of a pair writes the filter delays and begins the invocation. -/
theorem startPair_outsideRun (h : startPair c s = .next t) : t.outsideRun = s.outsideRun := by
  obtain ⟨_, _, d, hd, -⟩ := startPair_next h
  rw [startPair_of_toDspIn hd] at h
  cases h
  unfold filterSecond
  split <;> rfl

theorem engineSteps_outsideRun (h : engineSteps n s = .next t) : t.outsideRun = s.outsideRun :=
  (congrArg State.outsideRun (engineSteps_frame h) :)

theorem endPair_outsideRun (h : endPair c s = .next t) : t.outsideRun = s.outsideRun := by
  obtain ⟨p, r, rfl⟩ := endPair_sameUpToPhase h
  rfl

/-- Pairs leave alone what no pair writes. -/
theorem runPairs_outsideRun (h : runPairs n c s = .next t) : t.outsideRun = s.outsideRun := by
  induction n generalizing c s with
  | zero => cases h; rfl
  | succ n ih =>
    obtain ⟨a, b, u, ha, hb, hu, h⟩ := runPairs_succ_eq_next h
    rw [ih h, endPair_outsideRun hu, engineSteps_outsideRun hb, startPair_outsideRun ha]

/-- Up to the end of a pair host memory is as it was. -/
theorem invocation_host {a b : State} (ha : startPair c s = .next a) (hb : engineSteps n a = .next b) :
    b.host = s.host := by
  obtain ⟨_, _, _, -, rfl⟩ := startPair_next ha
  exact (congrArg State.host (engineSteps_frame hb) :)

/-- The end of a pair writes the pair's output. -/
theorem endPair_host (h : endPair c s = .next t) : t.host = pairOutput c s := by
  obtain ⟨p, r, rfl⟩ := endPair_sameUpToPhase h
  rfl

/-- What a pair makes of host memory, and the pairs after it. -/
theorem runPairs_succ_host (h : runPairs (n + 1) c s = .next t) :
    ∃ b u, b.host = s.host ∧ u.host = pairOutput c b ∧
      runPairs n { c with i := c.i + 2 } u = .next t := by
  obtain ⟨a, b, u, ha, hb, hu, h⟩ := runPairs_succ_eq_next h
  exact ⟨b, u, invocation_host ha hb, endPair_host hu, h⟩

/-- Pairs inside the call write no byte before their first frame or after the call's last. -/
theorem read_runPairs_other {a : Nat} (inside : c.i + 2 * n ≤ c.frames + 1)
    (h : runPairs n c s = .next t)
    (ha : a < c.output.base + 4 * c.i ∨ c.output.base + 4 * c.frames ≤ a) :
    t.host.read a = s.host.read a := by
  induction n generalizing c s with
  | zero => cases h; rfl
  | succ n ih =>
    obtain ⟨b, u, hb, hu, h⟩ := runPairs_succ_host h
    rw [ih (by simp only; omega) h (by simp only; omega), hu,
      read_pairOutput_other b (by omega) (by omega), hb]

/-- A sample is read as before where its two bytes are. -/
theorem pcmRead_eq_of_read {m m' : Memory 8} {b : PcmBuffer} {j : Nat}
    (lo : m'.read (b.base + 2 * j) = m.read (b.base + 2 * j))
    (hi : m'.read (b.base + 2 * j + 1) = m.read (b.base + 2 * j + 1)) :
    pcmRead m' b j = pcmRead m b j := by
  rw [pcmRead, pcmRead, lo, hi]

/-- Every pair whose second frame exists leaves two equal frames in the output. -/
theorem runPairs_holds {j : Nat} (inside : c.i + 2 * n ≤ c.frames + 1)
    (h : runPairs n c s = .next t) (hj : j < n) (second : c.i + 2 * j + 1 < c.frames) :
    pcmRead t.host c.output (2 * (c.i + 2 * j)) = pcmRead t.host c.output (2 * (c.i + 2 * j + 1)) ∧
    pcmRead t.host c.output (2 * (c.i + 2 * j) + 1) =
      pcmRead t.host c.output (2 * (c.i + 2 * j + 1) + 1) := by
  induction n generalizing c s j with
  | zero => exact absurd hj (Nat.not_lt_zero j)
  | succ n ih =>
    obtain ⟨b, u, -, hu, h⟩ := runPairs_succ_host h
    cases j with
    | zero =>
      have kept (k : Nat) (hk : k < 2 * (c.i + 2)) :
          pcmRead t.host c.output k = pcmRead (pairOutput c b) c.output k := by
        rw [← hu]
        exact pcmRead_eq_of_read
          (read_runPairs_other (by simp only; omega) h (.inl (by simp only; omega)))
          (read_runPairs_other (by simp only; omega) h (.inl (by simp only; omega)))
      obtain ⟨left, right⟩ := pcmRead_pairOutput b (c := c) (k := c.i) (.inl rfl)
      obtain ⟨left', right'⟩ := pcmRead_pairOutput b (c := c) (k := c.i + 1) (.inr ⟨rfl, second⟩)
      simp only [Nat.mul_zero, Nat.add_zero]
      rw [kept _ (by omega), kept _ (by omega), kept _ (by omega), kept _ (by omega), left, right,
        left', right']
      exact ⟨rfl, rfl⟩
    | succ j =>
      have later := ih (j := j) (by simp only; omega) h (by omega) (by simp only; omega)
      rwa [show c.i + 2 * (j + 1) = c.i + 2 + 2 * j by omega]

end

/-- Settles O43: frame `i` is the first of a pair of the call. -/
theorem runHoldsOutputAcrossPairs : Obligations.RunHoldsOutputAcrossPairs := by
  intro s t input output frames ok h i even second
  obtain ⟨u, hu, rfl⟩ := (runCall_eq_next_iff (runCall_contract h) ok).mp h
  have held := runPairs_holds (j := i / 2) (by simp only; omega) hu (by omega) (by simp only; omega)
  rwa [show 0 + 2 * (i / 2) = i by omega] at held

/-- A call that completes is its pairs, none where there is no scratch RAM, and the end of the call. -/
theorem runCall_eq_next {input output : PcmBuffer} {frames : Nat} {s t : State}
    (h : runCall input output frames s = .next t) :
    ∃ n u, 2 * n ≤ frames + 1 ∧ runPairs n ⟨input, output, frames, 0⟩ s = .next u ∧
      t = u.finishCall .returned := by
  cases ok : s.scratchOk with
  | false =>
    rw [runCall_of_no_ram (runCall_contract h) ok] at h
    cases h
    exact ⟨0, s, by omega, rfl, rfl⟩
  | true =>
    obtain ⟨u, hu⟩ := (runCall_eq_next_iff (runCall_contract h) ok).mp h
    exact ⟨_, u, by omega, hu⟩

/-- A stage is another one with its own delays where the two have the same coefficients. -/
theorem SvfStage.eq_of_coefficients {a b : SvfStage}
    (h : { a with z1 := .zero, z2 := .zero } = { b with z1 := .zero, z2 := .zero }) :
    a = { b with z1 := a.z1, z2 := a.z2 } := by
  cases a
  cases b
  simp only [SvfStage.mk.injEq, and_true] at h ⊢
  exact h

/-- A state that agrees with `s` on what no pair writes is `s` with its own values in the other fields. -/
theorem State.eq_of_outsideRun_eq {s t : State} (h : t.outsideRun = s.outsideRun) :
    t = { s with
      svf1 := { s.svf1 with z1 := t.svf1.z1, z2 := t.svf1.z2 }
      svf2 := { s.svf2 with z1 := t.svf2.z1, z2 := t.svf2.z2 }
      acc := t.acc, li := t.li, ai := t.ai, ptr := t.ptr, stepIdx := t.stepIdx, dspIn := t.dspIn
      outL := t.outL, outR := t.outR, ram := t.ram, host := t.host
      phase := t.phase, result := t.result } := by
  rw [← SvfStage.eq_of_coefficients (congrArg State.svf1 h),
    ← SvfStage.eq_of_coefficients (congrArg State.svf2 h)]
  cases s
  cases t
  simp only [State.outsideRun, State.mk.injEq, true_and] at h ⊢
  tauto

/-- Settles O44: the pairs write what they may and no other byte of host memory, and the buffers are
apart. -/
theorem runChangesOnlyListedState : Obligations.RunChangesOnlyListedState := by
  intro s t input output frames h
  have buffers := (contract_iff _ _ _).mp (runCall_contract h)
  obtain ⟨n, u, inside, hu, rfl⟩ := runCall_eq_next h
  have outside (a : Nat) (ha : a < output.base ∨ output.base + 4 * frames ≤ a) :
      u.host.read a = s.host.read a :=
    read_runPairs_other (by simp only; omega) hu ha
  have input_kept (a : Nat) (lo : input.base ≤ a) (hi : a < input.base + 4 * frames) :
      u.host.read a = s.host.read a := by
    have inputLong := buffers.inputLong
    have outputLong := buffers.outputLong
    have apart := buffers.apart a
    exact outside a (by omega)
  have frame : u.outsideRun = s.outsideRun := runPairs_outsideRun hu
  exact ⟨State.eq_of_outsideRun_eq (t := u.finishCall .returned) frame, outside,
    fun j hj => pcmRead_eq_of_read (input_kept _ (by omega) (by omega))
      (input_kept _ (by omega) (by omega))⟩

/-! ### What the pairs of a call read -/

/-- The tail of a step neither reads nor writes host memory. -/
theorem State.finishStep_setHost (s : State) (m : Memory 8) (d : ScratchAddr) :
    (s.setHost m).finishStep d = (s.finishStep d).setHost m := by
  have hook (s : State) : (s.setHost m).hook = s.hook.setHost m := by
    unfold State.hook
    rw [State.setHost_stepIdx]
    split_ifs <;> rfl
  exact congrArg (State.advance · d) (hook s.clampAi)

/-- So an instruction does the same on any host memory, and leaves it as it is. -/
theorem exec_setHost {i : Instr} {s t : State} (h : exec i s = .next t) (m : Memory 8) :
    exec i (s.setHost m) = .next (t.setHost m) := by
  cases i with
  | rda d =>
    cases h; exact congrArg Host.Outcome.next (State.finishStep_setHost (s.setLatches _ _) m d)
  | rdl d =>
    cases h; exact congrArg Host.Outcome.next (State.finishStep_setHost (s.setLatches _ _) m d)
  | wra d =>
    cases h
    exact congrArg Host.Outcome.next (State.finishStep_setHost (.ramWrite (s.setLatches _ _) _ _) m d)
  | wrn d =>
    cases h
    exact congrArg Host.Outcome.next (State.finishStep_setHost (.ramWrite (s.setLatches _ _) _ _) m d)

theorem engineSteps_setHost {n : Nat} {s t : State} (h : engineSteps n s = .next t) (m : Memory 8) :
    engineSteps n (s.setHost m) = .next (t.setHost m) := by
  induction n generalizing s with
  | zero => cases h; rfl
  | succ n ih =>
    obtain ⟨u, hu, h⟩ := andThen_eq_next.mp h
    have fetch : (s.setHost m).fetchInstr = s.fetchInstr := rfl
    rw [engineSteps, fetch, exec_setHost hu m, andThen_next, ih h]

/-- `m'` reads as `m` at the addresses in `A`. -/
def AgreeOn (A : Nat → Prop) (m m' : Memory 8) : Prop := ∀ a, A a → m'.read a = m.read a

section
variable {A : Nat → Prop} {m m' : Memory 8} {c : RunCall} {s t : State}

/-- Two memories agree where they agreed and where both are written alike. -/
theorem AgreeOn.write (h : AgreeOn A m m') (k : Nat) (v : Byte) :
    AgreeOn (fun a => A a ∨ a = k) (m.write k v) (m'.write k v) := by
  intro a ha
  rw [Memory.read_write, Memory.read_write]
  split
  · rfl
  · exact h a (ha.resolve_right ‹_›)

theorem AgreeOn.writeFrame (h : AgreeOn A m m') (b : PcmBuffer) (k : Nat) (l r : Word) :
    AgreeOn (fun a => A a ∨ b.base + 4 * k ≤ a ∧ a < b.base + 4 * k + 4)
      (writeFrame m b k l r) (writeFrame m' b k l r) := by
  intro a ha
  refine ((((h.write _ _).write _ _).write _ _).write _ _) a ?_
  obtain ha | ⟨lo, hi⟩ := ha
  · exact .inl (.inl (.inl (.inl ha)))
  · have : a = b.base + 2 * (2 * k) ∨ a = b.base + 2 * (2 * k) + 1 ∨
        a = b.base + 2 * (2 * k + 1) ∨ a = b.base + 2 * (2 * k + 1) + 1 := by omega
    tauto

/-- After the output of a pair two memories agree on the frames of the pair that exist, too. -/
theorem AgreeOn.pairOutput (h : AgreeOn A s.host m) (hi : c.i < c.frames) :
    AgreeOn (fun a => A a ∨
        c.output.base + 4 * c.i ≤ a ∧ a < c.output.base + 4 * min c.frames (c.i + 2))
      (pairOutput c s) (pairOutput c (s.setHost m)) := by
  intro a ha
  unfold Machine.pairOutput
  simp only [State.setHost_host, State.setHost_outL, State.setHost_outR]
  split
  · refine ((h.writeFrame _ _ _ _).writeFrame _ _ _ _) a ?_
    obtain ha | ha := ha
    · exact .inl (.inl ha)
    · rw [or_assoc]
      exact .inr (by omega)
  · refine (h.writeFrame _ _ _ _) a (ha.imp_right fun ha => ?_)
    omega

/-- A frame that host memory and `m` hold alike is filtered alike. -/
theorem filterFrame_setHost {b : PcmBuffer} {k : Nat} (h : AgreeOn A s.host m)
    (hA : ∀ a, b.base + 4 * k ≤ a → a < b.base + 4 * k + 4 → A a) :
    filterFrame (s.setHost m) b k = ((filterFrame s b k).1, (filterFrame s b k).2.setHost m) := by
  have sample (j : Nat) (hj : j = 2 * k ∨ j = 2 * k + 1) : pcmRead m b j = pcmRead s.host b j :=
    pcmRead_eq_of_read (h _ (hA _ (by omega) (by omega))) (h _ (hA _ (by omega) (by omega)))
  have mono : monoFrame (s.setHost m) b k = monoFrame s b k := by
    unfold monoFrame
    rw [State.setHost_host, sample _ (.inl rfl), sample _ (.inr rfl)]
    rfl
  unfold filterFrame
  rw [mono]
  rfl

/-- The head of a pair reads the frames of the pair that exist. -/
theorem startPair_setHost (h : AgreeOn A s.host m) (hi : c.i < c.frames)
    (hA : ∀ a, c.input.base + 4 * c.i ≤ a → a < c.input.base + 4 * c.frames → A a)
    (ht : startPair c s = .next t) : startPair c (s.setHost m) = .next (t.setHost m) := by
  obtain ⟨_, _, d, hd, -⟩ := startPair_next ht
  rw [startPair_of_toDspIn hd] at ht
  cases ht
  have first := filterFrame_setHost (b := c.input) (k := c.i) h
    fun a lo up => hA a lo (by omega)
  rw [startPair_of_toDspIn (d := d) (by rw [first]; exact hd), first]
  unfold filterSecond
  split
  · have second := filterFrame_setHost (b := c.input) (k := c.i + 1)
      (s := (filterFrame s c.input c.i).2) h fun a lo up => hA a (by omega) (by omega)
    rw [second]
    rfl
  · rfl

/-- The end of a pair writes its output over whatever host memory holds. -/
theorem endPair_setHost (m : Memory 8) (h : endPair c s = .next t) :
    endPair c (s.setHost m) = .next (t.setHost (pairOutput c (s.setHost m))) := by
  unfold endPair at h ⊢
  by_cases more : c.i + 2 < c.frames
  · simp only [if_pos more] at h ⊢
    cases h
    rfl
  · simp only [if_neg more] at h ⊢
    cases h
    rfl

/-- Pairs on a memory that agrees on the input give the same state, and agree on their output, too. -/
theorem runPairs_setHost {n : Nat} (h : AgreeOn A s.host m) (inside : c.i + 2 * n ≤ c.frames + 1)
    (hA : ∀ a, c.input.base + 4 * c.i ≤ a → a < c.input.base + 4 * c.frames → A a)
    (ht : runPairs n c s = .next t) :
    ∃ m', runPairs n c (s.setHost m) = .next (t.setHost m') ∧
      AgreeOn (fun a => A a ∨
        c.output.base + 4 * c.i ≤ a ∧ a < c.output.base + 4 * min c.frames (c.i + 2 * n)) t.host m' := by
  induction n generalizing A c s m with
  | zero =>
    cases ht
    exact ⟨m, rfl, fun a ha => h a (ha.resolve_right (by omega))⟩
  | succ n ih =>
    obtain ⟨a, b, u, ha, hb, hu, ht⟩ := runPairs_succ_eq_next ht
    have hi : c.i < c.frames := by omega
    have before : AgreeOn A b.host m := invocation_host ha hb ▸ h
    have after := before.pairOutput hi
    rw [← endPair_host hu] at after
    obtain ⟨m', ht', agree⟩ := ih (c := { c with i := c.i + 2 }) after (by simp only; omega)
      (fun a lo up => .inl (hA a (by simp only at lo; omega) up)) ht
    refine ⟨m', (runPairs_succ (startPair_setHost h hi hA ha) (engineSteps_setHost hb m)
      (endPair_setHost m hu)).trans ht', fun a ha => agree a ?_⟩
    simp only
    rw [or_assoc]
    exact ha.imp_right fun ha => by omega

end

/-- Samples that are equal have equal bytes. -/
theorem read_eq_of_pcmRead {m m' : Memory 8} {b : PcmBuffer} {j : Nat}
    (h : pcmRead m' b j = pcmRead m b j) : m'.read (b.base + 2 * j) = m.read (b.base + 2 * j) ∧
      m'.read (b.base + 2 * j + 1) = m.read (b.base + 2 * j + 1) := by
  have bytes (m : Memory 8) : (pcmRead m b j).toNat =
      (m.read (b.base + 2 * j)).toNat + 256 * (m.read (b.base + 2 * j + 1)).toNat :=
    wordOfBytes_toNat _ _
  have sum := bytes m'
  rw [h, bytes m] at sum
  have := (m.read (b.base + 2 * j)).isLt
  have := (m'.read (b.base + 2 * j)).isLt
  exact ⟨BitVec.eq_of_toNat_eq (by omega), BitVec.eq_of_toNat_eq (by omega)⟩

/-- Settles O45: the pairs read host memory at the input samples only. -/
theorem runReadsInputSamplesOnly : Obligations.RunReadsInputSamplesOnly := by
  intro s t m input output frames ok h samples
  have contract := runCall_contract h
  obtain ⟨u, hu, rfl⟩ := (runCall_eq_next_iff contract ok).mp h
  have agree : AgreeOn (fun a => input.base ≤ a ∧ a < input.base + 4 * frames) s.host m := by
    rintro a ⟨lo, hi⟩
    obtain ⟨even, odd⟩ := read_eq_of_pcmRead (samples ((a - input.base) / 2) (by omega))
    obtain e | e : a = input.base + 2 * ((a - input.base) / 2) ∨
      a = input.base + 2 * ((a - input.base) / 2) + 1 := by omega
    · rwa [← e] at even
    · rwa [← e] at odd
  obtain ⟨m', hm, agree⟩ := runPairs_setHost (c := ⟨input, output, frames, 0⟩) agree
    (by simp only; omega) (fun a lo hi => ⟨lo, hi⟩) hu
  have completes : runCall input output frames (s.setHost m) = _ :=
    (runCall_eq_next_iff (s := s.setHost m) contract ok).mpr ⟨_, hm, rfl⟩
  refine ⟨_, completes, rfl, fun j hj => ?_⟩
  exact pcmRead_eq_of_read (agree _ (.inr (by simp only; omega))) (agree _ (.inr (by simp only; omega)))

/-! ### The micro-steps -/

theorem run_succ_of_fault {M : Host.Core} {s : M.State} {r : M.Fault} (h : M.step s = .fault r)
    (n : Nat) : M.run (n + 1) s = .fault r := by
  rw [Host.Core.run, h]

theorem run_succ_of_refused {M : Host.Core} {s : M.State} {r : M.Refusal} (h : M.step s = .refused r)
    (n : Nat) : M.run (n + 1) s = .refused r := by
  rw [Host.Core.run, h]

/-- `n` steps of the machine, as an outcome that `andThen` goes on from. -/
def runSteps (n : Nat) (s : State) : StepOutcome := core.run n s

/-- A run of one step and more. -/
theorem runSteps_succ (n : Nat) (s : State) : runSteps (n + 1) s = andThen (step s) (runSteps n) := by
  cases h : step s with
  | next t => exact run_succ_of_step (M := core) h n
  | fault r => exact run_succ_of_fault (M := core) h n
  | refused r => exact run_succ_of_refused (M := core) h n

/-- A run in two parts. -/
theorem runSteps_add (j k : Nat) (s : State) :
    runSteps (j + k) s = andThen (runSteps j s) (runSteps k) := by
  induction j generalizing s with
  | zero => rw [Nat.zero_add]; rfl
  | succ j ih =>
    rw [Nat.add_right_comm, runSteps_succ, runSteps_succ]
    cases step s with
    | next t => exact ih t
    | fault r => rfl
    | refused r => rfl

/-- The 130 micro-steps of each pair are the pair. -/
theorem runSteps_runPairs {n : Nat} {c : RunCall} {s : State} (mark : s.mark = .clear)
    (alone : noOverlap s) (phase : 0 < n → s.phase = .pairStart c)
    (inside : c.i + 2 * n ≤ c.frames + 1) : runSteps (130 * n) s = runPairs n c s := by
  induction n generalizing c s with
  | zero => rfl
  | succ n ih =>
    rw [show 130 * (n + 1) = 128 + (130 * n + 1) + 1 by omega, runSteps_succ,
      step_eq_startPair mark (phase n.succ_pos) alone, runPairs]
    cases ht : startPair c s with
    | fault r => rfl
    | refused r => rfl
    | next t =>
      obtain ⟨a, b, d, -, rfl⟩ := startPair_next ht
      have start : InvocationAt c 0 ((s.setFilters a b).beginInvocation d c) := ⟨mark, alone, rfl, rfl⟩
      obtain ⟨u, hrun, hsteps, hend⟩ := start.run (n := programLength) le_rfl
      have hrun : runSteps 128 ((s.setFilters a b).beginInvocation d c) = .next u := hrun
      rw [andThen_next, andThen_next, runSteps_add, hrun, hsteps, andThen_next, andThen_next,
        runSteps_succ, step_eq_endPair hend.mark hend.phase hend.alone]
      obtain ⟨more, e⟩ | ⟨last, e⟩ := endPair_cases c u
      · rw [e, andThen_next, andThen_next]
        exact ih hend.mark hend.alone (fun _ => rfl) (by simp only; omega)
      · obtain rfl : n = 0 := by omega
        rw [e]
        rfl

/-- Settles O46: the first step begins the call, and then each pair takes its 130. -/
theorem microStepsAreTheTransaction : Obligations.MicroStepsAreTheTransaction := by
  intro s input output frames rest h ok
  change runSteps (1 + 130 * ((frames + 1) / 2)) s = _
  rw [Nat.add_comm, runSteps_succ, h.step_eq, callLive, runCall]
  cases ht : beginRun input output frames { s with calls := rest } with
  | fault r => rfl
  | refused r => rfl
  | next t =>
    rw [andThen_next, andThen_next, if_pos ok]
    obtain ⟨-, ⟨none, rfl⟩ | ⟨-, some, rfl⟩⟩ := beginRun_next ht
    · obtain rfl : frames = 0 := none.resolve_left (by simp [ok])
      rfl
    · exact runSteps_runPairs h.mark h.alone (fun _ => rfl) (by simp only; omega)

end Sys2Proof.Machine
end
